-- ==== Sys2Proof/Word.lean ====
section
/-!
DEFINITION. The word types of the block (spec/00_scope.md R11). `Micros` and `Millis` of the spec are `Nat`, `SMicros` is
`Int`: unbounded, no wrap (R9).
-/

namespace Sys2Proof

/-- 0..255 (R11). -/
abbrev U8 := BitVec 8

/-- The payload of a 32-bit frame (R11, R80). -/
abbrev U32 := BitVec 32

/-- `accumulator` and `lastDatagram` (R11, R23, R24). -/
abbrev U64 := BitVec 64

/-- `Bits(31)`: a job id (R44, R202). -/
abbrev Bits31 := BitVec 31

/-- `String` of R11: a finite sequence of characters, `length` its length, index 0 its first character. -/
abbrev Text := List Char

end Sys2Proof
end

