-- ==== Sys2Proof/Machine/Constants.lean ====
section
/-!
DEFINITION. The constants of spec/00_scope.md R8, under the spec's names.
-/

namespace Sys2Proof.Machine

/-- `d < T_BIT1` is bit 0. -/
def T_BIT1 : Nat := 1600
/-- `d < T_LONG` ends bit 1; `d >= T_LONG` is a non-append class. -/
def T_LONG : Nat := 2700
/-- `d < T_HDR_LO` with an empty accumulator is repeat. -/
def T_HDR_LO : Nat := 12500
/-- `d < T_HDR_HI` ends header. -/
def T_HDR_HI : Nat := 14500
/-- The flush count, in bits. -/
def ACC_WIDTH : Nat := 64
/-- Header mark before correction. -/
def HDR_MARK : Int := 9000
/-- Header space before correction. -/
def HDR_SPACE : Int := 4500
/-- Bit mark before correction and bias; the terminator mark (`NEC_BIT_MARK`). -/
def BIT_MARK : Int := 560
/-- Space of a 1 bit before correction and bias. -/
def ONE_SPACE : Int := 1690
/-- Space of a 0 bit before correction and bias. -/
def ZERO_SPACE : Int := 560
/-- Added to every data-bit mark, subtracted from every data-bit space. -/
def BIAS : Int := 50
/-- Number of calibration pulses. -/
def CAL_RUNS : Nat := 32
/-- Requested mark and requested space of a calibration pulse. -/
def CAL_PULSE : Int := 1
/-- Settling pause after calibration. -/
def SETTLE : Int := 2000
/-- PWM period, in "units" the source does not name. -/
def PWM_PERIOD : Nat := 26
/-- Exact length in characters of the code string `SEND` accepts. -/
def SEND_LEN : Nat := 10
/-- Added to `now` for `repeatDeadline`; interval of the poll job. -/
def REPEAT_TIMEOUT_MS : Nat := 220
/-- Starting polling interval of an Executor. -/
def POLL_DEFAULT_MS : Nat := 100
/-- "No button" (R28). -/
def NO_BUTTON : Int := -1

end Sys2Proof.Machine
end

