-- ==== Sys2Proof/Syntax.lean ====
section
/-!
DEFINITION. The operations of the block (spec/00_scope.md R3), one constructor per row of spec/opcode_table.json, and the
types of their operands.
-/

namespace Sys2Proof

/-- The three-valued result DEC hands to the EventDispatcher (R11). -/
inductive Signal where
  | incomplete
  | datagram
  | repeatCode
  deriving DecidableEq, Repr

/-- The six rows of the classification table (R11, R71). -/
inductive PairClass where
  | bit0
  | bit1
  | frameEnd
  | repeatCode
  | header
  | noise
  deriving DecidableEq, Repr

/-- `PROTO` (R9): opaque; no operation reads more of it than whether one is set. DESIGN CHOICE (log 3): a name. -/
structure Proto where
  name : Text
  deriving DecidableEq, Repr

/-- `PIN` (R9): opaque, carried, never computed on. DESIGN CHOICE (log 3): a name. -/
structure Pin where
  name : Text
  deriving DecidableEq, Repr

/-- What a job or a handler calls: the application's callback of that name (DESIGN CHOICE, log 3), or the block's own
release-timeout poll (R174). -/
inductive Callback where
  | user (name : Text)
  | poll
  deriving DecidableEq, Repr

/-- The key of a handler: an integer button code, or `WILDCARD`, distinct from every integer (R9, R31). -/
inductive Key where
  | code (n : Int)
  | wildcard
  deriving DecidableEq, Repr

/-- The two Executors (R200). -/
inductive Queue where
  | priority
  | userCallback
  deriving DecidableEq, Repr

/-- The mode of a job (R44). -/
inductive Mode where
  | once
  | recurring
  deriving DecidableEq, Repr

/-- A number of milliseconds, "may be negative or fractional" (R204): `mant / 10 ^ scale`, exactly as it is written in
decimal. DESIGN CHOICE (log 17). -/
structure Decimal where
  mant : Int
  scale : Nat
  deriving DecidableEq, Repr

/-- The operations. The six class rows are Format P (R70, R88): their operands are the pair whose sum selects them. -/
inductive Instr where
  | connect (protocol : Proto) (pin : Pin)
  | markedge (m : Nat)
  | spaceedge (s : Nat)
  | pulse (mark space : Nat)
  | bit0 (mark space : Nat)
  | bit1 (mark space : Nat)
  | frameEnd (mark space : Nat)
  | repeatCode (mark space : Nat)
  | header (mark space : Nat)
  | noise (mark space : Nat)
  | clracc
  | txinit (pin : Pin)
  | txbit (highMicros lowMicros : Int)
  | enc (address command : U8)
  | send (code : Text)
  | sendcmd (address command : U8)
  | sendlong (hex : Text)
  | handle (sig : Signal) (now : Nat)
  | poll (now : Nat)
  | wasrx
  | lasthex
  | held
  | onpress (key : Key) (callback : Callback)
  | onrelease (key : Key) (callback : Callback)
  | ondatagram (callback : Callback)
  | schedule (queue : Queue) (callback : Option Callback) (mode : Mode) (delayMs : Decimal)
  | cancel (queue : Queue) (id : Bits31)
  | iterate (queue : Queue) (nowMs : Nat)
  deriving DecidableEq, Repr

/-- The rows of spec/opcode_table.json, without operands. -/
inductive Opcode where
  | connect | markedge | spaceedge | pulse | bit0 | bit1 | frameEnd | repeatCode | header | noise | clracc
  | txinit | txbit | enc | send | sendcmd | sendlong
  | handle | poll | wasrx | lasthex | held | onpress | onrelease | ondatagram | schedule | cancel | iterate
  deriving DecidableEq, Repr

/-- The row an operation belongs to. -/
def Instr.opcode : Instr → Opcode
  | .connect _ _ => .connect
  | .markedge _ => .markedge
  | .spaceedge _ => .spaceedge
  | .pulse _ _ => .pulse
  | .bit0 _ _ => .bit0
  | .bit1 _ _ => .bit1
  | .frameEnd _ _ => .frameEnd
  | .repeatCode _ _ => .repeatCode
  | .header _ _ => .header
  | .noise _ _ => .noise
  | .clracc => .clracc
  | .txinit _ => .txinit
  | .txbit _ _ => .txbit
  | .enc _ _ => .enc
  | .send _ => .send
  | .sendcmd _ _ => .sendcmd
  | .sendlong _ => .sendlong
  | .handle _ _ => .handle
  | .poll _ => .poll
  | .wasrx => .wasrx
  | .lasthex => .lasthex
  | .held => .held
  | .onpress _ _ => .onpress
  | .onrelease _ _ => .onrelease
  | .ondatagram _ => .ondatagram
  | .schedule _ _ _ _ => .schedule
  | .cancel _ _ => .cancel
  | .iterate _ _ => .iterate

end Sys2Proof
end

