-- ==== Sys2Proof/Machine/Classify.lean ====
section
/-!
DEFINITION. The operation map of DEC (spec/30_encoding.md R71, R89; spec/40_decoder.md R104): which class a pair selects.
-/

namespace Sys2Proof.Machine

/-- The `d` range of a class's row (R71, R88): `d_min` inclusive, `d_max` exclusive or absent. -/
def PairClass.range : PairClass → Nat × Option Nat
  | .bit0 => (0, some T_BIT1)
  | .bit1 => (T_BIT1, some T_LONG)
  | .frameEnd => (T_LONG, none)
  | .repeatCode => (T_LONG, some T_HDR_LO)
  | .header => (T_HDR_LO, some T_HDR_HI)
  | .noise => (T_HDR_HI, none)

/-- Whether `d` lies in the row's range (R88). -/
def PairClass.inRange (c : PairClass) (d : Nat) : Bool :=
  decide ((PairClass.range c).1 ≤ d) && match (PairClass.range c).2 with
    | some hi => decide (d < hi)
    | none => true

/-- The row's accumulator condition, read off the count of bits held (R71, R22). -/
def PairClass.accOk (c : PairClass) (bits : Nat) : Bool :=
  match c with
  | .bit0 | .bit1 => true
  | .frameEnd => decide (0 < bits)
  | .repeatCode | .header | .noise => decide (bits = 0)

/-- The decision of `Decode` (R104). -/
def classify (d bits : Nat) : PairClass :=
  if d < T_BIT1 then .bit0
  else if d < T_LONG then .bit1
  else if 0 < bits then .frameEnd
  else if d < T_HDR_LO then .repeatCode
  else if d < T_HDR_HI then .header
  else .noise

end Sys2Proof.Machine
end

