-- ==== Sys2Proof/Machine/Text.lean ====
section
/-!
DEFINITION. Characters, digits and operand lists of the written form of operations (spec/30_encoding.md R79, R85), read and
written.
-/

namespace Sys2Proof.Machine

/-- The character that encloses a code string (R85). -/
def quoteChar : Char := Char.ofNat 34

/-- A minus sign: ASCII, or the sign the spec's own text uses. -/
def isMinus (c : Char) : Bool := c == '-' || c == '−'

/-- A hex digit, either letter case (R79). -/
def isHexDigit (c : Char) : Bool :=
  c.isDigit || (decide ('a' ≤ c) && decide (c ≤ 'f')) || (decide ('A' ≤ c) && decide (c ≤ 'F'))

/-- The value of a hex digit (R79). -/
def hexDigitValue (c : Char) : Nat :=
  if c.isDigit then c.toNat - 48
  else if 'a' ≤ c && c ≤ 'f' then c.toNat - 87
  else c.toNat - 55

/-- `sum over j of digit(j) × 16^(k−1−j)` (R79). -/
def hexValue (h : Text) : Nat := h.foldl (fun v c => 16 * v + hexDigitValue c) 0

/-- A hex digit as the spec's examples write it: upper case. -/
def hexDigit (n : Nat) : Char := if n < 10 then Char.ofNat (48 + n) else Char.ofNat (55 + n)

/-- For `0x` followed by `k >= 1` hex digits: `k` and the value (R76, R77, R137); nothing for any other string. -/
def readHexString : Text → Option (Nat × Nat)
  | '0' :: 'x' :: h => if !h.isEmpty && h.all isHexDigit then some (h.length, hexValue h) else none
  | _ => none

/-- At least one digit, and nothing else. -/
def allDigits (t : Text) : Bool := !t.isEmpty && t.all Char.isDigit

/-- A natural number, in decimal or as `0x` and hex digits. -/
def readNat (t : Text) : Option Nat :=
  if allDigits t then some (Nat.ofDigitChars 10 t 0) else (readHexString t).map Prod.snd

/-- An integer: a natural number, or a minus sign and one. -/
def readInt : Text → Option Int
  | [] => none
  | c :: t => if isMinus c then (readNat t).map (fun n => -(n : Int)) else (readNat (c :: t)).map (fun n => (n : Int))

/-- An unsigned number of `w` bits; a larger one is not representable (R83). -/
def readBits (w : Nat) (t : Text) : Option (BitVec w) :=
  (readNat t).bind fun n => if n < 2 ^ w then some (BitVec.ofNat w n) else none

/-- An unsigned decimal number, with or without a fraction. -/
def readUDecimal (t : Text) : Option (Nat × Nat) :=
  match t.dropWhile (fun c => c != '.') with
  | [] => if allDigits t then some (Nat.ofDigitChars 10 t 0, 0) else none
  | _ :: fp =>
    if allDigits (t.takeWhile fun c => c != '.') && allDigits fp then
      some (Nat.ofDigitChars 10 ((t.takeWhile fun c => c != '.') ++ fp) 0, fp.length)
    else none

/-- A decimal number (the delay of R204). -/
def readDecimal : Text → Option Decimal
  | [] => none
  | c :: t =>
    if isMinus c then (readUDecimal t).map (fun p => ⟨-(p.1 : Int), p.2⟩)
    else (readUDecimal (c :: t)).map (fun p => ⟨(p.1 : Int), p.2⟩)

/-- A name of a protocol variant, a pin or a callback: a letter, then letters, digits and underscores. -/
def isName : Text → Bool
  | [] => false
  | c :: t => c.isAlpha && t.all (fun c => c.isAlphanum || c == '_')

/-- The written name of the poll callback (R101). -/
def pollName : Text := ['P', 'O', 'L', 'L']

/-- The written name of the null callback (R204). -/
def nullName : Text := ['n', 'u', 'l', 'l']

/-- The written name of `WILDCARD` (R9). -/
def wildcardName : Text := ['W', 'I', 'L', 'D', 'C', 'A', 'R', 'D']

def readName (t : Text) : Option Text := if isName t then some t else none

def readCallback (t : Text) : Option Callback :=
  if t = pollName then some .poll
  else if t = nullName then none
  else (readName t).map .user

def readCallbackOrNull (t : Text) : Option (Option Callback) :=
  if t = nullName then some none else (readCallback t).map some

def readKey (t : Text) : Option Key :=
  if t = wildcardName then some .wildcard else (readInt t).map .code

/-- The written names of the two executors (R200). -/
def queueName : Queue → Text
  | .priority => "Priority".toList
  | .userCallback => "UserCallback".toList

def readQueue (t : Text) : Option Queue :=
  if t = queueName .priority then some .priority
  else if t = queueName .userCallback then some .userCallback else none

/-- The written names of the two modes (R44). -/
def modeName : Mode → Text
  | .once => "Once".toList
  | .recurring => "Repeat".toList

def readMode (t : Text) : Option Mode :=
  if t = modeName .once then some .once
  else if t = modeName .recurring then some .recurring else none

/-- The written names of the signals (R18). -/
def signalName : Signal → Text
  | .incomplete => "INCOMPLETE".toList
  | .datagram => "DATAGRAM".toList
  | .repeatCode => "REPEAT".toList

def readSignal (t : Text) : Option Signal :=
  if t = signalName .datagram then some .datagram
  else if t = signalName .repeatCode then some .repeatCode
  else if t = signalName .incomplete then some .incomplete else none

/-- A code string: everything between the first and the last character of the operand, which are double quotes
(R85). -/
def readQuoted : Text → Option Text
  | [] => none
  | c :: t => if c = quoteChar && t.getLast? = some quoteChar then some t.dropLast else none

/-- Drops the spaces before and after. -/
def trim (t : Text) : Text := ((t.dropWhile (· == ' ')).reverse.dropWhile (· == ' ')).reverse

/-- The pieces between commas. -/
def splitCommas : Text → List Text
  | [] => [[]]
  | c :: t =>
    if c = ',' then [] :: splitCommas t
    else match splitCommas t with
      | [] => [[c]]
      | w :: ws => (c :: w) :: ws

/-- The operands of a line (R85): none for an empty rest, otherwise what stands between commas. -/
def operandList (raw : Text) : List Text := if raw.isEmpty then [] else (splitCommas raw).map trim

/-! Writing. -/

def showNat (n : Nat) : Text := Nat.toDigits 10 n

def showInt (n : Int) : Text := if n < 0 then '-' :: showNat n.natAbs else showNat n.natAbs

/-- `0x` and two digits, as the spec writes an address or a command (R85). -/
def showU8 (v : U8) : Text := ['0', 'x', hexDigit (v.toNat / 16), hexDigit (v.toNat % 16)]

/-- The digits of a decimal number, at least one of them before the point. -/
def decimalDigits (m scale : Nat) : Text := List.replicate (scale + 1 - (showNat m).length) '0' ++ showNat m

/-- A decimal number with exactly `scale` digits after the point, and no point when there are none. -/
def showUDecimal (m scale : Nat) : Text :=
  if scale = 0 then decimalDigits m scale
  else (decimalDigits m scale).take ((decimalDigits m scale).length - scale) ++
    '.' :: (decimalDigits m scale).drop ((decimalDigits m scale).length - scale)

def showDecimal (x : Decimal) : Text :=
  if x.mant < 0 then '-' :: showUDecimal x.mant.natAbs x.scale else showUDecimal x.mant.natAbs x.scale

def showCallback : Callback → Text
  | .user n => n
  | .poll => pollName

def showCallbackOrNull : Option Callback → Text
  | none => nullName
  | some c => showCallback c

def showKey : Key → Text
  | .code n => showInt n
  | .wildcard => wildcardName

def showQuoted (t : Text) : Text := quoteChar :: (t ++ [quoteChar])

/-- Operands, separated by a comma and a space (R85). -/
def joinOperands : List Text → Text
  | [] => []
  | [w] => w
  | w :: ws => w ++ ',' :: ' ' :: joinOperands ws

end Sys2Proof.Machine
end

