-- ==== Sys2Proof/WellFormed.lean ====
section
/-!
DEFINITION. Which operations are well formed: the operand conditions of spec/opcode_table.json that do not depend on the
state (the `d` range of a class row, the signal of `HANDLE`, names that can be written).
-/

namespace Sys2Proof

/-- A callback that can be written: a name other than the two reserved ones, or the poll. -/
def Callback.wf : Callback → Bool
  | .user n => Machine.isName n && n != Machine.pollName && n != Machine.nullName
  | .poll => true

/-- Well-formedness of an operation. -/
def Instr.wf : Instr → Bool
  | .connect p n => Machine.isName p.name && Machine.isName n.name
  | .markedge _ => true
  | .spaceedge _ => true
  | .pulse _ _ => true
  | .bit0 m s => Machine.PairClass.inRange .bit0 (m + s)
  | .bit1 m s => Machine.PairClass.inRange .bit1 (m + s)
  | .frameEnd m s => Machine.PairClass.inRange .frameEnd (m + s)
  | .repeatCode m s => Machine.PairClass.inRange .repeatCode (m + s)
  | .header m s => Machine.PairClass.inRange .header (m + s)
  | .noise m s => Machine.PairClass.inRange .noise (m + s)
  | .clracc => true
  | .txinit n => Machine.isName n.name
  | .txbit _ _ => true
  | .enc _ _ => true
  | .send _ => true
  | .sendcmd _ _ => true
  | .sendlong _ => true
  | .handle sig _ => sig != .incomplete
  | .poll _ => true
  | .wasrx => true
  | .lasthex => true
  | .held => true
  | .onpress _ c => c.wf
  | .onrelease _ c => c.wf
  | .ondatagram c => c.wf
  | .schedule _ none _ _ => true
  | .schedule _ (some c) _ _ => c.wf
  | .cancel _ _ => true
  | .iterate _ _ => true

end Sys2Proof
end

