-- ==== Sys2Proof/Decode.lean ====
section
/-!
DEFINITION. The decoder of the written form of operations (spec/30_encoding.md R85: `MNEMONIC operand, operand`, durations in
decimal, code strings in double quotes), total on any text, and its encoder. The spec gives no bit pattern (R88); the text is
the only encoding of an operation it has (DESIGN CHOICE, log 1).
-/

namespace Sys2Proof

/-- The mnemonic of a row, letter for letter (R3). -/
def Opcode.name : Opcode → Text
  | .connect => "CONNECT".toList
  | .markedge => "MARKEDGE".toList
  | .spaceedge => "SPACEEDGE".toList
  | .pulse => "PULSE".toList
  | .bit0 => "BIT0".toList
  | .bit1 => "BIT1".toList
  | .frameEnd => "FRAME_END".toList
  | .repeatCode => "REPEAT".toList
  | .header => "HEADER".toList
  | .noise => "NOISE".toList
  | .clracc => "CLRACC".toList
  | .txinit => "TXINIT".toList
  | .txbit => "TXBIT".toList
  | .enc => "ENC".toList
  | .send => "SEND".toList
  | .sendcmd => "SENDCMD".toList
  | .sendlong => "SENDLONG".toList
  | .handle => "HANDLE".toList
  | .poll => "POLL".toList
  | .wasrx => "WASRX".toList
  | .lasthex => "LASTHEX".toList
  | .held => "HELD".toList
  | .onpress => "ONPRESS".toList
  | .onrelease => "ONRELEASE".toList
  | .ondatagram => "ONDATAGRAM".toList
  | .schedule => "SCHEDULE".toList
  | .cancel => "CANCEL".toList
  | .iterate => "ITERATE".toList

/-- Every row, in the table's order. -/
def Opcode.all : List Opcode :=
  [.connect, .markedge, .spaceedge, .pulse, .bit0, .bit1, .frameEnd, .repeatCode, .header, .noise, .clracc] ++
  [.txinit, .txbit, .enc, .send, .sendcmd, .sendlong] ++
  [.handle, .poll, .wasrx, .lasthex, .held, .onpress, .onrelease, .ondatagram, .schedule, .cancel, .iterate]

/-- The row of that mnemonic. -/
def Opcode.ofName (t : Text) : Option Opcode := Opcode.all.find? (fun o => o.name == t)

/-- Why a line is not an operation. -/
inductive DecodeError where
  /-- The line holds nothing. Safe. -/
  | emptyLine
  /-- The first word is no mnemonic of spec/opcode_table.json. Safe. -/
  | unknownMnemonic (word : Text)
  /-- The operands of that row do not read as its types. Safe. -/
  | badOperands (o : Opcode)
  /-- The operands read, and break the row's condition (`Instr.wf`). Safe. -/
  | illFormed (o : Opcode)
  deriving DecidableEq, Repr

/-- No operands. -/
def operands0 (i : Instr) : List Text → Option Instr
  | [] => some i
  | _ => none

/-- One operand. -/
def operands1 {α : Type} (ra : Text → Option α) (f : α → Instr) : List Text → Option Instr
  | [a] => (ra a).map f
  | _ => none

/-- Two operands. -/
def operands2 {α β : Type} (ra : Text → Option α) (rb : Text → Option β) (f : α → β → Instr) : List Text → Option Instr
  | [a, b] => (ra a).bind fun x => (rb b).map (f x)
  | _ => none

/-- Four operands. -/
def operands4 {α β γ δ : Type} (ra : Text → Option α) (rb : Text → Option β) (rc : Text → Option γ) (rd : Text → Option δ)
    (f : α → β → γ → δ → Instr) : List Text → Option Instr
  | [a, b, c, d] => (ra a).bind fun x => (rb b).bind fun y => (rc c).bind fun z => (rd d).map (f x y z)
  | _ => none

open Machine in
/-- The operands of a row, read from the rest of the line (spec/opcode_table.json, column `source_fields`). -/
def readOperands (o : Opcode) (raw : Text) : Option Instr :=
  match o with
  | .connect => operands2 readName readName (fun p n => .connect ⟨p⟩ ⟨n⟩) (operandList raw)
  | .markedge => operands1 readNat .markedge (operandList raw)
  | .spaceedge => operands1 readNat .spaceedge (operandList raw)
  | .pulse => operands2 readNat readNat .pulse (operandList raw)
  | .bit0 => operands2 readNat readNat .bit0 (operandList raw)
  | .bit1 => operands2 readNat readNat .bit1 (operandList raw)
  | .frameEnd => operands2 readNat readNat .frameEnd (operandList raw)
  | .repeatCode => operands2 readNat readNat .repeatCode (operandList raw)
  | .header => operands2 readNat readNat .header (operandList raw)
  | .noise => operands2 readNat readNat .noise (operandList raw)
  | .clracc => operands0 .clracc (operandList raw)
  | .txinit => operands1 readName (fun n => .txinit ⟨n⟩) (operandList raw)
  | .txbit => operands2 readInt readInt .txbit (operandList raw)
  | .enc => operands2 (readBits 8) (readBits 8) .enc (operandList raw)
  | .send => (readQuoted raw).map .send
  | .sendcmd => operands2 (readBits 8) (readBits 8) .sendcmd (operandList raw)
  | .sendlong => (readQuoted raw).map .sendlong
  | .handle => operands2 readSignal readNat .handle (operandList raw)
  | .poll => operands1 readNat .poll (operandList raw)
  | .wasrx => operands0 .wasrx (operandList raw)
  | .lasthex => operands0 .lasthex (operandList raw)
  | .held => operands0 .held (operandList raw)
  | .onpress => operands2 readKey readCallback .onpress (operandList raw)
  | .onrelease => operands2 readKey readCallback .onrelease (operandList raw)
  | .ondatagram => operands1 readCallback .ondatagram (operandList raw)
  | .schedule => operands4 readQueue readCallbackOrNull readMode readDecimal .schedule (operandList raw)
  | .cancel => operands2 readQueue (readBits 31) .cancel (operandList raw)
  | .iterate => operands2 readQueue readNat .iterate (operandList raw)

/-- The first word of a line. -/
def firstWord (line : Text) : Text := (Machine.trim line).takeWhile (· != ' ')

/-- What follows the first word, without the spaces around it. -/
def restOfLine (line : Text) : Text := Machine.trim ((Machine.trim line).dropWhile (· != ' '))

/-- The decoder: total on any line, rejecting by name. -/
def decode (line : Text) : Except DecodeError Instr :=
  if (firstWord line).isEmpty then .error .emptyLine
  else match Opcode.ofName (firstWord line) with
    | none => .error (.unknownMnemonic (firstWord line))
    | some o => match readOperands o (restOfLine line) with
      | none => .error (.badOperands o)
      | some i => if i.wf then .ok i else .error (.illFormed o)

open Machine in
/-- The operands as they are written. -/
def Instr.operandTexts : Instr → List Text
  | .connect p n => [p.name, n.name]
  | .markedge m => [showNat m]
  | .spaceedge s => [showNat s]
  | .pulse m s => [showNat m, showNat s]
  | .bit0 m s => [showNat m, showNat s]
  | .bit1 m s => [showNat m, showNat s]
  | .frameEnd m s => [showNat m, showNat s]
  | .repeatCode m s => [showNat m, showNat s]
  | .header m s => [showNat m, showNat s]
  | .noise m s => [showNat m, showNat s]
  | .clracc => []
  | .txinit n => [n.name]
  | .txbit h l => [showInt h, showInt l]
  | .enc a c => [showU8 a, showU8 c]
  | .send t => [showQuoted t]
  | .sendcmd a c => [showU8 a, showU8 c]
  | .sendlong t => [showQuoted t]
  | .handle sig now => [signalName sig, showNat now]
  | .poll now => [showNat now]
  | .wasrx => []
  | .lasthex => []
  | .held => []
  | .onpress k c => [showKey k, showCallback c]
  | .onrelease k c => [showKey k, showCallback c]
  | .ondatagram c => [showCallback c]
  | .schedule q c m d => [queueName q, showCallbackOrNull c, modeName m, showDecimal d]
  | .cancel q i => [queueName q, showNat i.toNat]
  | .iterate q now => [queueName q, showNat now]

/-- The encoder: the line of an operation (R85). -/
def encode (i : Instr) : Text :=
  match i.operandTexts with
  | [] => i.opcode.name
  | w :: ws => i.opcode.name ++ ' ' :: Machine.joinOperands (w :: ws)

/-- The characters of `n` bytes, the first in the low eight bits of `w`. -/
def charsOfWord : Nat → Nat → Text
  | 0, _ => []
  | n + 1, w => Char.ofNat (w % 256) :: charsOfWord n (w / 256)

/-- The line an instruction word stands for: its bytes as characters, up to the first zero byte. -/
def lineOfWord (nbits w : Nat) : Text := (charsOfWord ((nbits + 7) / 8) w).takeWhile (fun c => c != Char.ofNat 0)

/-- The operation the decoder reads from that word. -/
def decodeTableWord (nbits w : Nat) : Option Instr := (decode (lineOfWord nbits w)).toOption

end Sys2Proof
end

