-- ==== Sys2Proof/Machine/State.lean ====
section
/-!
DEFINITION. The state of the machine (spec/10_state.md), its values at reset (R46), and the reasons a step can stop.
-/

namespace Sys2Proof.Machine

/-- Levels of the output pin (R9, R38); only `mark` is carrier-on. -/
inductive Level where
  | zero
  | mark
  | space
  deriving DecidableEq, Repr

/-- An item of the output trace (R40): a drive of the pin, or a wait with its REQUESTED duration. -/
inductive TraceItem where
  | drive (l : Level)
  | wait (n : Int)
  deriving DecidableEq, Repr

/-- The decoder state record `dec` (R20): DEC fields R21 to R26, companion fields R28 to R35. -/
structure Dec where
  protocol : Option Proto
  rxPin : Option Pin
  bitsReceived : Nat
  accumulator : U64
  lastDatagram : U64
  maxBitsReceived : Nat
  markLatch : Nat
  activeCommand : Int
  repeatDeadline : Nat
  hasUnreadDatagram : Bool
  pressHandlers : List (Key × Callback)
  releaseHandlers : List (Key × Callback)
  datagramHandler : Option Callback
  pollRegistered : Bool
  deriving DecidableEq, Repr

/-- One transmitter record `tx` (R36 to R41). `actual` holds what each `Wait` really took (R145, log 8); `serial` is the
model's own, which instance this is. -/
structure Tx where
  ready : Bool
  pin : Pin
  level : Level
  pwmPeriod : Nat
  waitCorrection : Int
  trace : List TraceItem
  actual : List Int
  serial : Nat
  deriving DecidableEq, Repr

/-- A job (R44). `marked` is the mark "for removal" of R208. -/
structure Job where
  id : Bits31
  callback : Callback
  delay : Decimal
  remaining : Decimal
  mode : Mode
  marked : Bool
  deriving DecidableEq, Repr

/-- An iteration suspended at a Yield (R60 (O6), R208): the elapsed time it subtracts, and how many jobs of its order it
has visited. -/
structure Iteration where
  elapsed : Int
  visited : Nat
  deriving DecidableEq, Repr

/-- An Executor (R45) and its loop (R201). `created` says that it exists ("created lazily on first use"), and with it its
background loop; `wake` is the clock reading before which the loop's sleep is not over (R208 step 5, log 29). -/
structure Executor where
  created : Bool
  live : List Job
  pendingAdd : List Job
  pendingCancel : List Bits31
  interval : Nat
  lastIteration : Nat
  iteration : Option Iteration
  wake : Nat
  deriving DecidableEq, Repr

/-- An output an operation gives (R2, R43, R51 (b)). -/
inductive Output where
  /-- A completed pair: its class and its signal (R104). -/
  | pair (c : PairClass) (sig : Signal)
  /-- The code string of `ENC` (R134). -/
  | code (t : Text)
  /-- The id `SCHEDULE` returns (R204). -/
  | jobId (id : Bits31)
  /-- `NOT_SCHEDULED` (R204). -/
  | notScheduled
  /-- The result of `WASRX` (R177). -/
  | received (b : Bool)
  /-- The result of `LASTHEX`: the value and its text (R178). -/
  | lastHex (v : U64) (t : Text)
  /-- The result of `HELD` (R179). -/
  | held (code : Int)
  /-- An iteration of an executor calls a job's callback (R208). -/
  | called (q : Queue) (callback : Callback)
  /-- An executor sleeps for its polling interval (R208 step 5). -/
  | slept (q : Queue) (ms : Nat)
  deriving DecidableEq, Repr

/-- What stands on the one timeline (R60): DESIGN CHOICE, logs 1, 10, 13, 25, 29. -/
inductive Event where
  /-- An operation is issued, as a line of a program (R85). -/
  | op (line : Text)
  /-- The same, at a Yield of an iteration in progress (R60 (O6)): an iteration that reaches a Yield with this next on the
  timeline is suspended there. -/
  | atYield (line : Text)
  /-- The Yield at which an executor's iteration is suspended ends. -/
  | resume (q : Queue)
  /-- An executor's background loop has its turn (R201). -/
  | loop (q : Queue)
  /-- The same, at a Yield of an iteration in progress. -/
  | loopAtYield (q : Queue)
  /-- The application's callback that is called now never returns (U19). -/
  | neverReturns
  /-- The TX operations that follow are invoked on the `k`-th other transmitter instance (R41, R244). -/
  | useTx (k : Nat)
  deriving DecidableEq, Repr

/-- The whole machine. `micros` and `millis` are the last readings of the two clocks (R242); `draws`, `outputs` and
`timeline` are the model's own (logs 6, 9, 1). `stuck` says that a callback which never returns holds the cooperative
context (R240, R247, U19). -/
structure State where
  dec : Dec
  tx : Tx
  txOthers : List Tx
  priority : Executor
  userCallback : Executor
  stuck : Bool
  micros : Nat
  millis : Nat
  draws : Nat
  outputs : List Output
  timeline : List Event
  deriving DecidableEq, Repr

/-- "The block raises no exception, trap or fault, synchronous or otherwise" (R230): there is no fault. -/
inductive Fault : Type
  deriving DecidableEq, Repr

/-- Why a step declines to say what the block does (R14 (c)). -/
inductive Refusal where
  /-- An operation without a meaning in the model. No arm raises it. Safe. -/
  | notModelled (mnemonic : String)
  /-- The line on the timeline is no operation (log 1). Raised by `step`. Safe. -/
  | undecodable (e : DecodeError)
  /-- A pulse event before the first effective `CONNECT` (R101, U3). Raised by `MARKEDGE`, `SPACEEDGE`, `PULSE` and the class
  rows. Safe. -/
  | notConnected
  /-- A class row whose `d` or accumulator condition does not hold, so that the pair selects another row (R71, log 18). Raised
  by the class rows. Safe. -/
  | classNotSelected
  /-- A TX operation before `TXINIT` (R41, U12). Raised by `TXBIT`, `SEND`, `SENDCMD`, `SENDLONG`. Safe. -/
  | transmitterNotReady
  /-- A 10-character code string that is not `0x` and 8 hex digits (R138, U4). Raised by `SEND`. Safe. -/
  | codeNotHex
  /-- A string that is not `0x` and at least one hex digit (R140, U5). Raised by `SENDLONG`. Safe. -/
  | longCodeNotHex
  /-- A Repeat job with a delay below 1 ms (U11, log 16). Raised by `SCHEDULE`. Safe. -/
  | repeatDelayBelowOneMs
  /-- There is no such transmitter instance (log 13). Raised by `step`. Safe. -/
  | noSuchTransmitter
  deriving DecidableEq, Repr

/-- `dec` at creation (R46). -/
def Dec.reset : Dec where
  protocol := none
  rxPin := none
  bitsReceived := 0
  accumulator := 0
  lastDatagram := 0
  maxBitsReceived := 0
  markLatch := 0
  activeCommand := NO_BUTTON
  repeatDeadline := 0
  hasUnreadDatagram := false
  pressHandlers := []
  releaseHandlers := []
  datagramHandler := none
  pollRegistered := false

/-- A transmitter record before its construction (R46). DESIGN CHOICE (log 14): the values of `pin`, `level`, `pwmPeriod` and
`waitCorrection`. -/
def Tx.unconstructed (serial : Nat) : Tx where
  ready := false
  pin := ⟨[]⟩
  level := .zero
  pwmPeriod := 0
  waitCorrection := 0
  trace := []
  actual := []
  serial := serial

/-- An Executor before its first use (R45, R46). DESIGN CHOICE (log 15): `lastIteration` and `wake`, whose value
is the clock at creation. -/
def Executor.reset : Executor where
  created := false
  live := []
  pendingAdd := []
  pendingCancel := []
  interval := POLL_DEFAULT_MS
  lastIteration := 0
  iteration := none
  wake := 0

/-- The machine right after reset, that is creation (R46, R260). -/
def State.reset : State where
  dec := Dec.reset
  tx := Tx.unconstructed 0
  txOthers := []
  priority := Executor.reset
  userCallback := Executor.reset
  stuck := false
  micros := 0
  millis := 0
  draws := 0
  outputs := []
  timeline := []

end Sys2Proof.Machine
end

