-- ==== Sys2Proof/Machine/Flags.lean ====
section
/-!
DEFINITION. The block's one flag, `dec.hasUnreadDatagram` (spec/10_state.md R30, R43): set by `HANDLE` on a datagram, cleared
by `WASRX`, touched by nothing else.
-/

namespace Sys2Proof.Machine

/-- Sets the flag (R171). -/
def Dec.setUnread (d : Dec) : Dec := { d with hasUnreadDatagram := true }

/-- Clears the flag (R177). -/
def Dec.clearUnread (d : Dec) : Dec := { d with hasUnreadDatagram := false }

end Sys2Proof.Machine
end

