-- ==== Sys2Proof/Config.lean ====
section
/-!
DEFINITION. What the spec leaves open and what the environment draws: opaque constants without a body, so that nothing
can be proved about their values (spec/00_scope.md R9, R13; spec/93_implementation_defined.md).
-/

namespace Sys2Proof.Config

/-- DESIGN CHOICE (log 6). How far the millisecond clock has advanced at the `k`-th draw: readings are free but never
decrease (R242). -/
opaque millisStep (k : Nat) : Nat

/-- DESIGN CHOICE (log 6). How far the microsecond clock has advanced at the `k`-th draw (R242, U15). -/
opaque microsStep (k : Nat) : Nat

/-- DESIGN CHOICE (log 7). The job id drawn at the `k`-th draw: `Bits(31)` under no law (R202, U7). -/
opaque jobId (k : Nat) : Bits31

/-- DESIGN CHOICE (log 8). `OVERHEAD` of the `k`-th `Wait` of the transmitter instance `serial`: a draw under no law
(R145, U15). -/
opaque overhead (serial k : Nat) : Int

/-- DESIGN CHOICE (log 4). Which of the two formulas `CMDX` is: `false` the default `(v >> 8) & 0xFF`, `true` the
literal `v >> 8` (R172, U8). -/
opaque cmdxLiteral : Bool

/-- DESIGN CHOICE (log 5). `HEXCASE`: whether rendered hex digits are lower case (R9, U14). -/
opaque hexLower : Bool

/-- DESIGN CHOICE (log 29). Whether the Priority loop, rather than the UserCallback loop, has the turn that the `k`-th draw
decides (R209, U9). -/
opaque priorityTurn (k : Nat) : Bool

/-- DESIGN CHOICE (log 5). `HEXFMT`: what stands before the digits of `LASTHEX`, the same for the value 0 as for every other
(R178, N13, U13). -/
opaque hexLead : Text

/-- DESIGN CHOICE (log 5). `HEXFMT`: how many zero digits beyond one the all-zero text of `LASTHEX` has (R178, U13). -/
opaque hexZeroExtra : Nat

end Sys2Proof.Config
end

