-- ==== Sys2Proof/Machine/Operands.lean ====
section
/-!
DEFINITION. Operand assembly (spec/30_encoding.md section 2; spec/41_transmitter.md R132, R134; spec/42_dispatcher.md R172;
spec/43_scheduler.md R210): the sum of a pair, the payload and code string of a command, decimal delays, the command code.
-/

namespace Sys2Proof.Machine

/-- `d = mark + space`: exact (R79). -/
def pairSum (mark space : Nat) : Nat := mark + space

/-- `addrSection` and `cmdSection` of R134: the plain byte high, its complement low. -/
def section16 (b : U8) : BitVec 16 := (b.zeroExtend 16 <<< 8) ||| (~~~b).zeroExtend 16

/-- The 32-bit payload (R80). -/
def payload (address command : U8) : U32 :=
  ((section16 address).zeroExtend 32 <<< 16) ||| (section16 command).zeroExtend 32

/-- `Hex8` of R134: the `n` low hex digits, the most significant first. -/
def hexDigits : Nat → Nat → Text
  | 0, _ => []
  | n + 1, v => hexDigit (v / 16 ^ n % 16) :: hexDigits n v

/-- The code string of a command, its digits in upper case as the spec's examples write them (R134). -/
def codeString (address command : U8) : Text := '0' :: 'x' :: hexDigits 8 (payload address command).toNat

/-- Digits in the letter case `HEXCASE` (R9). -/
def inCase (lower : Bool) (t : Text) : Text := if lower then t.map Char.toLower else t.map fun c => if c = 'x' then c else c.toUpper

/-- What `ENC` returns (R134); the letter case is open (D18). -/
def encText (address command : U8) : Text := inCase Config.hexLower (codeString address command)

/-- What stands before the digits of `LASTHEX`, the zeros for the value 0 among them (log 5; D29): open, but for one thing. "Leading zero digits" are dropped (R178), so it
does not run into the digits: it does not end in a hex digit. -/
def hexLead : Text := if (Config.hexLead.getLast?.map isHexDigit).getD false then [] else Config.hexLead

/-- The text of `LASTHEX`: hexadecimal, leading zero digits dropped, an all-zero text for 0 (R178); what stands before the
digits, their case and the number of zeros are open (D29).

DESIGN CHOICE (log 5): the string for the value 0 is open (N13: `0`, `0x0`, `00` or another). The model puts before its zeros
what it puts before the digits of every other value, and nothing after them. -/
def lastHexText (v : U64) : Text :=
  hexLead ++
    if v = 0 then List.replicate (Config.hexZeroExtra + 1) '0' else inCase Config.hexLower (Nat.toDigits 16 v.toNat)

/-- The two formulas of `CMDX` (R172): the default masks the command byte, the literal one does not. -/
def cmdxOf (literal : Bool) (v : U64) : U64 := if literal then v >>> 8 else (v >>> 8) &&& 0xFF#64

/-- `CMDX`: which of the two is open (D7). -/
def CMDX (v : U64) : Int := (cmdxOf Config.cmdxLiteral v).toNat

/-- Integer division rounding toward zero, by 64 (R132, R147). -/
def Cal (start stop : Int) : Int := Int.tdiv (stop - start - CAL_RUNS * (CAL_PULSE + CAL_PULSE)) (2 * CAL_RUNS)

/-- A whole number of milliseconds. -/
def Decimal.ofNat (n : Nat) : Decimal := ⟨n, 0⟩

/-- `delayMs < 0`. -/
def Decimal.negative (x : Decimal) : Bool := decide (x.mant < 0)

/-- `delayMs < 1`. -/
def Decimal.belowOne (x : Decimal) : Bool := decide (x.mant < (10 ^ x.scale : Nat))

/-- `floor` of a number that is not negative (R210). -/
def Decimal.floor (x : Decimal) : Nat := x.mant.toNat / 10 ^ x.scale

/-- `remaining − elapsed`, exactly. -/
def Decimal.minus (x : Decimal) (n : Int) : Decimal := ⟨x.mant - n * (10 ^ x.scale : Nat), x.scale⟩

/-- `remaining > 0`. -/
def Decimal.positive (x : Decimal) : Bool := decide (0 < x.mant)

end Sys2Proof.Machine
end

