-- ==== Sys2Proof/Machine/Ops.lean ====
section
/-!
DEFINITION. The operations the meanings share: outputs and clocks, the helpers of DEC (spec/40_decoder.md R104, R111, R112),
the pulse primitive and the frame of TX (spec/41_transmitter.md R133, R135), the job queues (spec/43_scheduler.md R204 to
R209), the dispatcher (spec/42_dispatcher.md R171, R175, R183) and the interrupt step that completes a pair (R170, R234). The
block has no exception and no return from one (spec/60_exceptions.md R230, R235).
-/

namespace Sys2Proof.Machine

/-! ## Outputs and clocks -/

/-- Gives an output (log 9). -/
def State.emit (o : Output) (s : State) : State := { s with outputs := s.outputs ++ [o] }

/-- `ClockMillis()` (R13): a free reading, not below the last one (log 6). -/
def State.readMillis (s : State) : Nat × State :=
  let now := s.millis + Config.millisStep s.draws
  (now, { s with millis := now, draws := s.draws + 1 })

/-- `ClockMicros()` (R13). -/
def State.readMicros (s : State) : Nat × State :=
  let now := s.micros + Config.microsStep s.draws
  (now, { s with micros := now, draws := s.draws + 1 })

/-- A reading of the millisecond clock that the outside supplies as an operand (log 6). -/
def State.observeMillis (now : Nat) (s : State) : State := { s with millis := max s.millis now }

/-! ## DEC -/

/-- `Flush()` (R112). -/
def Dec.flush (d : Dec) : Dec := { d with lastDatagram := d.accumulator, accumulator := 0, bitsReceived := 0 }

/-- `CLRACC` (R113). -/
def Dec.clearAccumulator (d : Dec) : Dec := { d with accumulator := 0, bitsReceived := 0 }

/-- `Append(b)` (R111). -/
def Dec.append (b : Bool) (d : Dec) : Dec × Signal :=
  let d1 := { d with
    accumulator := (d.accumulator <<< 1) ||| (if b then 1#64 else 0#64)
    bitsReceived := d.bitsReceived + 1 }
  if d1.bitsReceived = ACC_WIDTH then (d1.flush, .datagram) else (d1, .incomplete)

/-- The update common to the four non-append classes (R25, R104). -/
def Dec.noteMax (d : Dec) : Dec := { d with maxBitsReceived := max d.maxBitsReceived d.bitsReceived }

/-- What each class does, and its signal (R105 to R110). -/
def Dec.perform (c : PairClass) (d : Dec) : Dec × Signal :=
  match c with
  | .bit0 => d.append false
  | .bit1 => d.append true
  | .frameEnd => (d.noteMax.flush, .datagram)
  | .repeatCode => (d.noteMax, .repeatCode)
  | .header => (d.noteMax, .incomplete)
  | .noise => (d.noteMax, .incomplete)

/-- Whether the edge callbacks are registered, that is, `CONNECT` has taken effect (R101). -/
def State.connected (s : State) : Bool := s.dec.protocol.isSome

/-! ## TX -/

/-- `Drive(level)` (R13). -/
def Tx.drive (l : Level) (t : Tx) : Tx := { t with level := l, trace := t.trace ++ [.drive l] }

/-- `Wait(n)` (R13, R143, R145): the trace records the request, unclamped; the actual time is `max(n, 0)` plus a free
overhead. -/
def Tx.wait (n : Int) (t : Tx) : Tx :=
  { t with
    trace := t.trace ++ [.wait n]
    actual := t.actual ++ [max n 0 + Config.overhead t.serial t.actual.length] }

/-- The pulse primitive (R133). -/
def Tx.pulse (high low : Int) (t : Tx) : Tx := (((t.drive .mark).wait high).drive .space).wait low

/-- `n` pulses (R131). -/
def Tx.pulses (high low : Int) : Nat → Tx → Tx
  | 0, t => t
  | n + 1, t => Tx.pulses high low n (t.pulse high low)

/-- The pair of one data bit (R135 step 2). -/
def Tx.dataBit (b : Bool) (t : Tx) : Tx :=
  if b then t.pulse (BIT_MARK - t.waitCorrection + BIAS) (ONE_SPACE - t.waitCorrection - BIAS)
  else t.pulse (BIT_MARK - t.waitCorrection + BIAS) (ZERO_SPACE - t.waitCorrection - BIAS)

/-- Bits `n − 1` down to 0 of `v`, the most significant first (R135 step 2). -/
def Tx.dataBits : Nat → Nat → Tx → Tx
  | 0, _, t => t
  | n + 1, v, t => Tx.dataBits n v (t.dataBit (v.testBit n))

/-- `Frame(N, v)` (R135). -/
def Tx.frame (n v : Nat) (t : Tx) : Tx :=
  (Tx.dataBits n v (t.pulse (HDR_MARK - t.waitCorrection) (HDR_SPACE - t.waitCorrection))).pulse BIT_MARK 0

/-- Changes the transmitter record alone. -/
def State.onTx (f : Tx → Tx) (s : State) : State := { s with tx := f s.tx }

/-- `SEND` on a constructed transmitter (R138). -/
def State.sendText (code : Text) (s : State) : Host.Outcome State Fault Refusal :=
  if code.length = SEND_LEN then
    match readHexString code with
    | none => .refused .codeNotHex
    | some (_, v) => .next (s.onTx (Tx.frame 32 v))
  else .next s

/-! ## The job queues -/

/-- The executor of a queue. -/
def State.executor (q : Queue) (s : State) : Executor :=
  match q with
  | .priority => s.priority
  | .userCallback => s.userCallback

/-- Replaces the executor of a queue. -/
def State.setExecutor (q : Queue) (e : Executor) (s : State) : State :=
  match q with
  | .priority => { s with priority := e }
  | .userCallback => { s with userCallback := e }

/-- `executor(queue)`, "created on first use" (R200, R204): `lastIteration` is the clock at creation (R45), and its loop is
started, with nothing to sleep for (R201). -/
def State.withExecutor (q : Queue) (s : State) : State :=
  if (s.executor q).created then s
  else
    let r := s.readMillis
    r.2.setExecutor q { Executor.reset with created := true, lastIteration := r.1, wake := r.1 }

/-- A new job (R204): its remaining time is its delay. -/
def Job.new (id : Bits31) (callback : Callback) (mode : Mode) (delay : Decimal) : Job :=
  { id := id, callback := callback, delay := delay, remaining := delay, mode := mode, marked := false }

/-- A submission joins the buffer of pending additions, and a Repeat delay tightens the polling interval (R204, R210). -/
def Executor.submit (j : Job) (e : Executor) : Executor :=
  { e with
    pendingAdd := e.pendingAdd ++ [j]
    interval := if j.mode = .recurring then min e.interval (Decimal.floor j.delay) else e.interval }

/-- `Enqueue(queue, callback, mode, delayMs)`: the accepted part of `SCHEDULE` (R204). Gives the id drawn. -/
def State.enqueue (q : Queue) (callback : Callback) (mode : Mode) (delay : Decimal) (s : State) : Bits31 × State :=
  let id := Config.jobId s.draws
  let s1 := State.withExecutor q { s with draws := s.draws + 1 }
  (id, s1.setExecutor q ((s1.executor q).submit (Job.new id callback mode delay)))

/-- Enqueues a user callback: UserCallback queue, Once, delay 0 (R171). -/
def State.enqueueUser (callback : Callback) (s : State) : State :=
  (s.enqueue .userCallback callback .once (Decimal.ofNat 0)).2

/-- The same, when there is one. -/
def State.enqueueUser? (callback : Option Callback) (s : State) : State :=
  match callback with
  | none => s
  | some c => s.enqueueUser c

/-! ## The dispatcher -/

/-- Whether a handler key matches a code: "exact match or wildcard" (R183). -/
def Key.accepts (k : Key) (code : Int) : Bool :=
  match k with
  | .code n => decide (n = code)
  | .wildcard => true

/-- `Match(list, code)` (R183): the first entry that matches. -/
def matchHandler (handlers : List (Key × Callback)) (code : Int) : Option Callback :=
  (handlers.find? fun h => Key.accepts h.1 code).map Prod.snd

/-- The change of button of a datagram (R171): release of the old one, press of the new one. -/
def State.switchButton (newCommand : Int) (s : State) : State :=
  if newCommand = s.dec.activeCommand then s
  else
    let s1 := if s.dec.activeCommand = NO_BUTTON then s
      else s.enqueueUser? (matchHandler s.dec.releaseHandlers s.dec.activeCommand)
    let s2 := s1.enqueueUser? (matchHandler s1.dec.pressHandlers newCommand)
    { s2 with dec := { s2.dec with activeCommand := newCommand } }

/-- `HANDLE sig, now` (R171); nothing runs for `INCOMPLETE` (R170). -/
def State.handle (sig : Signal) (now : Nat) (s : State) : State :=
  match sig with
  | .incomplete => s
  | .repeatCode => { s with dec := { s.dec with repeatDeadline := now + REPEAT_TIMEOUT_MS } }
  | .datagram =>
    let s1 := { s with dec := { s.dec with repeatDeadline := now + REPEAT_TIMEOUT_MS }.setUnread }
    let s2 := s1.enqueueUser? s1.dec.datagramHandler
    s2.switchButton (CMDX s2.dec.lastDatagram)

/-- `POLL now` (R175). -/
def State.poll (now : Nat) (s : State) : State :=
  if s.dec.activeCommand ≠ NO_BUTTON ∧ s.dec.repeatDeadline < now then
    let s1 := s.enqueueUser? (matchHandler s.dec.releaseHandlers s.dec.activeCommand)
    { s1 with dec := { s1.dec.clearAccumulator with activeCommand := NO_BUTTON } }
  else s

/-- The interrupt step of a completed pair of class `c` (R104, R170, R234): the class acts, the pair's class and signal are
given, and for a signal other than `INCOMPLETE` the dispatcher runs at once, with the millisecond clock it reads. -/
def State.completePair (c : PairClass) (s : State) : State :=
  let r := s.dec.perform c
  let s1 := State.emit (.pair c r.2) { s with dec := r.1 }
  if r.2 = .incomplete then s1
  else
    let m := s1.readMillis
    m.2.handle r.2 m.1

/-- `Decode(d)` (R104). -/
def State.decodePair (d : Nat) (s : State) : State := s.completePair (classify d s.dec.bitsReceived)

/-- A class row as an operation (R71, log 18): it acts when its condition selects it. -/
def State.classRow (c : PairClass) (mark space : Nat) (s : State) : Host.Outcome State Fault Refusal :=
  if !s.connected then .refused .notConnected
  else if PairClass.inRange c (pairSum mark space) && PairClass.accOk c s.dec.bitsReceived then .next (s.completePair c)
  else .refused .classNotSelected

/-! ## An iteration of an executor -/

/-- `Order(E)` (R209): the Priority queue newest first, the UserCallback queue oldest first. It is its own inverse. -/
def order (q : Queue) (jobs : List Job) : List Job :=
  match q with
  | .priority => jobs.reverse
  | .userCallback => jobs

/-- Merge of pending additions, then application of cancellations (R205, R207). -/
def Executor.settle (e : Executor) : Executor :=
  { e with
    live := (e.live ++ e.pendingAdd).filter fun j => !e.pendingCancel.contains j.id
    pendingAdd := []
    pendingCancel := [] }

/-- `remaining <- remaining − elapsed` (R208). -/
def Job.tick (elapsed : Int) (j : Job) : Job := { j with remaining := Decimal.minus j.remaining elapsed }

/-- After its call a Once job is marked for removal, a Repeat job gets its delay again (R208). -/
def Job.afterCall (j : Job) : Job :=
  match j.mode with
  | .once => { j with marked := true }
  | .recurring => { j with remaining := j.delay }

/-- Calls a job's callback (R208). The poll runs here, with the clock it reads (R174); what an application's callback does
stands on the timeline (log 12). -/
def State.callJob (q : Queue) (j : Job) (s : State) : State :=
  let s1 := s.emit (.called q j.callback)
  match j.callback with
  | .user _ => s1
  | .poll =>
    let m := s1.readMillis
    m.2.poll m.1

/-- Whether something runs at the Yield reached now (log 10). -/
def State.yieldTaken (s : State) : Bool :=
  match s.timeline with
  | .atYield _ :: _ => true
  | .loopAtYield _ :: _ => true
  | _ => false

/-- Whether the application's callback that is called now never returns (U19, log 25). The poll always returns (R175). -/
def State.hangs (callback : Callback) (s : State) : Bool :=
  match callback, s.timeline with
  | .user _, .neverReturns :: _ => true
  | _, _ => false

/-- The end of an iteration (R208): the marked jobs leave, and the executor sleeps for its interval (R201, R210). -/
def State.finishIteration (q : Queue) (visited : List Job) (s : State) : State :=
  let e := s.executor q
  State.emit (.slept q e.interval)
    (s.setExecutor q { e with
      live := order q (visited.filter fun j => !j.marked)
      iteration := none
      wake := s.millis + e.interval })

/-- An iteration stops at a Yield (R60 (O6)): what it has visited and what it has not. -/
def State.suspendIteration (q : Queue) (elapsed : Int) (visited todo : List Job) (s : State) : State :=
  s.setExecutor q { s.executor q with
    live := order q (visited ++ todo)
    iteration := some { elapsed := elapsed, visited := visited.length } }

/-- A callback that never returns stops the iteration in the middle of its call, and with it the cooperative context: "only one
logical task runs at a time" (R247, U19). -/
def State.blockIteration (q : Queue) (elapsed : Int) (visited todo : List Job) (s : State) : State :=
  { s.suspendIteration q elapsed visited todo with stuck := true }

/-- Step 4 of an iteration, from the jobs not yet visited on (R208). -/
def State.runJobs (q : Queue) (elapsed : Int) (visited : List Job) : List Job → State → State
  | [], s => s.finishIteration q visited
  | j :: todo, s =>
    if Decimal.positive (j.tick elapsed).remaining then State.runJobs q elapsed (visited ++ [j.tick elapsed]) todo s
    else if s.hangs j.callback then
      (s.callJob q (j.tick elapsed)).blockIteration q elapsed visited (j.tick elapsed :: todo)
    else if (s.callJob q (j.tick elapsed)).yieldTaken then
      (s.callJob q (j.tick elapsed)).suspendIteration q elapsed (visited ++ [(j.tick elapsed).afterCall]) todo
    else State.runJobs q elapsed (visited ++ [(j.tick elapsed).afterCall]) todo (s.callJob q (j.tick elapsed))

/-- An executor that this iteration is the first use of is created by it ("created lazily on first use", R200): it exists, and
its loop has started (R201), from the iteration's own reading on (R45, log 15). -/
def Executor.orNew (now : Nat) (e : Executor) : Executor :=
  if e.created then e else { Executor.reset with created := true, lastIteration := now, wake := now }

/-- One iteration, from its start (R208). -/
def State.iterate (q : Queue) (nowMs : Nat) (s : State) : State :=
  let s1 := s.observeMillis nowMs
  let e := (s1.executor q).orNew nowMs
  let e1 := { e with lastIteration := nowMs }.settle
  (s1.setExecutor q e1).runJobs q (nowMs - e.lastIteration : Int) [] (order q e1.live)

/-- A suspended iteration goes on (R208); with none suspended nothing happens (log 10). -/
def State.resumeIteration (q : Queue) (s : State) : State :=
  match (s.executor q).iteration with
  | none => s
  | some it => s.runJobs q it.elapsed ((order q (s.executor q).live).take it.visited)
      ((order q (s.executor q).live).drop it.visited)

/-- A suspended iteration ends, with nothing at its Yields to come: an executor's loop runs one iteration after the other (R201),
so one that is to start finds the one before it ended, and what the timeline still holds is after that end (log 10). With none
suspended nothing happens. -/
def State.endIteration (q : Queue) (s : State) : State :=
  { State.resumeIteration q { s with timeline := [] } with timeline := s.timeline }

/-! ## The background loops -/

/-- The clock at the end of the sleep of a loop (R208 step 5): a reading of its own, not before the sleep is over. -/
def State.readAwake (q : Queue) (s : State) : Nat × State :=
  let r := s.readMillis
  (max r.1 (s.executor q).wake, r.2)

/-- A turn of an executor's loop (R201): it goes on with its iteration where it is suspended, and otherwise, its sleep over,
runs its next one. An executor that does not exist has no loop. -/
def State.loopTurn (q : Queue) (s : State) : State :=
  if (s.executor q).created then
    match (s.executor q).iteration with
    | some _ => s.resumeIteration q
    | none =>
      let r := s.readAwake q
      r.2.iterate q r.1
  else s

/-- The loop whose turn it is when the outside does nothing: either may have it (R209, U9, log 29), if it exists. -/
def State.nextLoop (s : State) : Queue :=
  if s.priority.created then
    if s.userCallback.created then (if Config.priorityTurn s.draws then .priority else .userCallback) else .priority
  else .userCallback

/-- What runs in the background when the outside does nothing: a loop "forever" (R13, R201), and nothing when there is no loop
or the cooperative context is stuck (U19). -/
def State.background (s : State) : State :=
  if s.stuck then s
  else if s.priority.created || s.userCallback.created then
    State.loopTurn s.nextLoop { s with draws := s.draws + 1 }
  else s

end Sys2Proof.Machine
end

