-- ==== Sys2Proof/Machine/Decoder.lean ====
section
/-!
DEFINITION. The meanings of the decoder's operations (spec/40_decoder.md). A pulse event before the first effective `CONNECT`
is refused (R101).
-/

namespace Sys2Proof.Machine

/-- `CONNECT protocol, pin` (R101): ignored once a protocol is set; otherwise it fixes the protocol and the pin, registers the
edge callbacks (`State.connected`), and enqueues the poll job once (R174). -/
def execConnect (protocol : Proto) (pin : Pin) (s : State) : Host.Outcome State Fault Refusal :=
  if s.dec.protocol.isSome then .next s
  else
    let s1 := { s with dec := { s.dec with protocol := some protocol, rxPin := some pin } }
    if s1.dec.pollRegistered then .next s1
    else
      let s2 := (s1.enqueue .priority .poll .recurring (Decimal.ofNat REPEAT_TIMEOUT_MS)).2
      .next { s2 with dec := { s2.dec with pollRegistered := true } }

/-- `MARKEDGE m` (R102). -/
def execMarkedge (m : Nat) (s : State) : Host.Outcome State Fault Refusal :=
  if s.connected then .next { s with dec := { s.dec with markLatch := m } } else .refused .notConnected

/-- `SPACEEDGE space` (R103). -/
def execSpaceedge (space : Nat) (s : State) : Host.Outcome State Fault Refusal :=
  if s.connected then .next (s.decodePair (pairSum s.dec.markLatch space)) else .refused .notConnected

/-- `PULSE mark, space` (R104): `MARKEDGE mark` then `SPACEEDGE space`. -/
def execPulse (mark space : Nat) (s : State) : Host.Outcome State Fault Refusal :=
  if s.connected then
    .next (State.decodePair (pairSum mark space) { s with dec := { s.dec with markLatch := mark } })
  else .refused .notConnected

/-- Class `BIT0` (R105). -/
def execBit0 (mark space : Nat) (s : State) : Host.Outcome State Fault Refusal := s.classRow .bit0 mark space

/-- Class `BIT1` (R106). -/
def execBit1 (mark space : Nat) (s : State) : Host.Outcome State Fault Refusal := s.classRow .bit1 mark space

/-- Class `FRAME_END` (R107). -/
def execFrameEnd (mark space : Nat) (s : State) : Host.Outcome State Fault Refusal := s.classRow .frameEnd mark space

/-- Class `REPEAT` (R108). -/
def execRepeatCode (mark space : Nat) (s : State) : Host.Outcome State Fault Refusal := s.classRow .repeatCode mark space

/-- Class `HEADER` (R109). -/
def execHeader (mark space : Nat) (s : State) : Host.Outcome State Fault Refusal := s.classRow .header mark space

/-- Class `NOISE` (R110). -/
def execNoise (mark space : Nat) (s : State) : Host.Outcome State Fault Refusal := s.classRow .noise mark space

/-- `CLRACC` (R113). -/
def execClracc (s : State) : Host.Outcome State Fault Refusal := .next { s with dec := s.dec.clearAccumulator }

end Sys2Proof.Machine
end

