-- ==== Sys2Proof/Machine/Dispatcher.lean ====
section
/-!
DEFINITION. The meanings of the EventDispatcher's operations (spec/42_dispatcher.md). The Yield that opens a query (R176) lets
other operations run before the query reads: those stand before the query on the timeline (log 11).
-/

namespace Sys2Proof.Machine

/-- `HANDLE sig, now` (R171). -/
def execHandle (sig : Signal) (now : Nat) (s : State) : Host.Outcome State Fault Refusal :=
  match sig with
  | .incomplete => .next s
  | .datagram => .next ((s.observeMillis now).handle .datagram now)
  | .repeatCode => .next ((s.observeMillis now).handle .repeatCode now)

/-- `POLL now` (R175). -/
def execPoll (now : Nat) (s : State) : Host.Outcome State Fault Refusal := .next ((s.observeMillis now).poll now)

/-- `WASRX` (R177). -/
def execWasrx (s : State) : Host.Outcome State Fault Refusal :=
  .next (State.emit (.received s.dec.hasUnreadDatagram) { s with dec := s.dec.clearUnread })

/-- `LASTHEX` (R178). -/
def execLasthex (s : State) : Host.Outcome State Fault Refusal :=
  .next (s.emit (.lastHex s.dec.lastDatagram (lastHexText s.dec.lastDatagram)))

/-- `HELD` (R179). -/
def execHeld (s : State) : Host.Outcome State Fault Refusal := .next (s.emit (.held s.dec.activeCommand))

/-- `ONPRESS key, callback` (R180). -/
def execOnpress (key : Key) (callback : Callback) (s : State) : Host.Outcome State Fault Refusal :=
  .next { s with dec := { s.dec with pressHandlers := s.dec.pressHandlers ++ [(key, callback)] } }

/-- `ONRELEASE key, callback` (R181). -/
def execOnrelease (key : Key) (callback : Callback) (s : State) : Host.Outcome State Fault Refusal :=
  .next { s with dec := { s.dec with releaseHandlers := s.dec.releaseHandlers ++ [(key, callback)] } }

/-- `ONDATAGRAM callback` (R182). -/
def execOndatagram (callback : Callback) (s : State) : Host.Outcome State Fault Refusal :=
  .next { s with dec := { s.dec with datagramHandler := some callback } }

end Sys2Proof.Machine
end

