-- ==== Sys2Proof/Machine/Scheduler.lean ====
section
/-!
DEFINITION. The meanings of the Scheduler's operations (spec/43_scheduler.md).
-/

namespace Sys2Proof.Machine

/-- `SCHEDULE queue, callback, mode, delayMs` (R204): dropped for a null callback or a negative delay, refused for a Repeat job
with a delay below 1 ms (U11, log 16). -/
def execSchedule (queue : Queue) (callback : Option Callback) (mode : Mode) (delayMs : Decimal) (s : State) :
    Host.Outcome State Fault Refusal :=
  match callback with
  | none => .next (s.emit .notScheduled)
  | some c =>
    if Decimal.negative delayMs then .next (s.emit .notScheduled)
    else if mode = .recurring ∧ Decimal.belowOne delayMs then .refused .repeatDelayBelowOneMs
    else
      let r := s.enqueue queue c mode delayMs
      .next (r.2.emit (.jobId r.1))

/-- `CANCEL queue, id` (R206): buffered. -/
def execCancel (queue : Queue) (id : Bits31) (s : State) : Host.Outcome State Fault Refusal :=
  let s1 := s.withExecutor queue
  let e := s1.executor queue
  .next (s1.setExecutor queue { e with pendingCancel := e.pendingCancel ++ [id] })

/-- `ITERATE executor, nowMs` (R208). An executor's loop runs one iteration after the other (R201): one that is suspended at a
Yield ends first (log 10). -/
def execIterate (queue : Queue) (nowMs : Nat) (s : State) : Host.Outcome State Fault Refusal :=
  .next ((s.endIteration queue).iterate queue nowMs)

end Sys2Proof.Machine
end

