-- ==== Sys2Proof/Machine/Transmitter.lean ====
section
/-!
DEFINITION. The meanings of the transmitter's operations (spec/41_transmitter.md). Each is one atomic step (R144). An operation
of a transmitter that is not constructed is refused (spec/10_state.md R41).
-/

namespace Sys2Proof.Machine

/-- The calibration pulses, from the construction up to the second clock reading (R131). -/
def Tx.calibrating (serial : Nat) (pin : Pin) : Tx :=
  Tx.pulses CAL_PULSE CAL_PULSE CAL_RUNS
    { (Tx.unconstructed serial).drive .zero with pin := pin, pwmPeriod := PWM_PERIOD }

/-- What follows the second reading (R131): the correction, the settling pause, ready. -/
def Tx.calibrated (correction : Int) (t : Tx) : Tx :=
  { Tx.wait SETTLE { t with waitCorrection := correction } with ready := true }

/-- The constructed instances other than the one `TXINIT` makes: a second `TXINIT` creates a second, independent record
(R41). -/
def State.olderTransmitters (s : State) : List Tx := if s.tx.ready then s.txOthers ++ [s.tx] else s.txOthers

/-- `TXINIT pin` (R131). -/
def execTxinit (pin : Pin) (s : State) : Host.Outcome State Fault Refusal :=
  let start := s.readMicros
  let stop := start.2.readMicros
  .next { stop.2 with
    txOthers := s.olderTransmitters
    tx := Tx.calibrated (Cal start.1 stop.1) (Tx.calibrating s.olderTransmitters.length pin) }

/-- `TXBIT highMicros, lowMicros` (R133). -/
def execTxbit (highMicros lowMicros : Int) (s : State) : Host.Outcome State Fault Refusal :=
  if s.tx.ready then .next (s.onTx (Tx.pulse highMicros lowMicros)) else .refused .transmitterNotReady

/-- `ENC address, command` (R134): a pure function, its string the output. -/
def execEnc (address command : U8) (s : State) : Host.Outcome State Fault Refusal :=
  .next (s.emit (.code (encText address command)))

/-- `SEND code` (R138). -/
def execSend (code : Text) (s : State) : Host.Outcome State Fault Refusal :=
  if s.tx.ready then s.sendText code else .refused .transmitterNotReady

/-- `SENDCMD address, command` (R139): `SEND (ENC (address, command))`. `SEND` reads both letter cases (R79), so the open case
of `ENC`'s digits does not show here (R134): the upper case form stands for it. -/
def execSendcmd (address command : U8) (s : State) : Host.Outcome State Fault Refusal :=
  if s.tx.ready then s.sendText (codeString address command) else .refused .transmitterNotReady

/-- `SENDLONG hex` (R140). -/
def execSendlong (hex : Text) (s : State) : Host.Outcome State Fault Refusal :=
  if s.tx.ready then
    match readHexString hex with
    | none => .refused .longCodeNotHex
    | some (k, v) => .next (s.onTx (Tx.frame (4 * k) v))
  else .refused .transmitterNotReady

end Sys2Proof.Machine
end

