-- ==== Sys2Proof/Machine/Dispatch.lean ====
section
/-!
DEFINITION. One arm per operation.
-/

namespace Sys2Proof.Machine

def exec (i : Instr) (s : State) : Host.Outcome State Fault Refusal :=
  match i with
  | .connect protocol pin => Sys2Proof.Machine.execConnect protocol pin s
  | .markedge m => Sys2Proof.Machine.execMarkedge m s
  | .spaceedge space => Sys2Proof.Machine.execSpaceedge space s
  | .pulse mark space => Sys2Proof.Machine.execPulse mark space s
  | .bit0 mark space => Sys2Proof.Machine.execBit0 mark space s
  | .bit1 mark space => Sys2Proof.Machine.execBit1 mark space s
  | .frameEnd mark space => Sys2Proof.Machine.execFrameEnd mark space s
  | .repeatCode mark space => Sys2Proof.Machine.execRepeatCode mark space s
  | .header mark space => Sys2Proof.Machine.execHeader mark space s
  | .noise mark space => Sys2Proof.Machine.execNoise mark space s
  | .clracc => Sys2Proof.Machine.execClracc s
  | .txinit pin => Sys2Proof.Machine.execTxinit pin s
  | .txbit highMicros lowMicros => Sys2Proof.Machine.execTxbit highMicros lowMicros s
  | .enc address command => Sys2Proof.Machine.execEnc address command s
  | .send code => Sys2Proof.Machine.execSend code s
  | .sendcmd address command => Sys2Proof.Machine.execSendcmd address command s
  | .sendlong hex => Sys2Proof.Machine.execSendlong hex s
  | .handle sig now => Sys2Proof.Machine.execHandle sig now s
  | .poll now => Sys2Proof.Machine.execPoll now s
  | .wasrx => Sys2Proof.Machine.execWasrx s
  | .lasthex => Sys2Proof.Machine.execLasthex s
  | .held => Sys2Proof.Machine.execHeld s
  | .onpress key callback => Sys2Proof.Machine.execOnpress key callback s
  | .onrelease key callback => Sys2Proof.Machine.execOnrelease key callback s
  | .ondatagram callback => Sys2Proof.Machine.execOndatagram callback s
  | .schedule queue callback mode delayMs => Sys2Proof.Machine.execSchedule queue callback mode delayMs s
  | .cancel queue id => Sys2Proof.Machine.execCancel queue id s
  | .iterate queue nowMs => Sys2Proof.Machine.execIterate queue nowMs s

end Sys2Proof.Machine
end

