-- ==== Sys2Proof/Machine/Timeline.lean ====
section
/-!
DEFINITION. The one timeline (spec/20_memory.md R60): how the next event is taken, and how an operation is placed there.
-/

namespace Sys2Proof.Machine

/-- The operations of the interrupt context: the edge callbacks, that is DEC, and `HANDLE` (R240). -/
def Opcode.inInterrupt : Opcode → Bool
  | .markedge | .spaceedge | .pulse | .bit0 | .bit1 | .frameEnd | .repeatCode | .header | .noise | .handle => true
  | .connect | .clracc | .txinit | .txbit | .enc | .send | .sendcmd | .sendlong | .poll | .wasrx | .lasthex | .held => false
  | .onpress | .onrelease | .ondatagram | .schedule | .cancel | .iterate => false

/-- What runs in the cooperative context (R240): it does not advance while a callback that never returns holds it (U19), so that
what stands on the timeline for it never happens. -/
def State.cooperative (f : State → Host.Outcome State Fault Refusal) (s : State) : Host.Outcome State Fault Refusal :=
  if s.stuck then .next s else f s

/-- An operation line runs: decoded, then performed (R85) in its context (R240). -/
def State.runLine (line : Text) (s : State) : Host.Outcome State Fault Refusal :=
  match decode line with
  | .ok i => if Opcode.inInterrupt i.opcode then exec i s else s.cooperative (exec i)
  | .error e => .refused (.undecodable e)

/-- The TX operations that follow address the `k`-th other instance: it and the one addressed now change places
(log 13). -/
def State.useTx (k : Nat) (s : State) : Host.Outcome State Fault Refusal :=
  match s.txOthers[k]? with
  | some t => .next { s with tx := t, txOthers := s.txOthers.set k s.tx }
  | none => .refused .noSuchTransmitter

/-- One event of the timeline, already taken off it. `neverReturns` says something of the call made before it and does nothing
itself. -/
def State.runEvent (e : Event) (s : State) : Host.Outcome State Fault Refusal :=
  match e with
  | .op line => s.runLine line
  | .atYield line => s.runLine line
  | .resume q => s.cooperative fun s => .next (s.resumeIteration q)
  | .loop q => s.cooperative fun s => .next (s.loopTurn q)
  | .loopAtYield q => s.cooperative fun s => .next (s.loopTurn q)
  | .neverReturns => .next s
  | .useTx k => s.cooperative (State.useTx k)

/-- An operation line stands next on the timeline. -/
def State.issue (line : Text) (s : State) : State := { s with timeline := .op line :: s.timeline }

end Sys2Proof.Machine
end

