-- ==== Sys2Proof/Machine/Step.lean ====
section
/-!
DEFINITION. One step: the next event of the timeline (spec/20_memory.md R60). When the outside does nothing the background loops
run (spec/43_scheduler.md R201); with no loop the machine waits (log 2).
-/

namespace Sys2Proof.Machine

/-- One step. -/
def step (s : State) : Host.Outcome State Fault Refusal :=
  match s.timeline with
  | [] => .next s.background
  | e :: rest => State.runEvent e { s with timeline := rest }

/-- The operation of that word stands where `step` takes its next one. -/
def State.withFetchWord (s : State) (nbits w : Nat) : State := s.issue (lineOfWord nbits w)

end Sys2Proof.Machine
end

