-- ==== Sys2Proof/Safety.lean ====
section
/-!
DEFINITION. The terms the claims use: the invariants of the machine (spec/10_state.md R27 and the values that writes leave in
the other registers), the classification table and the trace of a frame as the spec tabulates them, and runs of several
operations.
-/

namespace Sys2Proof.Machine

/-! ## Invariants -/

/-- (I1) to (I3) of R27. -/
def Dec.Bounded (d : Dec) : Prop :=
  d.bitsReceived ≤ 63 ∧ d.accumulator.toNat < 2 ^ d.bitsReceived ∧ d.maxBitsReceived ≤ 63

/-- What `CONNECT` sets, it sets together (R101), and the command held is a code or `NO_BUTTON` (R28, R172). -/
def Dec.Consistent (d : Dec) : Prop :=
  d.protocol.isSome = d.rxPin.isSome ∧ d.protocol.isSome = d.pollRegistered ∧ -1 ≤ d.activeCommand

/-- Whether a trace item is a wait. -/
def TraceItem.isWait : TraceItem → Bool
  | .wait _ => true
  | .drive _ => false

/-- A constructed transmitter is off between operations and keeps its PWM period (R39, R142); every wait has its actual
duration (R145). -/
def Tx.Sound (t : Tx) : Prop :=
  (t.ready = true → t.level = .space ∧ t.pwmPeriod = 26) ∧ t.actual.length = t.trace.countP TraceItem.isWait

/-- A job was accepted (R204): its delay is not negative, and at least 1 ms for a Repeat job (U11); `remaining` counts in the
delay's own decimals. -/
def Job.Accepted (j : Job) : Prop :=
  0 ≤ j.delay.mant ∧ j.remaining.scale = j.delay.scale ∧
  (j.mode = .recurring → ((10 ^ j.delay.scale : Nat) : Int) ≤ j.delay.mant)

/-- An executor: not created, as at reset; the polling interval at least 1 ms (R210, U11) and at most 100 ms (R210); every job
accepted; a mark for removal only on a job that an iteration in progress has visited (R208). -/
def Executor.Sound (q : Queue) (e : Executor) : Prop :=
  (e.created = false → e = Executor.reset) ∧ (1 ≤ e.interval ∧ e.interval ≤ 100) ∧
  (∀ j ∈ e.live, j.Accepted) ∧ (∀ j ∈ e.pendingAdd, j.Accepted ∧ j.marked = false ∧ j.remaining = j.delay) ∧
  match e.iteration with
  | none => ∀ j ∈ e.live, j.marked = false
  | some it => it.visited ≤ e.live.length ∧ ∀ j ∈ (order q e.live).drop it.visited, j.marked = false

/-- The invariant of the machine. -/
def State.Sound (s : State) : Prop :=
  s.dec.Bounded ∧ s.dec.Consistent ∧ s.tx.Sound ∧ (∀ t ∈ s.txOthers, t.ready = true ∧ t.Sound) ∧
  (s.tx.ready = false → s.txOthers = []) ∧ s.priority.Sound .priority ∧ s.userCallback.Sound .userCallback

/-! ## The spec's tables -/

/-- The rows of the classification table, as R71 writes them. -/
def RowSelects (c : PairClass) (d bits : Nat) : Prop :=
  match c with
  | .bit0 => d < 1600
  | .bit1 => 1600 ≤ d ∧ d < 2700
  | .frameEnd => 2700 ≤ d ∧ bits ≠ 0
  | .repeatCode => 2700 ≤ d ∧ d < 12500 ∧ bits = 0
  | .header => 12500 ≤ d ∧ d < 14500 ∧ bits = 0
  | .noise => 14500 ≤ d ∧ bits = 0

/-- The signal column of R71; `bits` is the count before the pair. -/
def rowSignal (c : PairClass) (bits : Nat) : Signal :=
  match c with
  | .bit0 => if bits = 63 then .datagram else .incomplete
  | .bit1 => if bits = 63 then .datagram else .incomplete
  | .frameEnd => .datagram
  | .repeatCode => .repeatCode
  | .header => .incomplete
  | .noise => .incomplete

/-- The four trace items of a pulse (R133). -/
def pulseTrace (high low : Int) : List TraceItem := [.drive .mark, .wait high, .drive .space, .wait low]

/-- The data pulses of R73, bit `n − 1` of `v` first, in the closed form it gives. -/
def dataTrace (wc : Int) : Nat → Nat → List TraceItem
  | 0, _ => []
  | n + 1, v => pulseTrace (610 - wc) (if v.testBit n then 1640 - wc else 510 - wc) ++ dataTrace wc n v

/-- The trace of a frame of `n` data bits (R73). -/
def frameTrace (wc : Int) (n v : Nat) : List TraceItem :=
  pulseTrace (9000 - wc) (4500 - wc) ++ dataTrace wc n v ++ pulseTrace 560 0

/-- The pulses of a trace, as pairs of requested durations. -/
def pulsesOf : List TraceItem → List (Int × Int)
  | .drive .mark :: .wait h :: .drive .space :: .wait l :: rest => (h, l) :: pulsesOf rest
  | _ => []

/-- The number of requested microseconds of a trace. -/
def requestedTotal : List TraceItem → Int
  | [] => 0
  | .drive _ :: rest => requestedTotal rest
  | .wait n :: rest => n + requestedTotal rest

/-- The payload of a command (R55, R80): its four bytes, the most significant first. -/
def payloadValue (address command : U8) : Nat :=
  ((address.toNat * 256 + (255 - address.toNat)) * 256 + command.toNat) * 256 + (255 - command.toNat)

/-- The jobs an iteration runs over: the live and the pending ones without those cancelled (R205, R207). -/
def Executor.settledJobs (e : Executor) : List Job :=
  (e.live ++ e.pendingAdd).filter fun j => !e.pendingCancel.contains j.id

/-- A job is due at an iteration (R208). -/
def Job.dueAfter (elapsed : Int) (j : Job) : Bool := !Decimal.positive (Decimal.minus j.remaining elapsed)

/-- What an iteration leaves of a job: a Once job that was due leaves, a Repeat job that was due starts over, the others have
less time remaining (R208). -/
def Job.afterIteration (elapsed : Int) (j : Job) : Option Job :=
  if j.dueAfter elapsed then
    match j.mode with
    | .once => none
    | .recurring => some { j with remaining := j.delay }
  else some { j with remaining := Decimal.minus j.remaining elapsed }

/-- What a change of button enqueues: the release of the old button, if one was active, then the press of the new one
(R171). -/
def switchCallbacks (d : Dec) (newCommand : Int) : List Callback :=
  if newCommand = d.activeCommand then []
  else (if d.activeCommand = NO_BUTTON then [] else (matchHandler d.releaseHandlers d.activeCommand).toList) ++
    (matchHandler d.pressHandlers newCommand).toList

/-- What a signal enqueues (R171): for a datagram its handler, then the change of button. -/
def handleCallbacks (sig : Signal) (d : Dec) : List Callback :=
  match sig with
  | .datagram => d.datagramHandler.toList ++ switchCallbacks d (CMDX d.lastDatagram)
  | .repeatCode => []
  | .incomplete => []

/-! ## Runs -/

/-- Operations performed one after the other. -/
def performAll : List Instr → State → Host.Outcome State Fault Refusal
  | [], s => .next s
  | i :: is, s =>
    match exec i s with
    | .next t => performAll is t
    | .fault f => .fault f
    | .refused r => .refused r

/-- The class row of a pair as an operation. -/
def rowInstr (c : PairClass) (mark space : Nat) : Instr :=
  match c with
  | .bit0 => .bit0 mark space
  | .bit1 => .bit1 mark space
  | .frameEnd => .frameEnd mark space
  | .repeatCode => .repeatCode mark space
  | .header => .header mark space
  | .noise => .noise mark space

/-- A pair as an operation. -/
def pairInstr (p : Nat × Nat) : Instr := .pulse p.1 p.2

/-- The bit a pair of an append class stands for (R71). -/
def pairBit (p : Nat × Nat) : Bool := decide (1600 ≤ p.1 + p.2)

/-- The append class of a bit. -/
def bitClass (b : Bool) : PairClass := if b then .bit1 else .bit0

/-- The value of bits, the first the most significant (R114 (L1)). -/
def bitsValue (bs : List Bool) : Nat := bs.foldl (fun v b => 2 * v + b.toNat) 0

/-- The pair a receiver sees when a pulse is sent on a nominal run: each actual duration is the requested one plus the
correction (R145). -/
def nominalPair (wc : Int) (p : Int × Int) : Nat × Nat := ((p.1 + wc).toNat, (p.2 + wc).toNat)

end Sys2Proof.Machine
end

