-- ==== Sys2Proof/Certificates/Slice0/Obligations.lean ====
section
/-!
DEFINITION. The statements for the provers, from the numbered rules of spec/. Each states its instruction's result and frame
as one equation where it can: a state that equals the old one but for the fields named.
-/

open Sys2Proof Sys2Proof.Machine

/-! ## Reset and start-up -/

/-- R46, R260: the values the spec's table gives for creation. (The values of `tx.pin`, `tx.level`, `tx.pwmPeriod` and
`tx.waitCorrection` before `TXINIT` and of `lastIteration` and `wake` before creation are the model's, logs 14 and 15, and are not
stated.) -/
def Obligations.ResetHoldsTheTabulatedValues : Prop :=
  State.reset.dec.protocol = none ∧ State.reset.dec.rxPin = none ∧ State.reset.dec.bitsReceived = 0 ∧
  State.reset.dec.accumulator = 0 ∧ State.reset.dec.lastDatagram = 0 ∧ State.reset.dec.maxBitsReceived = 0 ∧
  State.reset.dec.markLatch = 0 ∧ State.reset.dec.activeCommand = -1 ∧ State.reset.dec.repeatDeadline = 0 ∧
  State.reset.dec.hasUnreadDatagram = false ∧ State.reset.dec.pressHandlers = [] ∧ State.reset.dec.releaseHandlers = [] ∧
  State.reset.dec.datagramHandler = none ∧ State.reset.dec.pollRegistered = false ∧
  State.reset.tx.ready = false ∧ State.reset.tx.trace = [] ∧ State.reset.txOthers = [] ∧
  ∀ q, (State.reset.executor q).created = false ∧ (State.reset.executor q).live = [] ∧
    (State.reset.executor q).pendingAdd = [] ∧ (State.reset.executor q).pendingCancel = [] ∧
    (State.reset.executor q).interval = 100

/-- R101: `CONNECT` fixes protocol and pin once, admits edges, and puts one Repeat job of 220 ms into the Priority executor's
pending additions, creating that executor on first use (R200); a later `CONNECT` changes nothing. That a new executor's
`lastIteration` is a clock reading that `CONNECT` draws itself is the model's choice (log 15), and its `wake` too (logs 15,
29). -/
def Obligations.ConnectTakesEffectOnce : Prop :=
  ∀ (protocol : Proto) (pin : Pin) (s : State),
    (s.dec.protocol.isSome = true → exec (.connect protocol pin) s = .next s) ∧
    (s.dec.protocol = none → s.dec.pollRegistered = true →
      exec (.connect protocol pin) s = .next { s with dec := { s.dec with protocol := some protocol, rxPin := some pin } }) ∧
    (s.dec.protocol = none → s.dec.pollRegistered = false →
      ∃ t id, exec (.connect protocol pin) s = .next t ∧
        t = { s with
          dec := { s.dec with protocol := some protocol, rxPin := some pin, pollRegistered := true }
          priority := t.priority, millis := t.millis, draws := t.draws } ∧
        (s.priority.created = true → t.millis = s.millis ∧
          t.priority = { s.priority with
            pendingAdd := s.priority.pendingAdd ++ [⟨id, .poll, ⟨220, 0⟩, ⟨220, 0⟩, .recurring, false⟩]
            interval := min s.priority.interval 220 }) ∧
        (s.priority.created = false → s.millis ≤ t.millis ∧
          t.priority = ⟨true, [], [⟨id, .poll, ⟨220, 0⟩, ⟨220, 0⟩, .recurring, false⟩], [], 100, t.millis, none, t.millis⟩) ∧
        ∀ m, ∃ u, exec (.markedge m) t = .next u)

/-- R101 (U3): before the first effective `CONNECT` every pulse event is refused. -/
def Obligations.PulseEventsBeforeConnectAreRefused : Prop :=
  ∀ (s : State) (m x : Nat), s.dec.protocol = none →
    exec (.markedge m) s = .refused .notConnected ∧ exec (.spaceedge x) s = .refused .notConnected ∧
    exec (.pulse m x) s = .refused .notConnected ∧ ∀ c, exec (rowInstr c m x) s = .refused .notConnected

/-! ## The decoder -/

/-- R102: `MARKEDGE` latches the mark and does nothing else. -/
def Obligations.MarkedgeLatchesTheMark : Prop :=
  ∀ (m : Nat) (s : State), s.connected = true →
    exec (.markedge m) s = .next { s with dec := { s.dec with markLatch := m } }

/-- R103: `SPACEEDGE` performs the class that the latched mark plus the space selects, as the class row does. -/
def Obligations.SpaceedgeClassifiesLatchPlusSpace : Prop :=
  ∀ (x : Nat) (s : State) (c : PairClass), s.connected = true →
    RowSelects c (s.dec.markLatch + x) s.dec.bitsReceived →
    ∃ t, exec (.spaceedge x) s = .next t ∧ exec (rowInstr c s.dec.markLatch x) s = .next t ∧
      t.outputs = s.outputs ++ [.pair c (rowSignal c s.dec.bitsReceived)] ∧ t.dec.markLatch = s.dec.markLatch

/-- R104, R86: `PULSE mark, space` is `MARKEDGE mark` then `SPACEEDGE space`. -/
def Obligations.PulseIsMarkedgeThenSpaceedge : Prop :=
  ∀ (m x : Nat) (s : State), s.connected = true →
    ∃ t, exec (.pulse m x) s = .next t ∧ performAll [.markedge m, .spaceedge x] s = .next t

/-- R71: exactly one row's condition holds of every pair, and the pair gives that row's class and signal and does what the row
does. -/
def Obligations.PairSelectsExactlyOneRow : Prop :=
  ∀ (m x : Nat) (s : State), s.connected = true →
    ∃ c, RowSelects c (m + x) s.dec.bitsReceived ∧ (∀ c', RowSelects c' (m + x) s.dec.bitsReceived → c' = c) ∧
      ∃ t, exec (.pulse m x) s = .next t ∧ t.outputs = s.outputs ++ [.pair c (rowSignal c s.dec.bitsReceived)] ∧
        exec (rowInstr c m x) { s with dec := { s.dec with markLatch := m } } = .next t

/-- R111, R112: a bit is shifted in at the least significant end and counted; the 64th is flushed with the others into
`lastDatagram`, and the dispatcher handles the datagram at once (R170). -/
def Obligations.AppendShiftsInABit : Prop :=
  ∀ (m x : Nat) (b : Bool) (s : State), s.connected = true → RowSelects (bitClass b) (m + x) s.dec.bitsReceived →
    (s.dec.bitsReceived + 1 ≠ 64 →
      exec (rowInstr (bitClass b) m x) s = .next { s with
        dec := { s.dec with
          accumulator := (s.dec.accumulator <<< 1) ||| (if b then 1#64 else 0#64)
          bitsReceived := s.dec.bitsReceived + 1 }
        outputs := s.outputs ++ [.pair (bitClass b) .incomplete] }) ∧
    (s.dec.bitsReceived + 1 = 64 →
      ∃ t now, s.millis ≤ now ∧ exec (rowInstr (bitClass b) m x) s = .next t ∧
        exec (.handle .datagram now) { s with
          dec := { s.dec with
            lastDatagram := (s.dec.accumulator <<< 1) ||| (if b then 1#64 else 0#64)
            accumulator := 0
            bitsReceived := 0 }
          outputs := s.outputs ++ [.pair (bitClass b) .datagram]
          millis := now
          draws := s.draws + 1 } = .next t)

/-- R107: a long pair with bits held flushes them into `lastDatagram` after the high-water mark has noted their count, and the
dispatcher handles the datagram at once (R170). -/
def Obligations.FrameEndFlushes : Prop :=
  ∀ (m x : Nat) (s : State), s.connected = true → 2700 ≤ m + x → 0 < s.dec.bitsReceived →
    ∃ t now, s.millis ≤ now ∧ exec (.frameEnd m x) s = .next t ∧
      exec (.handle .datagram now) { s with
        dec := { s.dec with
          maxBitsReceived := max s.dec.maxBitsReceived s.dec.bitsReceived
          lastDatagram := s.dec.accumulator
          accumulator := 0
          bitsReceived := 0 }
        outputs := s.outputs ++ [.pair .frameEnd .datagram]
        millis := now
        draws := s.draws + 1 } = .next t

/-- R108, R173: a repeat code changes no register of DEC; the dispatcher refreshes the deadline and does nothing else. -/
def Obligations.RepeatCodeOnlyRefreshesTheDeadline : Prop :=
  ∀ (m x : Nat) (s : State), s.connected = true → 2700 ≤ m + x → m + x < 12500 → s.dec.bitsReceived = 0 →
    ∃ now, s.millis ≤ now ∧ exec (.repeatCode m x) s = .next { s with
      dec := { s.dec with repeatDeadline := now + 220 }
      outputs := s.outputs ++ [.pair .repeatCode .repeatCode]
      millis := now
      draws := s.draws + 1 }

/-- R109, R110: a header and noise signal `INCOMPLETE` and change no register. -/
def Obligations.HeaderAndNoiseChangeNoRegister : Prop :=
  ∀ (m x : Nat) (s : State), s.connected = true → s.dec.bitsReceived = 0 →
    (12500 ≤ m + x → m + x < 14500 →
      exec (.header m x) s = .next { s with outputs := s.outputs ++ [.pair .header .incomplete] }) ∧
    (14500 ≤ m + x →
      exec (.noise m x) s = .next { s with outputs := s.outputs ++ [.pair .noise .incomplete] })

/-- The model's choice (log 18), resting on R71: a class row whose condition does not hold is refused. -/
def Obligations.ClassRowNotSelectedIsRefused : Prop :=
  ∀ (c : PairClass) (m x : Nat) (s : State), s.connected = true → ¬ RowSelects c (m + x) s.dec.bitsReceived →
    exec (rowInstr c m x) s = .refused .classNotSelected

/-- R113: `CLRACC` clears the accumulator and the count, and nothing else. -/
def Obligations.ClraccClearsAccumulatorAndCount : Prop :=
  ∀ s : State, exec .clracc s = .next { s with dec := { s.dec with accumulator := 0, bitsReceived := 0 } }

/-- R114 (L1): bits accumulate, the first the most significant, through any pairs of the append classes. -/
def Obligations.BitsAccumulateFirstMostSignificant : Prop :=
  ∀ (ps : List (Nat × Nat)) (s : State), s.connected = true → s.dec.bitsReceived = 0 → s.dec.accumulator = 0 →
    ps.length ≤ 63 → (∀ p ∈ ps, p.1 + p.2 < 2700) →
    ∃ t, performAll (ps.map pairInstr) s = .next t ∧
      t.dec.bitsReceived = ps.length ∧ t.dec.accumulator = BitVec.ofNat 64 (bitsValue (ps.map pairBit)) ∧
      t.outputs = s.outputs ++ ps.map (fun p => .pair (bitClass (pairBit p)) .incomplete) ∧
      t = { s with
        dec := { s.dec with
          bitsReceived := t.dec.bitsReceived, accumulator := t.dec.accumulator, markLatch := t.dec.markLatch }
        outputs := t.outputs }

/-- R114 (L2): 64 pairs of the append classes from an empty accumulator give exactly one `DATAGRAM`, at the 64th, and
`lastDatagram` is the 64 bits. -/
def Obligations.SixtyFourBitsGiveOneDatagram : Prop :=
  ∀ (ps : List (Nat × Nat)) (s : State), s.connected = true → s.dec.bitsReceived = 0 → s.dec.accumulator = 0 →
    ps.length = 64 → (∀ p ∈ ps, p.1 + p.2 < 2700) →
    ∃ t, performAll (ps.map pairInstr) s = .next t ∧
      t.dec.lastDatagram = BitVec.ofNat 64 (bitsValue (ps.map pairBit)) ∧ t.dec.bitsReceived = 0 ∧ t.dec.accumulator = 0 ∧
      t.dec.maxBitsReceived = s.dec.maxBitsReceived ∧ t.dec.hasUnreadDatagram = true ∧
      t.outputs = s.outputs ++ (ps.take 63).map (fun p => .pair (bitClass (pairBit p)) .incomplete) ++
        (ps.drop 63).map (fun p => .pair (bitClass (pairBit p)) .datagram) ∧
      t.tx = s.tx ∧ t.priority = s.priority

/-- R114 (L3): two long pairs in a row never both give `DATAGRAM`. -/
def Obligations.TwoLongPairsNeverBothDatagram : Prop :=
  ∀ (a b c d : Nat) (s : State), s.connected = true → 2700 ≤ a + b → 2700 ≤ c + d →
    ∃ t x y g h, performAll [.pulse a b, .pulse c d] s = .next t ∧
      t.outputs = s.outputs ++ [.pair x g, .pair y h] ∧ ¬ (g = .datagram ∧ h = .datagram) ∧ t.dec.bitsReceived = 0

/-! ## The transmitter -/

/-- R131, R41: `TXINIT` constructs a record: its pin, the PWM period 26, the calibration pulses between two readings of a clock
that does not go back, the correction (R132), the settling pause, ready; a record constructed earlier is kept as it is. -/
def Obligations.TxinitConstructsAndCalibrates : Prop :=
  ∀ (pin : Pin) (s : State), ∃ t : State, ∃ start stop : Nat, s.micros ≤ start ∧ start ≤ stop ∧
    exec (.txinit pin) s = .next t ∧
    t.tx.ready = true ∧ t.tx.pin = pin ∧ t.tx.pwmPeriod = 26 ∧ t.tx.level = .space ∧
    t.tx.waitCorrection = Int.tdiv (stop - start - 64) 64 ∧
    t.tx.trace = [.drive .zero] ++ (List.replicate 32 (pulseTrace 1 1)).flatten ++ [.wait 2000] ∧
    t.txOthers = (if s.tx.ready then s.txOthers ++ [s.tx] else s.txOthers) ∧
    t = { s with tx := t.tx, txOthers := t.txOthers, micros := stop, draws := t.draws }

/-- R132, R147: the calibration quotient rounds toward zero. -/
def Obligations.CalibrationRoundsTowardZero : Prop :=
  ∀ start stop : Int,
    (64 ≤ stop - start → Cal start stop = (stop - start - 64) / 64) ∧
    (stop - start < 64 → Cal start stop = -((64 - (stop - start)) / 64))

/-- R133, R143, R145: `TXBIT` appends exactly its four items, requests unclamped, and leaves the pin off; each actual duration is
the request, or 0 for a negative one, plus an overhead. -/
def Obligations.TxbitAppendsFourItems : Prop :=
  ∀ (high low : Int) (s : State), s.tx.ready = true →
    ∃ ov1 ov2 : Int, exec (.txbit high low) s = .next { s with
      tx := { s.tx with
        level := .space
        trace := s.tx.trace ++ [.drive .mark, .wait high, .drive .space, .wait low]
        actual := s.tx.actual ++ [max high 0 + ov1, max low 0 + ov2] } }

/-- R134, R80: `ENC` gives a 10-character string that reads as the payload, and touches no state. -/
def Obligations.EncGivesTheCodeString : Prop :=
  ∀ (a c : U8) (s : State), ∃ txt : Text, exec (.enc a c) s = .next { s with outputs := s.outputs ++ [.code txt] } ∧
    txt.length = 10 ∧ readHexString txt = some (8, payloadValue a c)

/-- R134: the value of the string that `ENC` gives has exactly 16 one bits among its 32. -/
def Obligations.PayloadHasSixteenOneBits : Prop :=
  ∀ (a c : U8) (s : State), ∃ (txt : Text) (v : Nat),
    exec (.enc a c) s = .next { s with outputs := s.outputs ++ [.code txt] } ∧ readHexString txt = some (8, v) ∧
    v < 2 ^ 32 ∧ (List.range 32).countP (fun k => v.testBit k) = 16

/-- R138: `SEND` sends a string of `0x` and 8 hex digits as one frame of 32 bits; does nothing for any other length; and is
refused for any other string of 10 characters. -/
def Obligations.SendSendsIgnoresOrRefuses : Prop :=
  ∀ (code : Text) (s : State), s.tx.ready = true →
    (code.length ≠ 10 → exec (.send code) s = .next s) ∧
    (∀ h : Text, code = '0' :: 'x' :: h → h.length = 8 → (∀ c ∈ h, isHexDigit c = true) →
      ∃ ds : List Int, ds.length = 68 ∧ exec (.send code) s = .next { s with
        tx := { s.tx with
          level := .space
          trace := s.tx.trace ++ frameTrace s.tx.waitCorrection 32 (hexValue h)
          actual := s.tx.actual ++ ds } }) ∧
    (code.length = 10 → (∀ h : Text, code = '0' :: 'x' :: h → ¬ ∀ c ∈ h, isHexDigit c = true) →
      exec (.send code) s = .refused .codeNotHex)

/-- R140: `SENDLONG` sends `0x` and `k` hex digits, `k` at least 1, as one frame of `4k` bits; any other string is refused. -/
def Obligations.SendlongSendsAnyLength : Prop :=
  ∀ (hex : Text) (s : State), s.tx.ready = true →
    (∀ h : Text, hex = '0' :: 'x' :: h → h ≠ [] → (∀ c ∈ h, isHexDigit c = true) →
      ∃ ds : List Int, ds.length = 2 * (4 * (hex.length - 2) + 2) ∧ exec (.sendlong hex) s = .next { s with
        tx := { s.tx with
          level := .space
          trace := s.tx.trace ++ frameTrace s.tx.waitCorrection (4 * (hex.length - 2)) (hexValue h)
          actual := s.tx.actual ++ ds } }) ∧
    ((∀ h : Text, hex = '0' :: 'x' :: h → ¬ (h ≠ [] ∧ ∀ c ∈ h, isHexDigit c = true)) →
      exec (.sendlong hex) s = .refused .longCodeNotHex)

/-- R139: `SENDCMD` always transmits, the frame of the payload, and it is `SEND` of the string that `ENC` gives. -/
def Obligations.SendcmdIsSendOfEnc : Prop :=
  ∀ (a c : U8) (s : State), s.tx.ready = true →
    (∃ ds : List Int, ds.length = 68 ∧ exec (.sendcmd a c) s = .next { s with
      tx := { s.tx with
        level := .space
        trace := s.tx.trace ++ frameTrace s.tx.waitCorrection 32 (payloadValue a c)
        actual := s.tx.actual ++ ds } }) ∧
    ∀ txt : Text, exec (.enc a c) s = .next { s with outputs := s.outputs ++ [.code txt] } →
      exec (.sendcmd a c) s = exec (.send txt) s

/-- R41 (U12): the operations of a transmitter that is not constructed are refused. -/
def Obligations.TransmitterNotReadyIsRefused : Prop :=
  ∀ (s : State) (h l : Int) (code : Text) (a c : U8), s.tx.ready = false →
    exec (.txbit h l) s = .refused .transmitterNotReady ∧ exec (.send code) s = .refused .transmitterNotReady ∧
    exec (.sendcmd a c) s = .refused .transmitterNotReady ∧ exec (.sendlong code) s = .refused .transmitterNotReady

/-- R141: the requested durations of the items that `SENDCMD` appends add up to 67980 − 66 wc. -/
def Obligations.CommandFrameRequestedTotal : Prop :=
  ∀ (a c : U8) (s : State), s.tx.ready = true →
    ∃ (t : State) (items : List TraceItem), exec (.sendcmd a c) s = .next t ∧ t.tx.trace = s.tx.trace ++ items ∧
      requestedTotal items = 67980 - 66 * s.tx.waitCorrection

/-- R36, R40: once constructed, a transmitter's correction and pin never change, and its trace only grows. -/
def Obligations.CorrectionIsFixedAndTraceOnlyGrows : Prop :=
  ∀ (i : Instr) (s t : State), s.Sound → i.opcode ≠ .txinit → exec i s = .next t →
    t.tx.waitCorrection = s.tx.waitCorrection ∧ t.tx.pin = s.tx.pin ∧ t.tx.ready = s.tx.ready ∧
    t.tx.pwmPeriod = s.tx.pwmPeriod ∧ s.tx.trace <+: t.tx.trace ∧ t.txOthers = s.txOthers

/-- R47: an operation of TX leaves the state of DEC and the companions as it is, and every other operation that of TX. -/
def Obligations.EachSideLeavesTheOthersStateUnchanged : Prop :=
  ∀ (i : Instr) (s t : State), s.Sound → exec i s = .next t →
    (i.opcode ∈ [.txinit, .txbit, .enc, .send, .sendcmd, .sendlong] →
      t.dec = s.dec ∧ t.priority = s.priority ∧ t.userCallback = s.userCallback ∧ t.stuck = s.stuck ∧
        t.millis = s.millis) ∧
    (i.opcode ∉ [.txinit, .txbit, .enc, .send, .sendcmd, .sendlong] →
      t.tx = s.tx ∧ t.txOthers = s.txOthers ∧ t.micros = s.micros)

/-- R146: the round trip. What a receiver with an empty accumulator makes of a nominal run of `SENDCMD`, its terminator pair
closed by a silence `g`. -/
def Obligations.CommandRoundTrip : Prop :=
  ∀ (a c : U8) (wc g : Nat) (s r : State) (items : List TraceItem), s.tx.ready = true → s.tx.waitCorrection = wc → wc ≤ 510 →
    r.connected = true → r.dec.bitsReceived = 0 → r.dec.accumulator = 0 → 2700 ≤ 560 + wc + g →
    (∃ t, exec (.sendcmd a c) s = .next t ∧ t.tx.trace = s.tx.trace ++ items) →
    ∃ u, performAll (((pulsesOf items).dropLast.map fun p => pairInstr (nominalPair wc p)) ++ [.pulse (560 + wc) g]) r = .next u ∧
      u.dec.lastDatagram = BitVec.ofNat 64 (payloadValue a c) ∧
      u.dec.lastDatagram.extractLsb' 24 8 = a ∧ u.dec.lastDatagram.extractLsb' 16 8 = ~~~a ∧
      u.dec.lastDatagram.extractLsb' 8 8 = c ∧ u.dec.lastDatagram.extractLsb' 0 8 = ~~~c ∧
      u.dec.bitsReceived = 0 ∧ u.dec.accumulator = 0 ∧ 32 ≤ u.dec.maxBitsReceived ∧
      u.outputs = r.outputs ++ [.pair .header .incomplete] ++
        (List.range 32).map (fun k => .pair (bitClass ((payloadValue a c).testBit (31 - k))) .incomplete) ++
        [.pair .frameEnd .datagram]

/-! ## The dispatcher -/

/-- R170: for `INCOMPLETE` nothing runs. As an operation of its own this is the model's choice (log 26): the operand is one of the
other two signals (R171). -/
def Obligations.HandleIncompleteDoesNothing : Prop :=
  ∀ (now : Nat) (s : State), exec (.handle .incomplete now) s = .next s

/-- R171: what `HANDLE` does for each signal: the deadline, the flag, the command held, and the callbacks enqueued, in
that order, each Once with delay 0 on the UserCallback queue. -/
def Obligations.HandleTurnsSignalsIntoEvents : Prop :=
  ∀ (now : Nat) (s : State), (s.userCallback.created = false → s.userCallback = Executor.reset) →
    exec (.handle .repeatCode now) s =
      .next { s with dec := { s.dec with repeatDeadline := now + 220 }, millis := max s.millis now } ∧
    ∃ t js, exec (.handle .datagram now) s = .next t ∧
      t = { s with
        dec := { s.dec with
          repeatDeadline := now + 220, hasUnreadDatagram := true, activeCommand := CMDX s.dec.lastDatagram }
        userCallback := t.userCallback, millis := t.millis, draws := t.draws } ∧
      max s.millis now ≤ t.millis ∧ t.userCallback.pendingAdd = s.userCallback.pendingAdd ++ js ∧
      js.map Job.callback = handleCallbacks .datagram s.dec ∧
      (∀ j ∈ js, j.mode = .once ∧ j.delay = ⟨0, 0⟩ ∧ j.remaining = ⟨0, 0⟩ ∧ j.marked = false) ∧
      t.userCallback.live = s.userCallback.live ∧ t.userCallback.pendingCancel = s.userCallback.pendingCancel ∧
      t.userCallback.interval = s.userCallback.interval ∧ t.userCallback.iteration = s.userCallback.iteration ∧
      (s.userCallback.created = true →
        t.userCallback.created = true ∧ t.userCallback.lastIteration = s.userCallback.lastIteration ∧
          t.userCallback.wake = s.userCallback.wake)

/-- R172: `CMDX` is one of the two formulas, the same one for every datagram, and never the "no button" value. -/
def Obligations.CommandCodeIsOneOfTwoFormulas : Prop :=
  ((∀ v : U64, CMDX v = (v.toNat / 256 % 256 : Nat)) ∨ (∀ v : U64, CMDX v = (v.toNat / 256 : Nat))) ∧
  ∀ v : U64, 0 ≤ CMDX v ∧ CMDX v ≠ -1

/-- R183: the first handler whose key is the code or the wildcard is the match; without one there is none. -/
def Obligations.FirstMatchingHandlerWins : Prop :=
  ∀ (code : Int),
    (∀ (before after : List (Key × Callback)) (key : Key) (callback : Callback),
      (∀ e ∈ before, e.1 ≠ .code code ∧ e.1 ≠ .wildcard) → (key = .code code ∨ key = .wildcard) →
      matchHandler (before ++ (key, callback) :: after) code = some callback) ∧
    ∀ handlers : List (Key × Callback), (∀ e ∈ handlers, e.1 ≠ .code code ∧ e.1 ≠ .wildcard) →
      matchHandler handlers code = none

/-- R175: `POLL` releases the held button once the deadline has passed, strictly, and clears the accumulator; otherwise it does
nothing. -/
def Obligations.PollReleasesAfterTheDeadline : Prop :=
  ∀ (now : Nat) (s : State), (s.userCallback.created = false → s.userCallback = Executor.reset) →
    (¬ (s.dec.activeCommand ≠ -1 ∧ s.dec.repeatDeadline < now) →
      exec (.poll now) s = .next { s with millis := max s.millis now }) ∧
    (s.dec.activeCommand ≠ -1 → s.dec.repeatDeadline < now →
      ∃ t js, exec (.poll now) s = .next t ∧
        t = { s with
          dec := { s.dec with accumulator := 0, bitsReceived := 0, activeCommand := -1 }
          userCallback := t.userCallback, millis := t.millis, draws := t.draws } ∧
        max s.millis now ≤ t.millis ∧ t.userCallback.pendingAdd = s.userCallback.pendingAdd ++ js ∧
        js.map Job.callback = (matchHandler s.dec.releaseHandlers s.dec.activeCommand).toList ∧
        (∀ j ∈ js, j.mode = .once ∧ j.delay = ⟨0, 0⟩ ∧ j.remaining = ⟨0, 0⟩ ∧ j.marked = false) ∧
        t.userCallback.live = s.userCallback.live ∧ t.userCallback.pendingCancel = s.userCallback.pendingCancel ∧
        t.userCallback.interval = s.userCallback.interval ∧ t.userCallback.iteration = s.userCallback.iteration ∧
        (s.userCallback.created = true →
          t.userCallback.created = true ∧ t.userCallback.lastIteration = s.userCallback.lastIteration ∧
          t.userCallback.wake = s.userCallback.wake))

/-- R177: `WASRX`, after its Yield (log 11), returns the flag and clears it. -/
def Obligations.WasrxReturnsAndClearsTheFlag : Prop :=
  ∀ s : State, exec .wasrx s = .next { s with
    dec := { s.dec with hasUnreadDatagram := false }, outputs := s.outputs ++ [.received s.dec.hasUnreadDatagram] }

/-- R178: `LASTHEX`, after its Yield (log 11), changes no register; its text is, after the same characters every time, which do not
end in a hex digit, hex digits of the whole 64-bit value, without leading zeros, zeros for the value 0. That the same characters
stand before the zeros as before the digits of every other value, and nothing after them, is the model's choice (log 5). -/
def Obligations.LasthexRendersTheDatagram : Prop :=
  ∃ lead : Text, (∀ c, lead.getLast? = some c → isHexDigit c = false) ∧
    ∀ s : State, ∃ digits : Text,
      exec .lasthex s = .next { s with outputs := s.outputs ++ [.lastHex s.dec.lastDatagram (lead ++ digits)] } ∧
      digits ≠ [] ∧ (∀ c ∈ digits, isHexDigit c = true) ∧ hexValue digits = s.dec.lastDatagram.toNat ∧
      (s.dec.lastDatagram ≠ 0 → digits.head? ≠ some '0')

/-- R179: `HELD`, after its Yield (log 11), returns the command held and changes no register. -/
def Obligations.HeldReturnsTheCommand : Prop :=
  ∀ s : State, exec .held s = .next { s with outputs := s.outputs ++ [.held s.dec.activeCommand] }

/-- R180, R181, R182: a registration is appended to its list; the one datagram handler is replaced. -/
def Obligations.RegistrationsKeepInsertionOrder : Prop :=
  ∀ (key : Key) (callback : Callback) (s : State),
    exec (.onpress key callback) s =
      .next { s with dec := { s.dec with pressHandlers := s.dec.pressHandlers ++ [(key, callback)] } } ∧
    exec (.onrelease key callback) s =
      .next { s with dec := { s.dec with releaseHandlers := s.dec.releaseHandlers ++ [(key, callback)] } } ∧
    exec (.ondatagram callback) s = .next { s with dec := { s.dec with datagramHandler := some callback } }

/-- R184: a button pressed by a datagram, kept by any datagrams of the same command and repeat codes, and released by the first
poll after the deadline: one press, one release, in that order. -/
def Obligations.PressThenReleaseOnce : Prop :=
  ∀ (press release : Callback) (n0 n : Nat) (rest : List (Signal × Nat)) (s : State),
    (s.userCallback.created = false → s.userCallback = Executor.reset) →
    s.dec.activeCommand = -1 → s.dec.datagramHandler = none →
    matchHandler s.dec.pressHandlers (CMDX s.dec.lastDatagram) = some press →
    matchHandler s.dec.releaseHandlers (CMDX s.dec.lastDatagram) = some release →
    (∀ e ∈ rest, e.1 ≠ .incomplete) → (((Signal.datagram, n0) :: rest).getLast (by simp)).2 + 220 < n →
    ∃ t js, performAll (.handle .datagram n0 :: (rest.map fun e => .handle e.1 e.2) ++ [.poll n]) s = .next t ∧
      t.userCallback.pendingAdd = s.userCallback.pendingAdd ++ js ∧ js.map Job.callback = [press, release] ∧
      t.dec.activeCommand = -1

/-! ## The scheduler -/

/-- R204, R210: `SCHEDULE` drops a null callback and a negative delay; otherwise the job joins the queue's pending additions with
`remaining = delay`, in an executor that its first use creates, and a Repeat delay tightens the polling interval. A Repeat job with
a delay that is not negative and below 1 ms is refused (R14, U11; log 16). What a new executor holds is that of log 15. -/
def Obligations.ScheduleAcceptsOrDrops : Prop :=
  ∀ (q : Queue) (mode : Mode) (delay : Decimal) (callback : Callback) (s : State),
    exec (.schedule q none mode delay) s = .next { s with outputs := s.outputs ++ [.notScheduled] } ∧
    (delay.mant < 0 →
      exec (.schedule q (some callback) mode delay) s = .next { s with outputs := s.outputs ++ [.notScheduled] }) ∧
    (0 ≤ delay.mant → mode = .recurring → delay.mant < (10 ^ delay.scale : Nat) →
      exec (.schedule q (some callback) mode delay) s = .refused .repeatDelayBelowOneMs) ∧
    (0 ≤ delay.mant → (mode = .recurring → (10 ^ delay.scale : Nat) ≤ delay.mant) →
      ∃ t id e, exec (.schedule q (some callback) mode delay) s = .next t ∧
        ((s.executor q).created = true → e = s.executor q ∧ t.millis = s.millis) ∧
        ((s.executor q).created = false → e = ⟨true, [], [], [], 100, t.millis, none, t.millis⟩ ∧ s.millis ≤ t.millis) ∧
        t = State.setExecutor q
          { e with
            pendingAdd := e.pendingAdd ++ [⟨id, callback, delay, delay, mode, false⟩]
            interval := if mode = .recurring then min e.interval (delay.mant.toNat / 10 ^ delay.scale) else e.interval }
          { s with outputs := s.outputs ++ [.jobId id], millis := t.millis, draws := t.draws })

/-- R206: `CANCEL` buffers the id and does nothing else, but for creating the executor on its first use (R200). That a `CANCEL` is
such a first use, and that the new executor's `lastIteration` and `wake` are a clock reading it draws itself, is the model's
choice (log 15; `wake`: log 29). -/
def Obligations.CancelIsBuffered : Prop :=
  ∀ (q : Queue) (id : Bits31) (s : State),
    ∃ t e, exec (.cancel q id) s = .next t ∧
      ((s.executor q).created = true → e = s.executor q ∧ t.millis = s.millis ∧ t.draws = s.draws) ∧
      ((s.executor q).created = false → e = ⟨true, [], [], [], 100, t.millis, none, t.millis⟩ ∧ s.millis ≤ t.millis) ∧
      t = State.setExecutor q { e with pendingCancel := e.pendingCancel ++ [id] }
        { s with millis := t.millis, draws := t.draws }

/-- R208, R205, R207, R209: one iteration with nothing at its Yields (log 10), whose callbacks all return (log 25): pending jobs
are merged, cancelled ones leave, every due job is called once in the queue's order, a Once job leaves, a Repeat job starts over,
the executor sleeps, until its interval after the last clock reading (`wake`, log 29); when no due job is the poll, nothing else
changes, since the call of an application's callback is an output and its body stands on the timeline (log 12). When one due job
is the poll (R174) and the other due ones are the application's, all ends as `POLL` leaves it at a clock reading of its own. That
an `ITERATE` of an executor that does not exist creates it, nothing having elapsed, is the model's choice (log 15). -/
def Obligations.IterationRunsEveryDueJobOnce : Prop :=
  ∀ (q : Queue) (now : Nat) (s : State), s.Sound → (s.executor q).iteration = none → s.yieldTaken = false →
    (∀ c, s.hangs c = false) →
    ∃ (t : State) (elapsed : Int),
      elapsed = (if (s.executor q).created then (now : Int) - (s.executor q).lastIteration else 0) ∧
      exec (.iterate q now) s = .next t ∧
      (t.executor q).created = true ∧ (t.executor q).iteration = none ∧ (t.executor q).lastIteration = now ∧
      (t.executor q).wake = t.millis + (s.executor q).interval ∧ t.stuck = s.stuck ∧
      (t.executor q).pendingCancel = [] ∧ (t.executor q).interval = (s.executor q).interval ∧
      (t.executor q).live = (s.executor q).settledJobs.filterMap (Job.afterIteration elapsed) ∧
      t.outputs = s.outputs ++
        (((order q (s.executor q).settledJobs).filter (Job.dueAfter elapsed)).map fun j => .called q j.callback) ++
        [.slept q (s.executor q).interval] ∧
      t.tx = s.tx ∧ t.txOthers = s.txOthers ∧ t.micros = s.micros ∧ t.timeline = s.timeline ∧
      ((∀ j ∈ (s.executor q).settledJobs, j.dueAfter elapsed = true → j.callback ≠ .poll) →
        t = State.setExecutor q
          ⟨true, (t.executor q).live, [], [], (s.executor q).interval, now, none, max s.millis now + (s.executor q).interval⟩
          { s with outputs := t.outputs, millis := max s.millis now }) ∧
      ∀ (before after : List Job) (j : Job), order q (s.executor q).settledJobs = before ++ j :: after →
        j.callback = .poll → j.dueAfter elapsed = true →
        (∀ k ∈ before ++ after, k.dueAfter elapsed = true → k.callback ≠ .poll) →
        ∃ (reading : Nat) (u : State), max s.millis now ≤ reading ∧
          exec (.poll reading) (State.setExecutor q
            ⟨true, (s.executor q).settledJobs, [], [], (s.executor q).interval, now, none,
              if (s.executor q).created then (s.executor q).wake else now⟩ { s with draws := s.draws + 1 }) = .next u ∧
          t = State.setExecutor q
            { u.executor q with live := (t.executor q).live, wake := u.millis + (s.executor q).interval }
            { u with outputs := t.outputs }

/-- R209 (the source's own test): two jobs with the same delay submitted one after the other run newest first on the Priority
queue and oldest first on the UserCallback queue, with nothing at the Yields (log 10) and callbacks that return (log 25). -/
def Obligations.QueueOrderOfTwoJobs : Prop :=
  ∀ (q : Queue) (a b : Text) (delay : Decimal) (now : Nat) (s : State),
    s.Sound → s.yieldTaken = false → (∀ c, s.hangs c = false) → (s.executor q).created = true → (s.executor q).live = [] →
    (s.executor q).pendingAdd = [] → (s.executor q).pendingCancel = [] → (s.executor q).iteration = none →
    0 ≤ delay.mant → delay.mant ≤ ((now : Int) - (s.executor q).lastIteration) * (10 ^ delay.scale : Nat) →
    ∃ t id1 id2, performAll [.schedule q (some (.user a)) .once delay, .schedule q (some (.user b)) .once delay, .iterate q now] s
        = .next t ∧
      t.outputs = s.outputs ++ [.jobId id1, .jobId id2] ++
        (match q with
          | .priority => [.called q (.user b), .called q (.user a)]
          | .userCallback => [.called q (.user a), .called q (.user b)]) ++
        [.slept q (s.executor q).interval] ∧
      (t.executor q).live = []

/-- R206, R207: a cancelled job does not run in the next iteration and is not live after it, whatever job cancelled it; the same
when the cancellation falls into an iteration that is suspended at any of its Yields (log 10), which then ends before the next
one. Nothing else stands at the Yields, and callbacks return (log 25). -/
def Obligations.CancelledJobNeverRuns : Prop :=
  (∀ (q : Queue) (id : Bits31) (now : Nat) (s : State), s.Sound → (s.executor q).created = true →
    (s.executor q).iteration = none → s.yieldTaken = false → (∀ c, s.hangs c = false) →
    ∃ t, performAll [.cancel q id, .iterate q now] s = .next t ∧ (∀ j ∈ (t.executor q).live, j.id ≠ id) ∧
      t.outputs = s.outputs ++
        (((order q ((s.executor q).settledJobs.filter fun j => j.id ≠ id)).filter
          (Job.dueAfter ((now : Int) - (s.executor q).lastIteration))).map fun j => .called q j.callback) ++
        [.slept q (s.executor q).interval]) ∧
  ∀ (q : Queue) (id : Bits31) (now : Nat) (line : Text) (rest : List Event) (s : State), s.Sound → s.stuck = false →
    (s.executor q).iteration ≠ none → s.timeline = .resume q :: .op line :: rest → decode line = .ok (.iterate q now) →
    State.yieldTaken { s with timeline := rest } = false → (∀ c, State.hangs c { s with timeline := rest } = false) →
    ∃ t u v, exec (.cancel q id) s = .next t ∧ step t = .next u ∧ step u = .next v ∧
      (∀ j ∈ (v.executor q).live, j.id ≠ id) ∧
      v.outputs = u.outputs ++
        (((order q ((u.executor q).settledJobs.filter fun j => j.id ≠ id)).filter
          (Job.dueAfter ((now : Int) - (u.executor q).lastIteration))).map fun j => .called q j.callback) ++
        [.slept q (u.executor q).interval]

/-- R60 (O6), R208, by the suspension and resumption of log 10. An iteration with something at its Yield calls its first due job
and is suspended there. One that is suspended, at whichever Yield and whatever ran there, goes on with the jobs not yet visited
when the Yield ends with nothing at the Yields to come, and sleeps (`wake`, log 29). So one that is suspended at its first Yield
and goes on with nothing run in between ends as the iteration that is never interrupted. An `ITERATE` that finds one suspended
comes after its end (R201, log 10). Callbacks return (log 25). -/
def Obligations.SuspendedIterationEndsAsUninterrupted : Prop :=
  (∀ (q : Queue) (now : Nat) (s : State) (elapsed : Int) (before after : List Job) (j : Job), s.Sound →
    (s.executor q).iteration = none → s.yieldTaken = true →
    elapsed = (if (s.executor q).created then (now : Int) - (s.executor q).lastIteration else 0) →
    order q (s.executor q).settledJobs = before ++ j :: after → (∀ k ∈ before, k.dueAfter elapsed = false) →
    j.dueAfter elapsed = true →
    ∃ t, exec (.iterate q now) s = .next t ∧ t.outputs = s.outputs ++ [.called q j.callback] ∧
      (t.executor q).iteration = some ⟨elapsed, before.length + 1⟩ ∧
      (t.executor q).live = order q (before.map (Job.tick elapsed) ++ (j.tick elapsed).afterCall :: after) ∧
      t.timeline = s.timeline ∧ t.stuck = s.stuck) ∧
  (∀ (q : Queue) (rest : List Event) (it : Iteration) (s : State), s.Sound → s.stuck = false →
    s.timeline = .resume q :: rest → (s.executor q).iteration = some it →
    State.yieldTaken { s with timeline := rest } = false → (∀ c, State.hangs c { s with timeline := rest } = false) →
    ∃ t, step s = .next t ∧ (t.executor q).iteration = none ∧
      (t.executor q).live = order q
        (((order q (s.executor q).live).take it.visited).filter (fun j => !j.marked) ++
          ((order q (s.executor q).live).drop it.visited).filterMap (Job.afterIteration it.elapsed)) ∧
      t.outputs = s.outputs ++
        ((((order q (s.executor q).live).drop it.visited).filter (Job.dueAfter it.elapsed)).map fun j => .called q j.callback) ++
        [.slept q (s.executor q).interval] ∧
      (t.executor q).wake = t.millis + (s.executor q).interval ∧ t.timeline = rest ∧ t.stuck = false) ∧
  (∀ (q : Queue) (now : Nat) (line : Text) (s t u : State), s.Sound → s.stuck = false → (s.executor q).iteration = none →
    exec (.iterate q now) { s with timeline := [] } = .next t →
    exec (.iterate q now) { s with timeline := [.atYield line] } = .next u → (u.executor q).iteration ≠ none →
    step { u with timeline := [.resume q] } = .next t) ∧
  ∀ (q : Queue) (now : Nat) (s : State), s.Sound → s.stuck = false → (s.executor q).iteration ≠ none →
    ∃ u t, step { s with timeline := [.resume q] } = .next u ∧ (u.executor q).iteration = none ∧
      exec (.iterate q now) s = .next t ∧ exec (.iterate q now) { u with timeline := s.timeline } = .next t

/-- R210: a polling interval never grows. -/
def Obligations.PollingIntervalNeverGrows : Prop :=
  ∀ (i : Instr) (q : Queue) (s t : State), s.Sound → exec i s = .next t → (t.executor q).interval ≤ (s.executor q).interval

/-! ## Encoding and steps -/

/-- Decoding the written form of a well-formed operation gives that operation, with every operand at every value. -/
def Obligations.DecodeOfEncodeIsTheOperation : Prop :=
  ∀ i : Instr, i.wf = true → decode (encode i) = .ok i

/-- The decoder accepts well-formed operations only. -/
def Obligations.DecodedOperationsAreWellFormed : Prop :=
  ∀ (line : Text) (i : Instr), decode line = .ok i → i.wf = true

/-- R85: lines of the spec's own examples decode to the operations they name. -/
def Obligations.SpecExampleLinesDecode : Prop :=
  decode "PULSE 610, 1640".toList = .ok (.pulse 610 1640) ∧
  decode "SEND \"0x00FF45BA\"".toList = .ok (.send "0x00FF45BA".toList) ∧
  decode "SENDCMD 0x00, 0x45".toList = .ok (.sendcmd 0x00 0x45) ∧
  decode "TXBIT 560, 0".toList = .ok (.txbit 560 0) ∧
  decode "SCHEDULE Priority, null, Once, 5".toList = .ok (.schedule .priority none .once ⟨5, 0⟩)

/-- R60, R85, R240: when the line that stands next on the timeline decodes to an operation, one step takes it off the timeline and
is exactly that operation, in the interrupt context always, in the cooperative context unless it is stuck (log 25). -/
def Obligations.StepRunsTheDecodedOperation : Prop :=
  ∀ (s : State) (line : Text) (rest : List Event) (i : Instr),
    (s.timeline = .op line :: rest ∨ s.timeline = .atYield line :: rest) → decode line = .ok i →
    (s.stuck = false ∨ i.opcode ∈
      [.markedge, .spaceedge, .pulse, .bit0, .bit1, .frameEnd, .repeatCode, .header, .noise, .handle]) →
    step s = exec i { s with timeline := rest }

/-- The model's choice (log 2): with nothing on the timeline, and no loop that could run (R201) since no executor exists or the
cooperative context is stuck, the machine waits. -/
def Obligations.StepWithNothingToDoWaits : Prop :=
  ∀ s : State, s.timeline = [] →
    (s.stuck = true ∨ s.priority.created = false ∧ s.userCallback.created = false) → step s = .next s

/-! ## Invariants and whole-machine rules -/

/-- R27 and the sound values of the other registers hold at reset. -/
def Obligations.ResetIsSound : Prop := State.reset.Sound

/-- R27 and the sound values of the other registers are kept by every step, from every sound state. -/
def Obligations.EveryStepKeepsSoundness : Prop :=
  ∀ s t : State, s.Sound → step s = .next t → t.Sound

/-- R25: the high-water mark never decreases. -/
def Obligations.HighWaterMarkNeverDecreases : Prop :=
  ∀ s t : State, s.Sound → step s = .next t → s.dec.maxBitsReceived ≤ t.dec.maxBitsReceived

/-- R21, R101: the protocol and the receive pin, once set, never change. -/
def Obligations.ProtocolIsSetOnce : Prop :=
  ∀ (s t : State) (p : Proto), s.Sound → s.dec.protocol = some p → step s = .next t →
    t.dec.protocol = some p ∧ t.dec.rxPin = s.dec.rxPin

/-- R43: only `HANDLE`, run as an operation or for a pair that signals `DATAGRAM`, sets the flag, and only `WASRX` clears
it. -/
def Obligations.FlagChangesOnlyByHandleAndWasrx : Prop :=
  ∀ (i : Instr) (s t : State), s.Sound → exec i s = .next t → i.opcode ≠ .handle → i.opcode ≠ .wasrx →
    t.dec.hasUnreadDatagram = s.dec.hasUnreadDatagram ∨
    t.dec.hasUnreadDatagram = true ∧ ∃ c, t.outputs = s.outputs ++ [.pair c .datagram]

/-! ## The background loops, and a callback that never returns -/

/-- R201, R208, R210, by the events of log 29: a turn of an executor's loop, its sleep over, is an iteration at a clock reading of
its own that is not before the end of the sleep; where its iteration is suspended, it goes on with it; an executor that does not
exist has no loop. When the outside does nothing, the loop of an executor that exists has a turn, step after step. -/
def Obligations.LoopsIterateAndSleepForever : Prop :=
  ∀ s : State, s.stuck = false →
    (∀ (q : Queue) (rest : List Event), (s.timeline = .loop q :: rest ∨ s.timeline = .loopAtYield q :: rest) →
      ((s.executor q).created = false → step s = .next { s with timeline := rest }) ∧
      ((s.executor q).created = true → (s.executor q).iteration ≠ none →
        step s = step { s with timeline := .resume q :: rest }) ∧
      ((s.executor q).created = true → (s.executor q).iteration = none →
        ∃ now draws, s.millis ≤ now ∧ (s.executor q).wake ≤ now ∧
          step s = exec (.iterate q now) { s with timeline := rest, draws := draws })) ∧
    (s.timeline = [] → (∃ q, (s.executor q).created = true) →
      ∃ q draws, (s.executor q).created = true ∧ step s = step { s with timeline := [.loop q], draws := draws })

/-- U19, R247, by the event of log 25: when an application's callback that an iteration calls never returns, the iteration stops in
the middle of that call and the cooperative context is stuck. -/
def Obligations.CallbackThatNeverReturnsIsStuck : Prop :=
  ∀ (q : Queue) (now : Nat) (rest : List Event) (s : State) (elapsed : Int) (before after : List Job) (j : Job) (name : Text),
    s.Sound → (s.executor q).iteration = none → s.timeline = .neverReturns :: rest →
    elapsed = (if (s.executor q).created then (now : Int) - (s.executor q).lastIteration else 0) →
    order q (s.executor q).settledJobs = before ++ j :: after →
    (∀ k ∈ before, k.dueAfter elapsed = true → k.callback = .poll) → j.dueAfter elapsed = true → j.callback = .user name →
    ∃ t, exec (.iterate q now) s = .next t ∧ t.stuck = true ∧ (t.executor q).iteration ≠ none ∧
      t.outputs = s.outputs ++ ((before.filter (Job.dueAfter elapsed)).map fun k => .called q k.callback) ++
        [.called q (.user name)] ∧
      t.tx = s.tx ∧ t.txOthers = s.txOthers ∧ t.timeline = s.timeline

/-- U19, R240: a stuck cooperative context stays stuck and does not advance: neither an executor's iteration, nor TX, nor a
registration. What the interrupt context does goes on: a line that is one of its operations is performed as ever. That what stands
on the timeline for the cooperative context is taken off and never happens is the model's choice (log 25). -/
def Obligations.StuckContextDoesNotAdvance : Prop :=
  ∀ s : State, s.Sound → s.stuck = true →
    (∀ (line : Text) (rest : List Event) (i : Instr), (s.timeline = .op line :: rest ∨ s.timeline = .atYield line :: rest) →
      decode line = .ok i →
      (i.opcode ∈ [.markedge, .spaceedge, .pulse, .bit0, .bit1, .frameEnd, .repeatCode, .header, .noise, .handle] →
        step s = exec i { s with timeline := rest }) ∧
      (i.opcode ∉ [.markedge, .spaceedge, .pulse, .bit0, .bit1, .frameEnd, .repeatCode, .header, .noise, .handle] →
        step s = .next { s with timeline := rest })) ∧
    ∀ t : State, step s = .next t →
      t.stuck = true ∧ t.tx = s.tx ∧ t.txOthers = s.txOthers ∧ t.priority = s.priority ∧ t.micros = s.micros ∧
      t.userCallback.live = s.userCallback.live ∧ t.userCallback.iteration = s.userCallback.iteration ∧
      t.userCallback.pendingCancel = s.userCallback.pendingCancel ∧ t.userCallback.interval = s.userCallback.interval ∧
      t.dec.protocol = s.dec.protocol ∧ t.dec.pressHandlers = s.dec.pressHandlers ∧
      t.dec.releaseHandlers = s.dec.releaseHandlers ∧ t.dec.datagramHandler = s.dec.datagramHandler ∧
      t.timeline = s.timeline.tail

/-- R212: a Repeat job that is due and is cancelled within its own callback (the `CANCEL` stands at the Yield of its call, log 12)
completes that firing, with its delay again; the rest of that iteration calls the due jobs after it; and it is gone at the next
iteration, which calls the due jobs of another id only. Nothing else stands at the Yields (log 10), and callbacks return (log
25). -/
def Obligations.SelfCancelledJobNeverFiresAgain : Prop :=
  ∀ (q : Queue) (now later : Nat) (cancel next name : Text) (rest : List Event) (s : State) (elapsed : Int)
    (before after : List Job) (j : Job), s.Sound → s.stuck = false → (s.executor q).iteration = none →
    s.timeline = .atYield cancel :: .resume q :: .op next :: rest → decode cancel = .ok (.cancel q j.id) →
    decode next = .ok (.iterate q later) → State.yieldTaken { s with timeline := rest } = false →
    (∀ c, State.hangs c { s with timeline := rest } = false) →
    elapsed = (if (s.executor q).created then (now : Int) - (s.executor q).lastIteration else 0) →
    order q (s.executor q).settledJobs = before ++ j :: after → (∀ k ∈ before, k.dueAfter elapsed = false) →
    j.dueAfter elapsed = true → j.mode = .recurring → j.callback = .user name →
    ∃ t u v w, exec (.iterate q now) s = .next t ∧ step t = .next u ∧ step u = .next v ∧ step v = .next w ∧
      t.outputs = s.outputs ++ [.called q (.user name)] ∧ { j with remaining := j.delay } ∈ (v.executor q).live ∧
      (v.executor q).iteration = none ∧
      v.outputs = t.outputs ++ ((after.filter (Job.dueAfter elapsed)).map fun k => .called q k.callback) ++
        [.slept q (s.executor q).interval] ∧
      (∀ k ∈ (w.executor q).live, k.id ≠ j.id) ∧
      w.outputs = v.outputs ++
        (((order q ((v.executor q).settledJobs.filter fun k => k.id ≠ j.id)).filter
          (Job.dueAfter ((later : Int) - (v.executor q).lastIteration))).map fun k => .called q k.callback) ++
        [.slept q (v.executor q).interval]
end

