-- ==== Sys2Proof/Laws/Text.lean ====
section
/-!
SUPPORT. Reading what was written: one lemma per reader of the written form of operations, and the hex strings of TX
(spec/30_encoding.md R79, R85).
-/

namespace Sys2Proof.Machine

/-! ## Lines and operands -/

/-- A word with no space and no comma. -/
def Token (w : Text) : Prop := w ≠ [] ∧ ∀ c ∈ w, c ≠ ' ' ∧ c ≠ ','

/-- The same, as a check that can be computed. -/
theorem token_of_check {w : Text} (h : (!w.isEmpty && w.all fun c => c != ' ' && c != ',') = true) : Token w := by
  rw [Bool.and_eq_true, Bool.not_eq_true', List.isEmpty_eq_false_iff, List.all_eq_true] at h
  exact ⟨h.1, fun c hc => by simpa using h.2 c hc⟩

/-- A text that no trimming changes. -/
def Tight (t : Text) : Prop := t.head? ≠ some ' ' ∧ t.getLast? ≠ some ' '

theorem dropWhile_space_of_head {t : Text} (h : t.head? ≠ some ' ') : t.dropWhile (· == ' ') = t := by
  cases t with
  | nil => rfl
  | cons c t =>
    have : (c == ' ') = false := by simpa using h
    simp [List.dropWhile, this]

theorem trim_tight {t : Text} (h : Tight t) : trim t = t := by
  rw [trim, dropWhile_space_of_head h.1, dropWhile_space_of_head, List.reverse_reverse]
  simpa using h.2

theorem trim_space_cons {t : Text} (h : Tight t) : trim (' ' :: t) = t := by
  have : trim (' ' :: t) = trim t := by simp [trim, List.dropWhile]
  rw [this, trim_tight h]

theorem Token.tight {w : Text} (h : Token w) : Tight w :=
  ⟨fun he => (h.2 ' ' (List.mem_of_mem_head? he)).1 rfl, fun he => (h.2 ' ' (List.mem_of_getLast? he)).1 rfl⟩

theorem splitCommas_free {w : Text} (h : ∀ c ∈ w, c ≠ ',') : splitCommas w = [w] := by
  induction w with
  | nil => rfl
  | cons c w ih =>
    have hc : c ≠ ',' := h c (by simp)
    simp [splitCommas, hc, ih fun d hd => h d (by simp [hd])]

theorem splitCommas_cons {w : Text} (h : ∀ c ∈ w, c ≠ ',') (t : Text) : splitCommas (w ++ ',' :: t) = w :: splitCommas t := by
  induction w with
  | nil => simp [splitCommas]
  | cons c w ih =>
    have hc : c ≠ ',' := h c (by simp)
    simp [splitCommas, hc, ih fun d hd => h d (by simp [hd])]

theorem joinOperands_cons_cons (w v : Text) (vs : List Text) :
    joinOperands (w :: v :: vs) = w ++ ',' :: ' ' :: joinOperands (v :: vs) := rfl

theorem joinOperands_ne_nil {w : Text} {ws : List Text} (h : Token w) : joinOperands (w :: ws) ≠ [] := by
  cases ws <;> simp [joinOperands, h.1]

theorem joinOperands_tight {ws : List Text} (h : ∀ w ∈ ws, Token w) : Tight (joinOperands ws) := by
  induction ws with
  | nil => simp [joinOperands, Tight]
  | cons w ws ih =>
    have hw : Token w := h w (by simp)
    cases ws with
    | nil => exact hw.tight
    | cons v vs =>
      have hv : Token v := h v (by simp)
      have ht := ih fun u hu => h u (by simp [hu])
      refine ⟨?_, ?_⟩
      · have := hw.tight.1
        cases w with
        | nil => exact absurd rfl hw.1
        | cons c w => simpa [joinOperands] using this
      · have hne : joinOperands (v :: vs) ≠ [] := joinOperands_ne_nil hv
        have := ht.2
        rw [joinOperands_cons_cons, List.getLast?_append_of_ne_nil _ (by simp)]
        rw [show (',' :: ' ' :: joinOperands (v :: vs)) = [',', ' '] ++ joinOperands (v :: vs) from rfl,
          List.getLast?_append_of_ne_nil _ hne]
        exact this

theorem splitCommas_join {ws : List Text} (hne : ws ≠ []) (h : ∀ w ∈ ws, Token w) :
    (splitCommas (joinOperands ws)).map trim = ws := by
  induction ws with
  | nil => exact absurd rfl hne
  | cons w ws ih =>
    have hw : Token w := h w (by simp)
    cases ws with
    | nil => simp [joinOperands, splitCommas_free fun c hc => (hw.2 c hc).2, trim_tight hw.tight]
    | cons v vs =>
      have hv : Token v := h v (by simp)
      have ih' := ih (by simp) fun u hu => h u (by simp [hu])
      have hspace : (splitCommas (' ' :: joinOperands (v :: vs))).map trim = v :: vs := by
        have hs : splitCommas (' ' :: joinOperands (v :: vs)) =
            match splitCommas (joinOperands (v :: vs)) with
            | [] => [[' ']]
            | x :: xs => (' ' :: x) :: xs := by
          rw [splitCommas, if_neg (by decide)]; try rfl
        rw [hs]
        cases hj : splitCommas (joinOperands (v :: vs)) with
        | nil => rw [hj] at ih'; simp at ih'
        | cons x xs =>
          rw [hj] at ih'
          simp only [List.map_cons, List.cons.injEq] at ih' ⊢
          refine ⟨?_, ih'.2⟩
          have : trim (' ' :: x) = trim x := by simp [trim, List.dropWhile]
          rw [this]; exact ih'.1
      rw [joinOperands_cons_cons, splitCommas_cons fun c hc => (hw.2 c hc).2]
      simp only [List.map_cons, trim_tight hw.tight, hspace]

/-- Reading the operands that were joined (R85). -/
theorem operandList_join {ws : List Text} (h : ∀ w ∈ ws, Token w) : operandList (joinOperands ws) = ws := by
  cases ws with
  | nil => rfl
  | cons w ws =>
    have hne : joinOperands (w :: ws) ≠ [] := joinOperands_ne_nil (h w (by simp))
    rw [operandList, if_neg (by simpa using hne)]
    exact splitCommas_join (by simp) h

/-! ## Numbers -/

theorem showNat_digits (n : Nat) : ∀ c ∈ showNat n, c.isDigit = true :=
  fun _ hc => Nat.isDigit_of_mem_toDigits (by decide) (by decide) hc

theorem showNat_ne_nil (n : Nat) : showNat n ≠ [] := Nat.toDigits_ne_nil

theorem isDigit_ne {c d : Char} (h : c.isDigit = true) (hd : d.isDigit = false) : c ≠ d := by
  rintro rfl; simp [h] at hd

theorem token_of_digits {w : Text} (hne : w ≠ []) (h : ∀ c ∈ w, c.isDigit = true) : Token w :=
  ⟨hne, fun c hc => ⟨isDigit_ne (h c hc) (by decide), isDigit_ne (h c hc) (by decide)⟩⟩

theorem showNat_token (n : Nat) : Token (showNat n) := token_of_digits (showNat_ne_nil n) (showNat_digits n)

theorem allDigits_of {w : Text} (hne : w ≠ []) (h : ∀ c ∈ w, c.isDigit = true) : allDigits w = true := by
  rw [allDigits, List.all_eq_true.mpr h, Bool.and_true, Bool.not_eq_true', List.isEmpty_eq_false_iff]
  exact hne

theorem readNat_showNat (n : Nat) : readNat (showNat n) = some n := by
  have h3 : Nat.ofDigitChars 10 (showNat n) 0 = n := Nat.ofDigitChars_ten_toDigits
  rw [readNat, allDigits_of (showNat_ne_nil n) (showNat_digits n), if_pos rfl, h3]

theorem showNat_head_not_minus (n : Nat) : ∀ c t, showNat n = c :: t → isMinus c = false := by
  intro c t h
  have hd := showNat_digits n c (by simp [h])
  simp [isMinus, isDigit_ne hd (show ('-' : Char).isDigit = false by decide),
    isDigit_ne hd (show ('−' : Char).isDigit = false by decide)]

theorem readInt_showInt (n : Int) : readInt (showInt n) = some n := by
  unfold showInt
  split
  · next h =>
    rw [readInt]
    rw [if_pos (by decide), readNat_showNat]
    exact congrArg some (show -((n.natAbs : Nat) : Int) = n by omega)
  · next h =>
    cases hs : showNat n.natAbs with
    | nil => exact absurd hs (showNat_ne_nil _)
    | cons c t =>
      rw [readInt, showNat_head_not_minus _ c t hs, ← hs, readNat_showNat]
      simp; omega

theorem showInt_token (n : Int) : Token (showInt n) := by
  unfold showInt
  split
  · refine ⟨by simp, fun c hc => ?_⟩
    rcases List.mem_cons.mp hc with rfl | hc
    · decide
    · exact (showNat_token _).2 c hc
  · exact showNat_token _

theorem readBits_showNat (w : Nat) (v : BitVec w) : readBits w (showNat v.toNat) = some v := by
  simp [readBits, readNat_showNat, v.isLt]

theorem readBits_showU8 (v : U8) : readBits 8 (showU8 v) = some v := by
  revert v; decide

theorem showU8_token (v : U8) : Token (showU8 v) := by
  have : ∀ v : U8, ((showU8 v).all fun c => decide (c ≠ ' ' ∧ c ≠ ',')) = true := by decide
  exact ⟨by simp [showU8], fun c hc => by simpa using List.all_eq_true.mp (this v) c hc⟩

/-! ## Decimal numbers -/

theorem decimalDigits_digits (m scale : Nat) : ∀ c ∈ decimalDigits m scale, c.isDigit = true := by
  intro c hc
  rcases List.mem_append.mp hc with hc | hc
  · rw [(List.mem_replicate.mp hc).2]; decide
  · exact showNat_digits m c hc

theorem decimalDigits_length (m scale : Nat) : scale + 1 ≤ (decimalDigits m scale).length := by
  simp [decimalDigits]; omega

theorem decimalDigits_value (m scale : Nat) : Nat.ofDigitChars 10 (decimalDigits m scale) 0 = m := by
  rw [decimalDigits, Nat.ofDigitChars_append, Nat.ofDigitChars_replicate_zero]
  rw [Nat.mul_zero]
  exact Nat.ofDigitChars_ten_toDigits

theorem takeWhile_append_stop {p : Char → Bool} {a b : Text} {c : Char} (ha : ∀ x ∈ a, p x = true) (hc : p c = false) :
    (a ++ c :: b).takeWhile p = a ∧ (a ++ c :: b).dropWhile p = c :: b := by
  rw [List.takeWhile_append_of_pos ha, List.dropWhile_append_of_pos ha]
  simp [List.takeWhile, List.dropWhile, hc]

theorem takeWhile_all {p : Char → Bool} {a : Text} (ha : ∀ x ∈ a, p x = true) :
    a.takeWhile p = a ∧ a.dropWhile p = [] := by
  have h1 := List.takeWhile_append_of_pos (l₂ := []) ha
  have h2 := List.dropWhile_append_of_pos (l₂ := []) ha
  simp only [List.append_nil, List.takeWhile_nil, List.dropWhile_nil] at h1 h2
  exact ⟨h1, h2⟩

theorem digit_not_point {c : Char} (h : c.isDigit = true) : (c != '.') = true := by
  simpa using isDigit_ne h (show ('.' : Char).isDigit = false by decide)

theorem readUDecimal_show (m scale : Nat) : readUDecimal (showUDecimal m scale) = some (m, scale) := by
  have hd := decimalDigits_digits m scale
  have hl := decimalDigits_length m scale
  have hv := decimalDigits_value m scale
  rw [showUDecimal]
  generalize decimalDigits m scale = ds at *
  split_ifs with h0
  · have h2 := (takeWhile_all (p := fun c => c != '.') fun c hc => digit_not_point (hd c hc)).2
    have hne : ds ≠ [] := by rintro rfl; simp at hl
    rw [readUDecimal, h2]
    simp only [allDigits_of hne hd, if_true, hv, h0]
  · have htake : ∀ c ∈ ds.take (ds.length - scale), c.isDigit = true := fun c hc => hd c (List.mem_of_mem_take hc)
    have hdrop : ∀ c ∈ ds.drop (ds.length - scale), c.isDigit = true := fun c hc => hd c (List.mem_of_mem_drop hc)
    have hlen : (ds.drop (ds.length - scale)).length = scale := by rw [List.length_drop]; omega
    have hne1 : ds.take (ds.length - scale) ≠ [] := by
      rw [← List.length_pos_iff, List.length_take]; omega
    have hne2 : ds.drop (ds.length - scale) ≠ [] := by
      rw [← List.length_pos_iff, hlen]; omega
    obtain ⟨h1, h2⟩ := takeWhile_append_stop (p := fun c => c != '.') (b := ds.drop (ds.length - scale)) (c := '.')
      (fun c hc => digit_not_point (htake c hc)) (by decide)
    rw [readUDecimal, h2, h1]
    simp only [allDigits_of hne1 htake, allDigits_of hne2 hdrop, Bool.and_true, if_true, List.take_append_drop, hv, hlen]

theorem showUDecimal_digits (m scale : Nat) : showUDecimal m scale ≠ [] ∧
    ∀ c ∈ showUDecimal m scale, c.isDigit = true ∨ c = '.' := by
  have hd := decimalDigits_digits m scale
  have hl := decimalDigits_length m scale
  rw [showUDecimal]
  split_ifs with h0
  · exact ⟨by intro he; simp [he] at hl, fun c hc => .inl (hd c hc)⟩
  · refine ⟨by simp, fun c hc => ?_⟩
    simp only [List.mem_append, List.mem_cons] at hc
    rcases hc with hc | rfl | hc
    · exact .inl (hd c (List.mem_of_mem_take hc))
    · exact .inr rfl
    · exact .inl (hd c (List.mem_of_mem_drop hc))

theorem readDecimal_show (x : Decimal) : readDecimal (showDecimal x) = some x := by
  obtain ⟨m, k⟩ := x
  unfold showDecimal
  split
  · next h =>
    simp only at h
    rw [readDecimal]
    rw [if_pos (by decide), readUDecimal_show]
    simp only [Option.map_some, Option.some.injEq, Decimal.mk.injEq, and_true]
    omega
  · next h =>
    simp only at h ⊢
    obtain ⟨hne, hd⟩ := showUDecimal_digits m.natAbs k
    cases hs : showUDecimal m.natAbs k with
    | nil => exact absurd hs hne
    | cons c t =>
      have hc : isMinus c = false := by
        rcases hd c (by simp [hs]) with h | rfl
        · simp [isMinus, isDigit_ne h (show ('-' : Char).isDigit = false by decide),
            isDigit_ne h (show ('−' : Char).isDigit = false by decide)]
        · decide
      rw [readDecimal, hc, ← hs, readUDecimal_show]
      simp; omega

theorem showDecimal_token (x : Decimal) : Token (showDecimal x) := by
  have key : ∀ m k, Token (showUDecimal m k) := fun m k =>
    ⟨(showUDecimal_digits m k).1, fun c hc => by
      rcases (showUDecimal_digits m k).2 c hc with h | rfl
      · exact ⟨isDigit_ne h (by decide), isDigit_ne h (by decide)⟩
      · decide⟩
  unfold showDecimal
  split
  · refine ⟨by simp, fun c hc => ?_⟩
    rcases List.mem_cons.mp hc with rfl | hc
    · decide
    · exact (key _ _).2 c hc
  · exact key _ _

/-! ## Names -/

theorem isName_token {n : Text} (h : isName n = true) : Token n := by
  cases n with
  | nil => simp [isName] at h
  | cons c n =>
    simp only [isName, Bool.and_eq_true, List.all_eq_true] at h
    have notName : ∀ d : Char, (d.isAlphanum || d == '_') = true → d ≠ ' ' ∧ d ≠ ',' := by
      intro d hd
      constructor <;> rintro rfl <;> revert hd <;> decide
    refine ⟨by simp, fun d hd => ?_⟩
    rcases List.mem_cons.mp hd with rfl | hd
    · exact notName d (by simp [Char.isAlphanum, h.1])
    · exact notName d (h.2 d hd)

theorem readName_self {n : Text} (h : isName n = true) : readName n = some n := by simp [readName, h]

theorem readCallback_show {c : Callback} (h : c.wf = true) : readCallback (showCallback c) = some c := by
  cases c with
  | poll => decide
  | user n =>
    simp only [Callback.wf, Bool.and_eq_true, bne_iff_ne, ne_eq] at h
    simp [readCallback, showCallback, h.1.2, h.2, readName_self h.1.1]

theorem showCallback_token {c : Callback} (h : c.wf = true) : Token (showCallback c) := by
  cases c with
  | poll => exact token_of_check (by decide)
  | user n =>
    simp only [Callback.wf, Bool.and_eq_true] at h
    exact isName_token h.1.1

theorem showCallback_ne_null {c : Callback} (h : c.wf = true) : showCallback c ≠ nullName := by
  cases c with
  | poll => decide
  | user n => simp only [Callback.wf, Bool.and_eq_true, bne_iff_ne] at h; exact h.2

theorem readKey_show (k : Key) : readKey (showKey k) = some k := by
  cases k with
  | wildcard => decide
  | code n =>
    have hne : showInt n ≠ wildcardName := by
      intro he
      have hm : ('W' : Char) ∈ showInt n := by rw [he]; decide
      unfold showInt at hm
      split at hm
      · rcases List.mem_cons.mp hm with h | h
        · exact absurd h (by decide)
        · exact absurd (showNat_digits _ _ h) (by decide)
      · exact absurd (showNat_digits _ _ hm) (by decide)
    simp [readKey, showKey, hne, readInt_showInt]

theorem showKey_token (k : Key) : Token (showKey k) := by
  cases k with
  | wildcard => exact token_of_check (by decide)
  | code n => exact showInt_token n

theorem readQueue_name (q : Queue) : readQueue (queueName q) = some q := by cases q <;> decide
theorem queueName_token (q : Queue) : Token (queueName q) := by cases q <;> exact token_of_check (by decide)
theorem readMode_name (m : Mode) : readMode (modeName m) = some m := by cases m <;> decide
theorem modeName_token (m : Mode) : Token (modeName m) := by cases m <;> exact token_of_check (by decide)
theorem readSignal_name (g : Signal) : readSignal (signalName g) = some g := by cases g <;> decide
theorem signalName_token (g : Signal) : Token (signalName g) := by cases g <;> exact token_of_check (by decide)

theorem readQuoted_show (t : Text) : readQuoted (showQuoted t) = some t := by
  simp [readQuoted, showQuoted]

theorem showQuoted_tight (t : Text) : Tight (showQuoted t) :=
  ⟨by simp [showQuoted, quoteChar], by simp [showQuoted, List.getLast?_cons, quoteChar]⟩

/-! ## Lines -/

theorem Opcode.ofName_name (o : Opcode) : Opcode.ofName o.name = some o := by cases o <;> decide

theorem Opcode.name_token (o : Opcode) : Token o.name := by cases o <;> exact token_of_check (by decide)

theorem firstWord_bare {n : Text} (h : Token n) : firstWord n = n ∧ restOfLine n = [] := by
  unfold firstWord restOfLine
  rw [trim_tight h.tight]
  obtain ⟨h1, h2⟩ := takeWhile_all (p := fun c => c != ' ') fun c hc => by simpa using (h.2 c hc).1
  exact ⟨h1, by rw [h2]; rfl⟩

theorem firstWord_operands {n raw : Text} (h : Token n) (hr : Tight raw) (hne : raw ≠ []) :
    firstWord (n ++ ' ' :: raw) = n ∧ restOfLine (n ++ ' ' :: raw) = raw := by
  have ht : Tight (n ++ ' ' :: raw) := by
    refine ⟨?_, ?_⟩
    · have := h.tight.1
      cases n with
      | nil => exact absurd rfl h.1
      | cons c n => simpa using this
    · rw [show n ++ ' ' :: raw = (n ++ [' ']) ++ raw by simp, List.getLast?_append_of_ne_nil _ hne]
      exact hr.2
  unfold firstWord restOfLine
  rw [trim_tight ht]
  obtain ⟨h1, h2⟩ := takeWhile_append_stop (p := fun c => c != ' ') (a := n) (b := raw) (c := ' ')
    (fun c hc => by simpa using (h.2 c hc).1) (by decide)
  exact ⟨h1, by rw [h2]; exact trim_space_cons hr⟩

/-! ## Hex strings -/

/-- The code string of a command reads as its payload, in either letter case (R134, R80). -/
theorem hexDigit_value (n : Nat) (h : n < 16) : hexDigitValue (hexDigit n) = n ∧ isHexDigit (hexDigit n) = true := by
  revert n; decide

end Sys2Proof.Machine
end

