-- ==== Sys2Proof/Laws/Hex.lean ====
section
/-!
SUPPORT. Hex strings and payloads (spec/30_encoding.md R79, R80; spec/41_transmitter.md R134): what code strings read as.
-/

namespace Sys2Proof.Machine

/-- The payload, as a number (R80). -/
theorem payload_toNat (a c : U8) : (payload a c).toNat = payloadValue a c := by
  have h16 : ∀ b : U8, (section16 b).toNat = b.toNat * 256 + (255 - b.toNat) := by decide
  have hc := (section16 c).isLt
  have ha := (section16 a).isLt
  have : (payload a c).toNat = ((section16 a).toNat <<< 16) ||| (section16 c).toNat := by
    unfold payload
    rw [BitVec.toNat_or, BitVec.toNat_shiftLeft, BitVec.toNat_setWidth, BitVec.toNat_setWidth]
    rw [Nat.mod_eq_of_lt (a := (section16 c).toNat) (by omega), Nat.mod_eq_of_lt (a := (section16 a).toNat) (by omega), Nat.mod_eq_of_lt (by rw [Nat.shiftLeft_eq]; omega)]
  rw [this, ← Nat.shiftLeft_add_eq_or_of_lt hc, h16, h16, Nat.shiftLeft_eq]
  unfold payloadValue
  have := a.isLt; have := c.isLt
  omega

theorem payloadValue_lt (a c : U8) : payloadValue a c < 16 ^ 8 := by
  rw [← payload_toNat]; have := (payload a c).isLt; norm_num; omega

/-- A digit in the letter case `HEXCASE`. -/
def caseOf (b : Bool) (c : Char) : Char := if b then c.toLower else if c = 'x' then c else c.toUpper

theorem caseOf_digit (b : Bool) (n : Nat) (h : n < 16) :
    hexDigitValue (caseOf b (hexDigit n)) = n ∧ isHexDigit (caseOf b (hexDigit n)) = true := by
  revert n; revert b; decide

theorem hexDigits_fold (g : Char → Char) (hg : ∀ n < 16, hexDigitValue (g (hexDigit n)) = n) (n v : Nat) :
    ∀ a : Nat, ((hexDigits n v).map g).foldl (fun v c => 16 * v + hexDigitValue c) a = a * 16 ^ n + v % 16 ^ n := by
  induction n with
  | zero => intro a; simp [hexDigits, Nat.mod_one]
  | succ n ih =>
    intro a
    simp only [hexDigits, List.map_cons, List.foldl_cons]
    rw [ih, hg _ (Nat.mod_lt _ (by norm_num))]
    have : v % 16 ^ (n+1) = v % 16 ^ n + 16 ^ n * (v / 16 ^ n % 16) := by
      rw [pow_succ, Nat.mod_mul]
    rw [this]; ring

theorem hexDigits_length (n v : Nat) : (hexDigits n v).length = n := by induction n <;> simp [hexDigits, *]

theorem hexDigits_mem (n v : Nat) : ∀ c ∈ hexDigits n v, ∃ k < 16, c = hexDigit k := by
  induction n with
  | zero => simp [hexDigits]
  | succ n ih => 
    intro c hc
    rcases List.mem_cons.mp hc with rfl | hc
    · exact ⟨_, Nat.mod_lt _ (by norm_num), rfl⟩
    · exact ih c hc

theorem inCase_code (b : Bool) (n v : Nat) : inCase b ('0' :: 'x' :: hexDigits n v) = '0' :: 'x' :: (hexDigits n v).map (caseOf b) := by
  cases b <;> simp [inCase, caseOf]

/-- A string of `n` hex digits reads as the low `4n` bits of its number (R79). -/
theorem readHexString_hexDigits (b : Bool) (n v : Nat) (hn : n ≠ 0) : readHexString ('0' :: 'x' :: (hexDigits n v).map (caseOf b)) = some (n, v % 16 ^ n) := by
  have h1 : ((hexDigits n v).map (caseOf b)).all isHexDigit = true := by
    rw [List.all_eq_true]; intro c hc
    obtain ⟨d, hd, rfl⟩ := List.mem_map.mp hc
    obtain ⟨k, hk, rfl⟩ := hexDigits_mem n v d hd
    exact (caseOf_digit b k hk).2
  have h2 : ((hexDigits n v).map (caseOf b)).isEmpty = false := by
    rw [List.isEmpty_eq_false_iff, ← List.length_pos_iff]; simp [hexDigits_length]; omega
  rw [readHexString, h1, h2]
  simp only [Bool.not_false, Bool.and_self, if_true, List.length_map, hexDigits_length, hexValue]
  rw [hexDigits_fold (caseOf b) (fun n hn => (caseOf_digit b n hn).1)]; simp

/-- The string of `ENC` reads as the payload (R134). -/
theorem encText_reads (a c : U8) : readHexString (encText a c) = some (8, payloadValue a c) ∧ (encText a c).length = 10 := by
  rw [encText, codeString, inCase_code, readHexString_hexDigits _ _ _ (by norm_num), payload_toNat, Nat.mod_eq_of_lt (payloadValue_lt a c)]
  simp [hexDigits_length]

/-- The same for the string that `SENDCMD` sends (R139). -/
theorem codeString_reads (a c : U8) : readHexString (codeString a c) = some (8, payloadValue a c) ∧ (codeString a c).length = 10 := by
  have e : (hexDigits 8 (payload a c).toNat).map (caseOf false) = hexDigits 8 (payload a c).toNat := by
    rw [List.map_congr_left (g := id), List.map_id]
    intro d hd
    obtain ⟨k, hk, rfl⟩ := hexDigits_mem _ _ d hd
    clear hd; revert k; decide
  rw [codeString, ← e, readHexString_hexDigits _ _ _ (by norm_num), payload_toNat, Nat.mod_eq_of_lt (payloadValue_lt a c)]
  simp [hexDigits_length]

/-- What reads as a hex string (R77, R137). -/
theorem readHexString_iff (t : Text) (p : Nat × Nat) : readHexString t = some p ↔ ∃ h : Text, t = '0' :: 'x' :: h ∧ h ≠ [] ∧ (∀ c ∈ h, isHexDigit c = true) ∧ p = (h.length, hexValue h) := by
  unfold readHexString
  split
  · next h =>
    constructor
    · intro hh
      split at hh
      · next hc => 
        simp only [Bool.and_eq_true, Bool.not_eq_true', List.isEmpty_eq_false_iff, List.all_eq_true] at hc
        exact ⟨h, rfl, hc.1, hc.2, by simpa using hh.symm⟩
      · cases hh
    · rintro ⟨h', he, h1, h2, h3⟩
      have : h = h' := by simpa using he
      subst this
      rw [if_pos (by simp only [Bool.and_eq_true, Bool.not_eq_true', List.isEmpty_eq_false_iff, List.all_eq_true]; exact ⟨h1, h2⟩), h3]
  · next hno =>
    constructor
    · intro hh; cases hh
    · rintro ⟨h', he, -⟩; exact absurd he (hno h')

theorem digitChar_hex (n : Nat) (h : n < 16) : isHexDigit (Nat.digitChar n) = true ∧ hexDigitValue (Nat.digitChar n) = n ∧
   isHexDigit (Nat.digitChar n).toLower = true ∧ hexDigitValue (Nat.digitChar n).toLower = n ∧ isHexDigit (Nat.digitChar n).toUpper = true ∧ hexDigitValue (Nat.digitChar n).toUpper = n ∧ Nat.digitChar n ≠ 'x' ∧ (n ≠ 0 → (Nat.digitChar n).toLower ≠ '0' ∧ (Nat.digitChar n).toUpper ≠ '0') := by
  revert n; decide

/-- The hex digits of a number: its value, and no leading zero (R178). -/
theorem toDigits_sixteen (n : Nat) : ∃ ds : List Nat, Nat.toDigits 16 n = ds.map Nat.digitChar ∧ (∀ d ∈ ds, d < 16) ∧ ds ≠ [] ∧ ds.foldl (fun v d => 16 * v + d) 0 = n ∧ (n ≠ 0 → ds.head? ≠ some 0) := by
  induction n using Nat.strong_induction_on with
  | _ n ih =>
    by_cases h : n < 16
    · exact ⟨[n], by simp [Nat.toDigits_of_lt_base h], by simpa, by simp, by simp, by simp⟩
    · obtain ⟨ds, h1, h2, h3, h4, h5⟩ := ih (n / 16) (by omega)
      refine ⟨ds ++ [n % 16], ?_, ?_, by simp, ?_, ?_⟩
      · rw [Nat.toDigits_eq_if (by norm_num), if_neg h, h1]; simp
      · intro d hd
        rcases List.mem_append.mp hd with hd | hd
        · exact h2 d hd
        · simp at hd; omega
      · simp [h4]; omega
      · intro _
        rw [List.head?_append_of_ne_nil _ h3]
        exact h5 (by omega)

end Sys2Proof.Machine
end

