-- ==== Sys2Proof/Laws/State.lean ====
section
/-!
SUPPORT. One lemma per field per update of the state, so that no later proof unfolds a record update.
-/

namespace Sys2Proof.Machine

variable (s : State)

/-! ## An output -/

@[simp] theorem State.emit_dec (o : Output) : (s.emit o).dec = s.dec := rfl
@[simp] theorem State.emit_tx (o : Output) : (s.emit o).tx = s.tx := rfl
@[simp] theorem State.emit_txOthers (o : Output) : (s.emit o).txOthers = s.txOthers := rfl
@[simp] theorem State.emit_priority (o : Output) : (s.emit o).priority = s.priority := rfl
@[simp] theorem State.emit_userCallback (o : Output) : (s.emit o).userCallback = s.userCallback := rfl
@[simp] theorem State.emit_micros (o : Output) : (s.emit o).micros = s.micros := rfl
@[simp] theorem State.emit_stuck (o : Output) : (s.emit o).stuck = s.stuck := rfl
@[simp] theorem State.emit_millis (o : Output) : (s.emit o).millis = s.millis := rfl
@[simp] theorem State.emit_draws (o : Output) : (s.emit o).draws = s.draws := rfl
@[simp] theorem State.emit_outputs (o : Output) : (s.emit o).outputs = s.outputs ++ [o] := rfl
@[simp] theorem State.emit_timeline (o : Output) : (s.emit o).timeline = s.timeline := rfl

/-! ## The clocks -/

@[simp] theorem State.readMillis_dec : (s.readMillis.2).dec = s.dec := rfl
@[simp] theorem State.readMillis_tx : (s.readMillis.2).tx = s.tx := rfl
@[simp] theorem State.readMillis_txOthers : (s.readMillis.2).txOthers = s.txOthers := rfl
@[simp] theorem State.readMillis_priority : (s.readMillis.2).priority = s.priority := rfl
@[simp] theorem State.readMillis_userCallback : (s.readMillis.2).userCallback = s.userCallback := rfl
@[simp] theorem State.readMillis_micros : (s.readMillis.2).micros = s.micros := rfl
@[simp] theorem State.readMillis_stuck : (s.readMillis.2).stuck = s.stuck := rfl
@[simp] theorem State.readMillis_millis : (s.readMillis.2).millis = s.readMillis.1 := rfl
@[simp] theorem State.readMillis_draws : (s.readMillis.2).draws = s.draws + 1 := rfl
@[simp] theorem State.readMillis_outputs : (s.readMillis.2).outputs = s.outputs := rfl
@[simp] theorem State.readMillis_timeline : (s.readMillis.2).timeline = s.timeline := rfl

@[simp] theorem State.readMicros_dec : (s.readMicros.2).dec = s.dec := rfl
@[simp] theorem State.readMicros_tx : (s.readMicros.2).tx = s.tx := rfl
@[simp] theorem State.readMicros_txOthers : (s.readMicros.2).txOthers = s.txOthers := rfl
@[simp] theorem State.readMicros_priority : (s.readMicros.2).priority = s.priority := rfl
@[simp] theorem State.readMicros_userCallback : (s.readMicros.2).userCallback = s.userCallback := rfl
@[simp] theorem State.readMicros_micros : (s.readMicros.2).micros = s.readMicros.1 := rfl
@[simp] theorem State.readMicros_stuck : (s.readMicros.2).stuck = s.stuck := rfl
@[simp] theorem State.readMicros_millis : (s.readMicros.2).millis = s.millis := rfl
@[simp] theorem State.readMicros_draws : (s.readMicros.2).draws = s.draws + 1 := rfl
@[simp] theorem State.readMicros_outputs : (s.readMicros.2).outputs = s.outputs := rfl
@[simp] theorem State.readMicros_timeline : (s.readMicros.2).timeline = s.timeline := rfl

@[simp] theorem State.observeMillis_dec (now : Nat) : (s.observeMillis now).dec = s.dec := rfl
@[simp] theorem State.observeMillis_tx (now : Nat) : (s.observeMillis now).tx = s.tx := rfl
@[simp] theorem State.observeMillis_txOthers (now : Nat) : (s.observeMillis now).txOthers = s.txOthers := rfl
@[simp] theorem State.observeMillis_priority (now : Nat) : (s.observeMillis now).priority = s.priority := rfl
@[simp] theorem State.observeMillis_userCallback (now : Nat) : (s.observeMillis now).userCallback = s.userCallback := rfl
@[simp] theorem State.observeMillis_micros (now : Nat) : (s.observeMillis now).micros = s.micros := rfl
@[simp] theorem State.observeMillis_stuck (now : Nat) : (s.observeMillis now).stuck = s.stuck := rfl
@[simp] theorem State.observeMillis_millis (now : Nat) : (s.observeMillis now).millis = max s.millis now := rfl
@[simp] theorem State.observeMillis_draws (now : Nat) : (s.observeMillis now).draws = s.draws := rfl
@[simp] theorem State.observeMillis_outputs (now : Nat) : (s.observeMillis now).outputs = s.outputs := rfl
@[simp] theorem State.observeMillis_timeline (now : Nat) : (s.observeMillis now).timeline = s.timeline := rfl

/-! ## The transmitter -/

@[simp] theorem State.onTx_dec (f : Tx → Tx) : (s.onTx f).dec = s.dec := rfl
@[simp] theorem State.onTx_tx (f : Tx → Tx) : (s.onTx f).tx = f s.tx := rfl
@[simp] theorem State.onTx_txOthers (f : Tx → Tx) : (s.onTx f).txOthers = s.txOthers := rfl
@[simp] theorem State.onTx_priority (f : Tx → Tx) : (s.onTx f).priority = s.priority := rfl
@[simp] theorem State.onTx_userCallback (f : Tx → Tx) : (s.onTx f).userCallback = s.userCallback := rfl
@[simp] theorem State.onTx_micros (f : Tx → Tx) : (s.onTx f).micros = s.micros := rfl
@[simp] theorem State.onTx_stuck (f : Tx → Tx) : (s.onTx f).stuck = s.stuck := rfl
@[simp] theorem State.onTx_millis (f : Tx → Tx) : (s.onTx f).millis = s.millis := rfl
@[simp] theorem State.onTx_draws (f : Tx → Tx) : (s.onTx f).draws = s.draws := rfl
@[simp] theorem State.onTx_outputs (f : Tx → Tx) : (s.onTx f).outputs = s.outputs := rfl
@[simp] theorem State.onTx_timeline (f : Tx → Tx) : (s.onTx f).timeline = s.timeline := rfl

/-! ## An operation line placed on the timeline -/

@[simp] theorem State.issue_dec (line : Text) : (s.issue line).dec = s.dec := rfl
@[simp] theorem State.issue_tx (line : Text) : (s.issue line).tx = s.tx := rfl
@[simp] theorem State.issue_txOthers (line : Text) : (s.issue line).txOthers = s.txOthers := rfl
@[simp] theorem State.issue_priority (line : Text) : (s.issue line).priority = s.priority := rfl
@[simp] theorem State.issue_userCallback (line : Text) : (s.issue line).userCallback = s.userCallback := rfl
@[simp] theorem State.issue_micros (line : Text) : (s.issue line).micros = s.micros := rfl
@[simp] theorem State.issue_stuck (line : Text) : (s.issue line).stuck = s.stuck := rfl
@[simp] theorem State.issue_millis (line : Text) : (s.issue line).millis = s.millis := rfl
@[simp] theorem State.issue_draws (line : Text) : (s.issue line).draws = s.draws := rfl
@[simp] theorem State.issue_outputs (line : Text) : (s.issue line).outputs = s.outputs := rfl
@[simp] theorem State.issue_timeline (line : Text) : (s.issue line).timeline = .op line :: s.timeline := rfl

/-! ## An executor -/

@[simp] theorem State.setExecutor_dec (q : Queue) (e : Executor) : (s.setExecutor q e).dec = s.dec := by cases q <;> rfl
@[simp] theorem State.setExecutor_tx (q : Queue) (e : Executor) : (s.setExecutor q e).tx = s.tx := by cases q <;> rfl
@[simp] theorem State.setExecutor_txOthers (q : Queue) (e : Executor) : (s.setExecutor q e).txOthers = s.txOthers := by cases q <;> rfl
@[simp] theorem State.setExecutor_micros (q : Queue) (e : Executor) : (s.setExecutor q e).micros = s.micros := by cases q <;> rfl
@[simp] theorem State.setExecutor_stuck (q : Queue) (e : Executor) : (s.setExecutor q e).stuck = s.stuck := by cases q <;> rfl
@[simp] theorem State.setExecutor_millis (q : Queue) (e : Executor) : (s.setExecutor q e).millis = s.millis := by cases q <;> rfl
@[simp] theorem State.setExecutor_draws (q : Queue) (e : Executor) : (s.setExecutor q e).draws = s.draws := by cases q <;> rfl
@[simp] theorem State.setExecutor_outputs (q : Queue) (e : Executor) : (s.setExecutor q e).outputs = s.outputs := by cases q <;> rfl
@[simp] theorem State.setExecutor_timeline (q : Queue) (e : Executor) : (s.setExecutor q e).timeline = s.timeline := by cases q <;> rfl
@[simp] theorem State.setExecutor_priority_priority (e : Executor) : (s.setExecutor .priority e).priority = e := rfl
@[simp] theorem State.setExecutor_priority_userCallback (e : Executor) : (s.setExecutor .priority e).userCallback = s.userCallback := rfl
@[simp] theorem State.setExecutor_userCallback_userCallback (e : Executor) : (s.setExecutor .userCallback e).userCallback = e := rfl
@[simp] theorem State.setExecutor_userCallback_priority (e : Executor) : (s.setExecutor .userCallback e).priority = s.priority := rfl
@[simp] theorem State.executor_setExecutor (q : Queue) (e : Executor) : (s.setExecutor q e).executor q = e := by cases q <;> rfl

theorem State.executor_setExecutor_ne (e : Executor) {q r : Queue} (h : q ≠ r) : (s.setExecutor r e).executor q = s.executor q := by
  cases q <;> cases r <;> first | rfl | exact absurd rfl h

@[simp] theorem State.setExecutor_setExecutor (q : Queue) (e e' : Executor) : (s.setExecutor q e).setExecutor q e' = s.setExecutor q e' := by
  cases q <;> rfl

@[simp] theorem State.setExecutor_executor (q : Queue) : s.setExecutor q (s.executor q) = s := by cases q <;> rfl

@[simp] theorem State.executor_emit (q : Queue) (o : Output) : (s.emit o).executor q = s.executor q := by cases q <;> rfl
@[simp] theorem State.executor_readMillis (q : Queue) : s.readMillis.2.executor q = s.executor q := by cases q <;> rfl
@[simp] theorem State.executor_readMicros (q : Queue) : s.readMicros.2.executor q = s.executor q := by cases q <;> rfl
@[simp] theorem State.executor_observeMillis (q : Queue) (now : Nat) : (s.observeMillis now).executor q = s.executor q := by cases q <;> rfl
@[simp] theorem State.executor_onTx (q : Queue) (f : Tx → Tx) : (s.onTx f).executor q = s.executor q := by cases q <;> rfl
@[simp] theorem State.executor_withDec (q : Queue) (d : Dec) : State.executor q { s with dec := d } = s.executor q := by cases q <;> rfl
@[simp] theorem State.executor_withDraws (q : Queue) (n : Nat) : State.executor q { s with draws := n } = s.executor q := by cases q <;> rfl
@[simp] theorem State.executor_withTimeline (q : Queue) (l : List Event) : State.executor q { s with timeline := l } = s.executor q := by
  cases q <;> rfl

@[simp] theorem State.executor_withStuck (q : Queue) (b : Bool) : State.executor q { s with stuck := b } = s.executor q := by
  cases q <;> rfl

/-- Clock readings never go back (R242). -/
theorem State.le_readMillis : s.millis ≤ s.readMillis.1 := Nat.le_add_right _ _

theorem State.le_readMicros : s.micros ≤ s.readMicros.1 := Nat.le_add_right _ _

/-! ## The decoder record -/

variable (d : Dec)

@[simp] theorem Dec.flush_protocol : (d.flush).protocol = d.protocol := rfl
@[simp] theorem Dec.flush_rxPin : (d.flush).rxPin = d.rxPin := rfl
@[simp] theorem Dec.flush_bitsReceived : (d.flush).bitsReceived = 0 := rfl
@[simp] theorem Dec.flush_accumulator : (d.flush).accumulator = 0 := rfl
@[simp] theorem Dec.flush_lastDatagram : (d.flush).lastDatagram = d.accumulator := rfl
@[simp] theorem Dec.flush_maxBitsReceived : (d.flush).maxBitsReceived = d.maxBitsReceived := rfl
@[simp] theorem Dec.flush_markLatch : (d.flush).markLatch = d.markLatch := rfl
@[simp] theorem Dec.flush_activeCommand : (d.flush).activeCommand = d.activeCommand := rfl
@[simp] theorem Dec.flush_repeatDeadline : (d.flush).repeatDeadline = d.repeatDeadline := rfl
@[simp] theorem Dec.flush_hasUnreadDatagram : (d.flush).hasUnreadDatagram = d.hasUnreadDatagram := rfl
@[simp] theorem Dec.flush_pressHandlers : (d.flush).pressHandlers = d.pressHandlers := rfl
@[simp] theorem Dec.flush_releaseHandlers : (d.flush).releaseHandlers = d.releaseHandlers := rfl
@[simp] theorem Dec.flush_datagramHandler : (d.flush).datagramHandler = d.datagramHandler := rfl
@[simp] theorem Dec.flush_pollRegistered : (d.flush).pollRegistered = d.pollRegistered := rfl

@[simp] theorem Dec.clearAccumulator_protocol : (d.clearAccumulator).protocol = d.protocol := rfl
@[simp] theorem Dec.clearAccumulator_rxPin : (d.clearAccumulator).rxPin = d.rxPin := rfl
@[simp] theorem Dec.clearAccumulator_bitsReceived : (d.clearAccumulator).bitsReceived = 0 := rfl
@[simp] theorem Dec.clearAccumulator_accumulator : (d.clearAccumulator).accumulator = 0 := rfl
@[simp] theorem Dec.clearAccumulator_lastDatagram : (d.clearAccumulator).lastDatagram = d.lastDatagram := rfl
@[simp] theorem Dec.clearAccumulator_maxBitsReceived : (d.clearAccumulator).maxBitsReceived = d.maxBitsReceived := rfl
@[simp] theorem Dec.clearAccumulator_markLatch : (d.clearAccumulator).markLatch = d.markLatch := rfl
@[simp] theorem Dec.clearAccumulator_activeCommand : (d.clearAccumulator).activeCommand = d.activeCommand := rfl
@[simp] theorem Dec.clearAccumulator_repeatDeadline : (d.clearAccumulator).repeatDeadline = d.repeatDeadline := rfl
@[simp] theorem Dec.clearAccumulator_hasUnreadDatagram : (d.clearAccumulator).hasUnreadDatagram = d.hasUnreadDatagram := rfl
@[simp] theorem Dec.clearAccumulator_pressHandlers : (d.clearAccumulator).pressHandlers = d.pressHandlers := rfl
@[simp] theorem Dec.clearAccumulator_releaseHandlers : (d.clearAccumulator).releaseHandlers = d.releaseHandlers := rfl
@[simp] theorem Dec.clearAccumulator_datagramHandler : (d.clearAccumulator).datagramHandler = d.datagramHandler := rfl
@[simp] theorem Dec.clearAccumulator_pollRegistered : (d.clearAccumulator).pollRegistered = d.pollRegistered := rfl

@[simp] theorem Dec.noteMax_protocol : (d.noteMax).protocol = d.protocol := rfl
@[simp] theorem Dec.noteMax_rxPin : (d.noteMax).rxPin = d.rxPin := rfl
@[simp] theorem Dec.noteMax_bitsReceived : (d.noteMax).bitsReceived = d.bitsReceived := rfl
@[simp] theorem Dec.noteMax_accumulator : (d.noteMax).accumulator = d.accumulator := rfl
@[simp] theorem Dec.noteMax_lastDatagram : (d.noteMax).lastDatagram = d.lastDatagram := rfl
@[simp] theorem Dec.noteMax_maxBitsReceived : (d.noteMax).maxBitsReceived = max d.maxBitsReceived d.bitsReceived := rfl
@[simp] theorem Dec.noteMax_markLatch : (d.noteMax).markLatch = d.markLatch := rfl
@[simp] theorem Dec.noteMax_activeCommand : (d.noteMax).activeCommand = d.activeCommand := rfl
@[simp] theorem Dec.noteMax_repeatDeadline : (d.noteMax).repeatDeadline = d.repeatDeadline := rfl
@[simp] theorem Dec.noteMax_hasUnreadDatagram : (d.noteMax).hasUnreadDatagram = d.hasUnreadDatagram := rfl
@[simp] theorem Dec.noteMax_pressHandlers : (d.noteMax).pressHandlers = d.pressHandlers := rfl
@[simp] theorem Dec.noteMax_releaseHandlers : (d.noteMax).releaseHandlers = d.releaseHandlers := rfl
@[simp] theorem Dec.noteMax_datagramHandler : (d.noteMax).datagramHandler = d.datagramHandler := rfl
@[simp] theorem Dec.noteMax_pollRegistered : (d.noteMax).pollRegistered = d.pollRegistered := rfl

@[simp] theorem Dec.setUnread_protocol : (d.setUnread).protocol = d.protocol := rfl
@[simp] theorem Dec.setUnread_rxPin : (d.setUnread).rxPin = d.rxPin := rfl
@[simp] theorem Dec.setUnread_bitsReceived : (d.setUnread).bitsReceived = d.bitsReceived := rfl
@[simp] theorem Dec.setUnread_accumulator : (d.setUnread).accumulator = d.accumulator := rfl
@[simp] theorem Dec.setUnread_lastDatagram : (d.setUnread).lastDatagram = d.lastDatagram := rfl
@[simp] theorem Dec.setUnread_maxBitsReceived : (d.setUnread).maxBitsReceived = d.maxBitsReceived := rfl
@[simp] theorem Dec.setUnread_markLatch : (d.setUnread).markLatch = d.markLatch := rfl
@[simp] theorem Dec.setUnread_activeCommand : (d.setUnread).activeCommand = d.activeCommand := rfl
@[simp] theorem Dec.setUnread_repeatDeadline : (d.setUnread).repeatDeadline = d.repeatDeadline := rfl
@[simp] theorem Dec.setUnread_hasUnreadDatagram : (d.setUnread).hasUnreadDatagram = true := rfl
@[simp] theorem Dec.setUnread_pressHandlers : (d.setUnread).pressHandlers = d.pressHandlers := rfl
@[simp] theorem Dec.setUnread_releaseHandlers : (d.setUnread).releaseHandlers = d.releaseHandlers := rfl
@[simp] theorem Dec.setUnread_datagramHandler : (d.setUnread).datagramHandler = d.datagramHandler := rfl
@[simp] theorem Dec.setUnread_pollRegistered : (d.setUnread).pollRegistered = d.pollRegistered := rfl

@[simp] theorem Dec.clearUnread_protocol : (d.clearUnread).protocol = d.protocol := rfl
@[simp] theorem Dec.clearUnread_rxPin : (d.clearUnread).rxPin = d.rxPin := rfl
@[simp] theorem Dec.clearUnread_bitsReceived : (d.clearUnread).bitsReceived = d.bitsReceived := rfl
@[simp] theorem Dec.clearUnread_accumulator : (d.clearUnread).accumulator = d.accumulator := rfl
@[simp] theorem Dec.clearUnread_lastDatagram : (d.clearUnread).lastDatagram = d.lastDatagram := rfl
@[simp] theorem Dec.clearUnread_maxBitsReceived : (d.clearUnread).maxBitsReceived = d.maxBitsReceived := rfl
@[simp] theorem Dec.clearUnread_markLatch : (d.clearUnread).markLatch = d.markLatch := rfl
@[simp] theorem Dec.clearUnread_activeCommand : (d.clearUnread).activeCommand = d.activeCommand := rfl
@[simp] theorem Dec.clearUnread_repeatDeadline : (d.clearUnread).repeatDeadline = d.repeatDeadline := rfl
@[simp] theorem Dec.clearUnread_hasUnreadDatagram : (d.clearUnread).hasUnreadDatagram = false := rfl
@[simp] theorem Dec.clearUnread_pressHandlers : (d.clearUnread).pressHandlers = d.pressHandlers := rfl
@[simp] theorem Dec.clearUnread_releaseHandlers : (d.clearUnread).releaseHandlers = d.releaseHandlers := rfl
@[simp] theorem Dec.clearUnread_datagramHandler : (d.clearUnread).datagramHandler = d.datagramHandler := rfl
@[simp] theorem Dec.clearUnread_pollRegistered : (d.clearUnread).pollRegistered = d.pollRegistered := rfl

/-! ## The transmitter record -/

variable (t : Tx)

@[simp] theorem Tx.drive_ready (l : Level) : (t.drive l).ready = t.ready := rfl
@[simp] theorem Tx.drive_pin (l : Level) : (t.drive l).pin = t.pin := rfl
@[simp] theorem Tx.drive_level (l : Level) : (t.drive l).level = l := rfl
@[simp] theorem Tx.drive_pwmPeriod (l : Level) : (t.drive l).pwmPeriod = t.pwmPeriod := rfl
@[simp] theorem Tx.drive_waitCorrection (l : Level) : (t.drive l).waitCorrection = t.waitCorrection := rfl
@[simp] theorem Tx.drive_trace (l : Level) : (t.drive l).trace = t.trace ++ [.drive l] := rfl
@[simp] theorem Tx.drive_actual (l : Level) : (t.drive l).actual = t.actual := rfl
@[simp] theorem Tx.drive_serial (l : Level) : (t.drive l).serial = t.serial := rfl

@[simp] theorem Tx.wait_ready (n : Int) : (t.wait n).ready = t.ready := rfl
@[simp] theorem Tx.wait_pin (n : Int) : (t.wait n).pin = t.pin := rfl
@[simp] theorem Tx.wait_level (n : Int) : (t.wait n).level = t.level := rfl
@[simp] theorem Tx.wait_pwmPeriod (n : Int) : (t.wait n).pwmPeriod = t.pwmPeriod := rfl
@[simp] theorem Tx.wait_waitCorrection (n : Int) : (t.wait n).waitCorrection = t.waitCorrection := rfl
@[simp] theorem Tx.wait_trace (n : Int) : (t.wait n).trace = t.trace ++ [.wait n] := rfl
@[simp] theorem Tx.wait_actual (n : Int) : (t.wait n).actual = t.actual ++ [max n 0 + Config.overhead t.serial t.actual.length] := rfl
@[simp] theorem Tx.wait_serial (n : Int) : (t.wait n).serial = t.serial := rfl

/-! ## An executor record -/

variable (e : Executor)

@[simp] theorem Executor.submit_created (j : Job) : (e.submit j).created = e.created := rfl
@[simp] theorem Executor.submit_live (j : Job) : (e.submit j).live = e.live := rfl
@[simp] theorem Executor.submit_pendingAdd (j : Job) : (e.submit j).pendingAdd = e.pendingAdd ++ [j] := rfl
@[simp] theorem Executor.submit_pendingCancel (j : Job) : (e.submit j).pendingCancel = e.pendingCancel := rfl
@[simp] theorem Executor.submit_interval (j : Job) : (e.submit j).interval = if j.mode = .recurring then min e.interval (Decimal.floor j.delay) else e.interval := rfl
@[simp] theorem Executor.submit_lastIteration (j : Job) : (e.submit j).lastIteration = e.lastIteration := rfl
@[simp] theorem Executor.submit_wake (j : Job) : (e.submit j).wake = e.wake := rfl
@[simp] theorem Executor.submit_iteration (j : Job) : (e.submit j).iteration = e.iteration := rfl

@[simp] theorem Executor.settle_created : e.settle.created = e.created := rfl
@[simp] theorem Executor.settle_live : e.settle.live = e.settledJobs := rfl
@[simp] theorem Executor.settle_pendingAdd : e.settle.pendingAdd = [] := rfl
@[simp] theorem Executor.settle_pendingCancel : e.settle.pendingCancel = [] := rfl
@[simp] theorem Executor.settle_interval : e.settle.interval = e.interval := rfl
@[simp] theorem Executor.settle_lastIteration : e.settle.lastIteration = e.lastIteration := rfl
@[simp] theorem Executor.settle_wake : e.settle.wake = e.wake := rfl
@[simp] theorem Executor.settle_iteration : e.settle.iteration = e.iteration := rfl

end Sys2Proof.Machine
end

