-- ==== Sys2Proof/Laws/Ops.lean ====
section
/-!
SUPPORT. What each shared operation can do, said once: TX, DEC, the job queues, the dispatcher.
-/

namespace Sys2Proof.Machine

/-! ## TX -/

/-- `t'` is `t` after it put `items` on its trace: everything else of the record is kept, but for the level, which ends at
`l`, and one actual duration per wait. -/
structure Tx.Emits (items : List TraceItem) (l : Level) (t t' : Tx) : Prop where
  trace : t'.trace = t.trace ++ items
  level : t'.level = l
  ready : t'.ready = t.ready
  pin : t'.pin = t.pin
  pwmPeriod : t'.pwmPeriod = t.pwmPeriod
  waitCorrection : t'.waitCorrection = t.waitCorrection
  serial : t'.serial = t.serial
  actual : ∃ ds : List Int, t'.actual = t.actual ++ ds ∧ ds.length = items.countP TraceItem.isWait

theorem Tx.Emits.trans {a b : List TraceItem} {l m : Level} {t u v : Tx} (h : Tx.Emits a l t u) (k : Tx.Emits b m u v) :
    Tx.Emits (a ++ b) m t v := by
  obtain ⟨ds, hd, hl⟩ := h.actual
  obtain ⟨es, he, hm⟩ := k.actual
  exact ⟨by rw [k.trace, h.trace, List.append_assoc], k.level, k.ready.trans h.ready, k.pin.trans h.pin,
    k.pwmPeriod.trans h.pwmPeriod, k.waitCorrection.trans h.waitCorrection, k.serial.trans h.serial,
    ds ++ es, by rw [he, hd, List.append_assoc], by simp [hl, hm]⟩

theorem Tx.pulse_emits (h l : Int) (t : Tx) : Tx.Emits (pulseTrace h l) .space t (t.pulse h l) :=
  ⟨by simp [Tx.pulse, pulseTrace], rfl, rfl, rfl, rfl, rfl, rfl,
    [max h 0 + Config.overhead t.serial t.actual.length, max l 0 + Config.overhead t.serial (t.actual.length + 1)],
    by simp [Tx.pulse], rfl⟩

theorem Tx.dataBit_eq_pulse (b : Bool) (t : Tx) :
    t.dataBit b = t.pulse (610 - t.waitCorrection) (if b then 1640 - t.waitCorrection else 510 - t.waitCorrection) := by
  cases b <;> simp [Tx.dataBit, BIT_MARK, BIAS, ONE_SPACE, ZERO_SPACE] <;> congr 1 <;> omega

theorem Tx.dataBits_emits (n v : Nat) (t : Tx) (ht : t.level = .space) :
    Tx.Emits (dataTrace t.waitCorrection n v) .space t (Tx.dataBits n v t) := by
  induction n generalizing t with
  | zero => exact ⟨by simp [dataTrace, Tx.dataBits], ht, rfl, rfl, rfl, rfl, rfl, [], by simp [Tx.dataBits], rfl⟩
  | succ n ih =>
    have h := Tx.pulse_emits (610 - t.waitCorrection)
      (if v.testBit n then 1640 - t.waitCorrection else 510 - t.waitCorrection) t
    have k := ih _ h.level
    rw [h.waitCorrection] at k
    simpa only [Tx.dataBits, dataTrace, Tx.dataBit_eq_pulse] using h.trans k

/-- A frame puts the frame's trace on the trace, and nothing else (R135, R141). -/
theorem Tx.frame_emits (n v : Nat) (t : Tx) : Tx.Emits (frameTrace t.waitCorrection n v) .space t (t.frame n v) := by
  have h := Tx.pulse_emits (9000 - t.waitCorrection) (4500 - t.waitCorrection) t
  have k := Tx.dataBits_emits n v _ h.level
  rw [h.waitCorrection] at k
  exact (h.trans k).trans (Tx.pulse_emits 560 0 _)

theorem Tx.pulses_emits (h l : Int) (n : Nat) (t : Tx) (ht : n = 0 → t.level = .space) :
    Tx.Emits (List.replicate n (pulseTrace h l)).flatten .space t (Tx.pulses h l n t) := by
  induction n generalizing t with
  | zero => exact ⟨by simp [Tx.pulses], ht rfl, rfl, rfl, rfl, rfl, rfl, [], by simp [Tx.pulses], rfl⟩
  | succ n ih =>
    have k := Tx.pulse_emits h l t
    rw [List.replicate_succ, List.flatten_cons]
    exact k.trans (ih _ fun _ => k.level)

theorem Tx.Emits.sound {items : List TraceItem} {t t' : Tx} (h : Tx.Emits items .space t t') (ht : t.Sound) : t'.Sound := by
  obtain ⟨ds, hd, hl⟩ := h.actual
  exact ⟨fun hr => ⟨h.level, h.pwmPeriod.trans (ht.1 (h.ready ▸ hr)).2⟩, by rw [hd, h.trace, List.length_append, List.countP_append, ht.2, hl]⟩

/-! ## DEC -/

theorem Dec.append_incomplete (b : Bool) (d : Dec) (h : d.bitsReceived ≠ 63) :
    d.append b = ({ d with
      accumulator := (d.accumulator <<< 1) ||| (if b then 1#64 else 0#64), bitsReceived := d.bitsReceived + 1 }, .incomplete) := by
  simp [Dec.append, ACC_WIDTH, h]

theorem Dec.append_complete (b : Bool) (d : Dec) (h : d.bitsReceived = 63) :
    d.append b = ({ d with
      lastDatagram := (d.accumulator <<< 1) ||| (if b then 1#64 else 0#64), accumulator := 0, bitsReceived := 0 }, .datagram) := by
  simp [Dec.append, ACC_WIDTH, h, Dec.flush]

/-- The signal of a class is the one R71 tabulates. -/
theorem Dec.perform_signal (c : PairClass) (d : Dec) : (d.perform c).2 = rowSignal c d.bitsReceived := by
  cases c <;> simp only [Dec.perform, rowSignal]
  all_goals
    by_cases h : d.bitsReceived = 63
    · simp [Dec.append_complete, h]
    · simp [Dec.append_incomplete, h]

/-- The registers a pair may change (R47): every other field of `dec` is kept by every class. -/
theorem Dec.perform_frame (c : PairClass) (d : Dec) :
    (d.perform c).1 = { d with
      bitsReceived := (d.perform c).1.bitsReceived, accumulator := (d.perform c).1.accumulator,
      lastDatagram := (d.perform c).1.lastDatagram, maxBitsReceived := (d.perform c).1.maxBitsReceived } := by
  cases c <;> simp only [Dec.perform] <;> try rfl
  all_goals
    by_cases h : d.bitsReceived = 63
    · simp [Dec.append_complete, h]
    · simp [Dec.append_incomplete, h]

/-- `classify` picks the row of R71 that the pair selects, and only that one. -/
theorem classify_eq_iff (d bits : Nat) (c : PairClass) : classify d bits = c ↔ RowSelects c d bits := by
  unfold classify T_BIT1 T_LONG T_HDR_LO T_HDR_HI
  cases c <;> simp only [RowSelects] <;> split_ifs <;>
    first
    | exact ⟨fun _ => (by omega), fun _ => rfl⟩
    | exact ⟨(nomatch ·), fun _ => by omega⟩

/-- The condition of a class row as an operation is the row's condition in R71. -/
theorem inRange_accOk (c : PairClass) (d bits : Nat) :
    (PairClass.inRange c d && PairClass.accOk c bits) = true ↔ RowSelects c d bits := by
  simp only [PairClass.inRange, PairClass.accOk, Bool.and_eq_true, decide_eq_true_eq]
  cases c <;> simp [PairClass.range, RowSelects, T_BIT1, T_LONG, T_HDR_LO, T_HDR_HI] <;> omega

/-! ## The job queues -/

/-- The executor that a first use finds or makes (R200). -/
def State.firstUse (q : Queue) (s : State) : Executor :=
  if (s.executor q).created then s.executor q
  else { Executor.reset with created := true, lastIteration := s.readMillis.1, wake := s.readMillis.1 }

theorem State.withExecutor_executor (q : Queue) (s : State) : (s.withExecutor q).executor q = s.firstUse q := by
  unfold State.withExecutor State.firstUse; split <;> simp

theorem State.withExecutor_created (q : Queue) (s : State) (h : (s.executor q).created = true) : s.withExecutor q = s := by
  simp [State.withExecutor, h]

theorem State.withExecutor_other {q r : Queue} (s : State) (h : q ≠ r) : (s.withExecutor r).executor q = s.executor q := by
  unfold State.withExecutor
  split
  · rfl
  · simp [State.executor_setExecutor_ne _ _ h]

@[simp] theorem State.withExecutor_dec (q : Queue) (s : State) : (s.withExecutor q).dec = s.dec := by
  unfold State.withExecutor; split <;> simp
@[simp] theorem State.withExecutor_tx (q : Queue) (s : State) : (s.withExecutor q).tx = s.tx := by
  unfold State.withExecutor; split <;> simp
@[simp] theorem State.withExecutor_txOthers (q : Queue) (s : State) : (s.withExecutor q).txOthers = s.txOthers := by
  unfold State.withExecutor; split <;> simp
@[simp] theorem State.withExecutor_micros (q : Queue) (s : State) : (s.withExecutor q).micros = s.micros := by
  unfold State.withExecutor; split <;> simp
@[simp] theorem State.withExecutor_stuck (q : Queue) (s : State) : (s.withExecutor q).stuck = s.stuck := by
  unfold State.withExecutor; split <;> simp
@[simp] theorem State.withExecutor_outputs (q : Queue) (s : State) : (s.withExecutor q).outputs = s.outputs := by
  unfold State.withExecutor; split <;> simp
@[simp] theorem State.withExecutor_timeline (q : Queue) (s : State) : (s.withExecutor q).timeline = s.timeline := by
  unfold State.withExecutor; split <;> simp
theorem State.withExecutor_millis (q : Queue) (s : State) : s.millis ≤ (s.withExecutor q).millis := by
  unfold State.withExecutor; split <;> simp [State.le_readMillis]

section
variable (q : Queue) (c : Callback) (m : Mode) (d : Decimal) (s : State)

@[simp] theorem State.enqueue_id : (s.enqueue q c m d).1 = Config.jobId s.draws := rfl
@[simp] theorem State.enqueue_dec : (s.enqueue q c m d).2.dec = s.dec := by simp [State.enqueue]
@[simp] theorem State.enqueue_tx : (s.enqueue q c m d).2.tx = s.tx := by simp [State.enqueue]
@[simp] theorem State.enqueue_txOthers : (s.enqueue q c m d).2.txOthers = s.txOthers := by simp [State.enqueue]
@[simp] theorem State.enqueue_micros : (s.enqueue q c m d).2.micros = s.micros := by simp [State.enqueue]
@[simp] theorem State.enqueue_stuck : (s.enqueue q c m d).2.stuck = s.stuck := by simp [State.enqueue]
@[simp] theorem State.enqueue_outputs : (s.enqueue q c m d).2.outputs = s.outputs := by simp [State.enqueue]
@[simp] theorem State.enqueue_timeline : (s.enqueue q c m d).2.timeline = s.timeline := by simp [State.enqueue]

theorem State.enqueue_millis : s.millis ≤ (s.enqueue q c m d).2.millis := by
  simpa [State.enqueue] using State.withExecutor_millis q { s with draws := s.draws + 1 }

/-- An accepted submission joins the queue's pending additions, in an executor that its first use makes (R200, R204). -/
theorem State.enqueue_executor :
    (s.enqueue q c m d).2.executor q =
      (State.firstUse q { s with draws := s.draws + 1 }).submit (Job.new (Config.jobId s.draws) c m d) := by
  simp [State.enqueue, State.withExecutor_executor]

theorem State.enqueue_created (h : (s.executor q).created = true) :
    (s.enqueue q c m d).2 = State.setExecutor q ((s.executor q).submit (Job.new (Config.jobId s.draws) c m d))
      { s with draws := s.draws + 1 } := by
  simp [State.enqueue, State.withExecutor_created, h]

theorem State.enqueue_other {r : Queue} (h : r ≠ q) : (s.enqueue q c m d).2.executor r = s.executor r := by
  simp [State.enqueue, State.executor_setExecutor_ne _ _ h, State.withExecutor_other _ h]
end

/-- What the dispatcher keeps: everything but `dec`, the UserCallback executor, the clock and the draws. -/
structure State.KeepsButQueue (s t : State) : Prop where
  tx : t.tx = s.tx
  txOthers : t.txOthers = s.txOthers
  priority : t.priority = s.priority
  micros : t.micros = s.micros
  outputs : t.outputs = s.outputs
  timeline : t.timeline = s.timeline
  stuck : t.stuck = s.stuck
  millis : s.millis ≤ t.millis

theorem State.KeepsButQueue.refl (s : State) : State.KeepsButQueue s s := ⟨rfl, rfl, rfl, rfl, rfl, rfl, rfl, le_refl _⟩

theorem State.KeepsButQueue.trans {s t u : State} (h : State.KeepsButQueue s t) (k : State.KeepsButQueue t u) :
    State.KeepsButQueue s u :=
  ⟨k.tx.trans h.tx, k.txOthers.trans h.txOthers, k.priority.trans h.priority, k.micros.trans h.micros,
    k.outputs.trans h.outputs, k.timeline.trans h.timeline, k.stuck.trans h.stuck, h.millis.trans k.millis⟩

theorem State.enqueueUser_keeps (c : Callback) (s : State) : State.KeepsButQueue s (s.enqueueUser c) :=
  ⟨by simp [State.enqueueUser], by simp [State.enqueueUser],
    State.enqueue_other .userCallback c .once _ s (r := .priority) (by decide), by simp [State.enqueueUser],
    by simp [State.enqueueUser], by simp [State.enqueueUser], by simp [State.enqueueUser], State.enqueue_millis _ _ _ _ _⟩

theorem State.enqueueUser?_keeps (c : Option Callback) (s : State) : State.KeepsButQueue s (s.enqueueUser? c) := by
  cases c with
  | none => exact .refl s
  | some c => exact State.enqueueUser_keeps c s

@[simp] theorem State.enqueueUser_dec (c : Callback) (s : State) : (s.enqueueUser c).dec = s.dec := by simp [State.enqueueUser]

@[simp] theorem State.enqueueUser?_dec (c : Option Callback) (s : State) : (s.enqueueUser? c).dec = s.dec := by
  cases c <;> simp [State.enqueueUser?]

/-- An enqueued user callback waits last, with mode Once and delay 0; the executor is kept otherwise, but for its creation on
first use (R171, R204). -/
theorem State.enqueueUser_executor (c : Callback) (s : State) :
    (s.enqueueUser c).userCallback =
      (State.firstUse .userCallback { s with draws := s.draws + 1 }).submit
        (Job.new (Config.jobId s.draws) c .once (Decimal.ofNat 0)) :=
  State.enqueue_executor .userCallback c .once _ s

/-- The executor is as at reset, or created; so nothing waits in one that is not created. -/
def Executor.Clean (e : Executor) : Prop := e.created = false → e = Executor.reset

/-- What the dispatcher does to the UserCallback executor (R171, R204): `cs` wait last, in that order, each Once with delay 0,
and nothing else of it changes, but for its creation on first use. -/
structure Executor.Queued (cs : List Callback) (e e' : Executor) : Prop where
  live : e'.live = e.live
  pendingCancel : e'.pendingCancel = e.pendingCancel
  interval : e'.interval = e.interval
  iteration : e'.iteration = e.iteration
  created : e.created = true → e'.created = true ∧ e'.lastIteration = e.lastIteration ∧ e'.wake = e.wake
  clean : e'.Clean
  pendingAdd : ∃ js : List Job, e'.pendingAdd = e.pendingAdd ++ js ∧ js.map Job.callback = cs ∧
    ∀ j ∈ js, j.mode = .once ∧ j.delay = Decimal.ofNat 0 ∧ j.remaining = Decimal.ofNat 0 ∧ j.marked = false

theorem Executor.Queued.nil {e : Executor} (h : e.Clean) : Executor.Queued [] e e :=
  ⟨rfl, rfl, rfl, rfl, fun h => ⟨h, rfl, rfl⟩, h, [], by simp, rfl, by simp⟩

theorem Executor.Queued.trans {cs ds : List Callback} {e f g : Executor} (h : Executor.Queued cs e f)
    (k : Executor.Queued ds f g) : Executor.Queued (cs ++ ds) e g := by
  obtain ⟨js, hj, hc, hp⟩ := h.pendingAdd
  obtain ⟨ks, kj, kc, kp⟩ := k.pendingAdd
  refine ⟨k.live.trans h.live, k.pendingCancel.trans h.pendingCancel, k.interval.trans h.interval,
    k.iteration.trans h.iteration, fun hc => ?_, k.clean, js ++ ks, by rw [kj, hj, List.append_assoc], by simp [hc, kc], ?_⟩
  · obtain ⟨h1, h2, h3⟩ := h.created hc
    obtain ⟨k1, k2, k3⟩ := k.created h1
    exact ⟨k1, k2.trans h2, k3.trans h3⟩
  · intro j hm
    rcases List.mem_append.mp hm with hm | hm
    · exact hp j hm
    · exact kp j hm

theorem State.enqueueUser_queued (c : Callback) (s : State) (h : s.userCallback.Clean) :
    Executor.Queued [c] s.userCallback (s.enqueueUser c).userCallback := by
  rw [State.enqueueUser_executor]
  cases hc : s.userCallback.created with
  | true =>
    have hf : State.firstUse .userCallback { s with draws := s.draws + 1 } = s.userCallback := by
      simp [State.firstUse, State.executor, hc]
    rw [hf]
    refine ⟨rfl, rfl, by simp [Job.new], rfl, fun _ => ⟨hc, rfl, rfl⟩, fun hn => ?_,
      [Job.new (Config.jobId s.draws) c .once (Decimal.ofNat 0)], rfl, rfl, by simp [Job.new]⟩
    simp [hc] at hn
  | false =>
    have hr : s.userCallback = Executor.reset := h hc
    have hf : (State.firstUse .userCallback { s with draws := s.draws + 1 }).created = true := by
      simp [State.firstUse, State.executor, hc]
    refine ⟨?_, ?_, ?_, ?_, fun hn => by simp [hc] at hn, fun hn => by simp [hf] at hn,
      [Job.new (Config.jobId s.draws) c .once (Decimal.ofNat 0)], ?_, rfl, by simp [Job.new]⟩ <;>
      simp [State.firstUse, State.executor, hr, Executor.reset, Job.new]

theorem State.enqueueUser?_queued (c : Option Callback) (s : State) (h : s.userCallback.Clean) :
    Executor.Queued c.toList s.userCallback (s.enqueueUser? c).userCallback := by
  cases c with
  | none => exact .nil h
  | some c => exact State.enqueueUser_queued c s h

/-! ## The dispatcher -/

theorem State.switchButton_spec (n : Int) (s : State) :
    State.KeepsButQueue s (s.switchButton n) ∧ (s.switchButton n).dec = { s.dec with activeCommand := n } ∧
      (s.userCallback.Clean →
        Executor.Queued (switchCallbacks s.dec n) s.userCallback (s.switchButton n).userCallback) := by
  unfold State.switchButton switchCallbacks
  split
  case isTrue h => exact ⟨.refl s, by rw [h], .nil⟩
  case isFalse h =>
    split
    case isTrue ha =>
      have hk := State.enqueueUser?_keeps (matchHandler s.dec.pressHandlers n) s
      refine ⟨⟨hk.tx, hk.txOthers, hk.priority, hk.micros, hk.outputs, hk.timeline, hk.stuck, hk.millis⟩, by simp, fun hc => ?_⟩
      simpa using State.enqueueUser?_queued (matchHandler s.dec.pressHandlers n) s hc
    case isFalse ha =>
      have hk := (State.enqueueUser?_keeps (matchHandler s.dec.releaseHandlers s.dec.activeCommand) s).trans
        (State.enqueueUser?_keeps (matchHandler s.dec.pressHandlers n) _)
      refine ⟨⟨?_, ?_, ?_, ?_, ?_, ?_, ?_, ?_⟩, by simp, fun hc => ?_⟩
      · simpa using hk.tx
      · simpa using hk.txOthers
      · simpa using hk.priority
      · simpa using hk.micros
      · simpa using hk.outputs
      · simpa using hk.timeline
      · simpa using hk.stuck
      · simpa using hk.millis
      · have h1 := State.enqueueUser?_queued (matchHandler s.dec.releaseHandlers s.dec.activeCommand) s hc
        have h2 := State.enqueueUser?_queued (matchHandler s.dec.pressHandlers n) _ h1.clean
        simpa using h1.trans h2

/-- What a signal does to `dec` (R171). -/
def handleDec (sig : Signal) (now : Nat) (d : Dec) : Dec :=
  match sig with
  | .datagram =>
    { d with repeatDeadline := now + 220, hasUnreadDatagram := true, activeCommand := CMDX d.lastDatagram }
  | .repeatCode => { d with repeatDeadline := now + 220 }
  | .incomplete => d

theorem State.handle_spec (sig : Signal) (now : Nat) (s : State) :
    State.KeepsButQueue s (s.handle sig now) ∧ (s.handle sig now).dec = handleDec sig now s.dec ∧
      (s.userCallback.Clean →
        Executor.Queued (handleCallbacks sig s.dec) s.userCallback (s.handle sig now).userCallback) := by
  cases sig with
  | incomplete => exact ⟨.refl s, rfl, .nil⟩
  | repeatCode => exact ⟨⟨rfl, rfl, rfl, rfl, rfl, rfl, rfl, le_refl _⟩, rfl, .nil⟩
  | datagram =>
    unfold State.handle handleDec handleCallbacks
    simp only []
    have hk := State.enqueueUser?_keeps s.dec.datagramHandler
      { s with dec := { s.dec with repeatDeadline := now + REPEAT_TIMEOUT_MS }.setUnread }
    obtain ⟨k1, k2, k3⟩ := State.switchButton_spec (CMDX s.dec.lastDatagram) (State.enqueueUser?
      s.dec.datagramHandler { s with dec := { s.dec with repeatDeadline := now + REPEAT_TIMEOUT_MS }.setUnread })
    simp only [State.enqueueUser?_dec, Dec.setUnread_datagramHandler, Dec.setUnread_lastDatagram] at k1 k2 k3 ⊢
    refine ⟨?_, k2, fun hc => ?_⟩
    · have := hk.trans k1
      exact ⟨this.tx, this.txOthers, this.priority, this.micros, this.outputs, this.timeline, this.stuck, this.millis⟩
    · have h1 := State.enqueueUser?_queued s.dec.datagramHandler
        { s with dec := { s.dec with repeatDeadline := now + REPEAT_TIMEOUT_MS }.setUnread } hc
      exact h1.trans (k3 h1.clean)

/-- The condition of a release by timeout (R175). -/
def pollActs (now : Nat) (d : Dec) : Prop := d.activeCommand ≠ NO_BUTTON ∧ d.repeatDeadline < now

theorem State.poll_idle (now : Nat) (s : State) (h : ¬ pollActs now s.dec) : s.poll now = s := if_neg h

theorem State.poll_acts (now : Nat) (s : State) (h : pollActs now s.dec) :
    State.KeepsButQueue s (s.poll now) ∧
      (s.poll now).dec = { s.dec with accumulator := 0, bitsReceived := 0, activeCommand := NO_BUTTON } ∧
      (s.userCallback.Clean → Executor.Queued (matchHandler s.dec.releaseHandlers s.dec.activeCommand).toList
        s.userCallback (s.poll now).userCallback) := by
  have he : s.poll now = { s.enqueueUser? (matchHandler s.dec.releaseHandlers s.dec.activeCommand) with
      dec := { s.dec with accumulator := 0, bitsReceived := 0, activeCommand := NO_BUTTON } } := by
    rw [State.poll, if_pos (show _ ∧ _ from h)]; simp [Dec.clearAccumulator]
  have hk := State.enqueueUser?_keeps (matchHandler s.dec.releaseHandlers s.dec.activeCommand) s
  rw [he]
  exact ⟨⟨hk.tx, hk.txOthers, hk.priority, hk.micros, hk.outputs, hk.timeline, hk.stuck, hk.millis⟩, rfl,
    fun hc => State.enqueueUser?_queued _ s hc⟩

/-- Every poll (R175): it touches `dec`, the UserCallback executor, the clock and the draws at most. -/
theorem State.poll_keeps (now : Nat) (s : State) : State.KeepsButQueue s (s.poll now) := by
  by_cases h : pollActs now s.dec
  · exact (State.poll_acts now s h).1
  · rw [State.poll_idle now s h]; exact .refl s

/-- Enqueueing a callback neither reads nor gives an output. -/
theorem State.enqueueUser_withOutputs (c : Callback) (outs : List Output) (s : State) :
    State.enqueueUser c { s with outputs := outs } = { s.enqueueUser c with outputs := outs } := by
  simp only [State.enqueueUser, State.enqueue, State.withExecutor]
  cases hc : s.userCallback.created <;> simp [State.executor, hc, State.setExecutor, State.readMillis]

/-- A poll neither reads nor gives an output, so it does the same whatever was called before it (R174, R175). -/
theorem State.poll_withOutputs (now : Nat) (outs : List Output) (s : State) :
    State.poll now { s with outputs := outs } = { s.poll now with outputs := outs } := by
  by_cases h : pollActs now s.dec
  · have h' : pollActs now ({ s with outputs := outs } : State).dec := h
    unfold pollActs at h h'
    rw [State.poll, State.poll, if_pos h, if_pos h']
    dsimp only
    cases matchHandler s.dec.releaseHandlers s.dec.activeCommand with
    | none => rfl
    | some c => simp only [State.enqueueUser?, State.enqueueUser_withOutputs]
  · rw [State.poll_idle now s h, State.poll_idle now { s with outputs := outs } h]

/-! ## A completed pair -/

/-- The interrupt step of a completed pair (R170): the class acts and gives its signal; for a signal other than `INCOMPLETE`
the dispatcher runs with a clock reading that is not below the last one. -/
theorem State.completePair_spec (c : PairClass) (s : State) :
    s.completePair c =
      if rowSignal c s.dec.bitsReceived = .incomplete then
        { s with dec := (s.dec.perform c).1, outputs := s.outputs ++ [.pair c .incomplete] }
      else
        State.handle (rowSignal c s.dec.bitsReceived) (s.millis + Config.millisStep s.draws)
          { s with
            dec := (s.dec.perform c).1
            outputs := s.outputs ++ [.pair c (rowSignal c s.dec.bitsReceived)]
            millis := s.millis + Config.millisStep s.draws
            draws := s.draws + 1 } := by
  unfold State.completePair
  simp only [Dec.perform_signal]
  split
  · next h => rw [h]; rfl
  · rfl

end Sys2Proof.Machine
end

