-- ==== Sys2Proof/Laws/Iteration.lean ====
section
/-!
SUPPORT. What an iteration of an executor can do (spec/43_scheduler.md R205 to R209), said once: its frame, and its effect when
nothing runs at its Yields.
-/

namespace Sys2Proof.Machine

/-- `dec` after a release by timeout (R175). -/
def Dec.released (d : Dec) : Dec := { d with accumulator := 0, bitsReceived := 0, activeCommand := NO_BUTTON }

/-- An executor with the live jobs, the iteration and the sleep of another. -/
def Executor.restored (e e' : Executor) : Executor := { e' with live := e.live, iteration := e.iteration, wake := e.wake }

theorem Executor.Queued.restored {cs : List Callback} {e e' : Executor} (h : Executor.Queued cs e e') (hc : e.Clean) :
    Executor.Queued cs e (Executor.restored e e') where
  live := rfl
  pendingCancel := h.pendingCancel
  interval := h.interval
  iteration := rfl
  created hcr := ⟨(h.created hcr).1, (h.created hcr).2.1, rfl⟩
  clean := by
    intro hn
    have hn' : e'.created = false := hn
    have he : e.created = false := by
      by_contra hne
      simp [(h.created (by simpa using hne)).1] at hn'
    rw [h.clean hn', hc he]; rfl
  pendingAdd := h.pendingAdd

/-- The frame of an iteration of queue `q`: what running jobs changes at most. -/
structure State.RunFrame (q : Queue) (s t : State) : Prop where
  tx : t.tx = s.tx
  txOthers : t.txOthers = s.txOthers
  micros : t.micros = s.micros
  timeline : t.timeline = s.timeline
  stuck : s.stuck = true → t.stuck = true
  millis : s.millis ≤ t.millis
  dec : ∀ P : Dec → Prop, (∀ d, P d → P d.released) → P s.dec → P t.dec
  created : (t.executor q).created = true
  priority : Executor.restored s.priority t.priority = s.priority
  apart : q = .userCallback → t.priority = s.priority
  before : s.userCallback.Clean
  after : t.userCallback.Clean
  user : ∃ cs, Executor.Queued cs s.userCallback (Executor.restored s.userCallback t.userCallback)
  other : ∀ r, r ≠ q → (t.executor r).live = (s.executor r).live ∧ (t.executor r).iteration = (s.executor r).iteration ∧
    ((s.executor r).created = true → (t.executor r).created = true ∧ (t.executor r).wake = (s.executor r).wake)

theorem State.RunFrame.trans {q : Queue} {s t u : State} (h : State.RunFrame q s t) (k : State.RunFrame q t u) :
    State.RunFrame q s u where
  tx := k.tx.trans h.tx
  txOthers := k.txOthers.trans h.txOthers
  micros := k.micros.trans h.micros
  timeline := k.timeline.trans h.timeline
  stuck hs := k.stuck (h.stuck hs)
  millis := h.millis.trans k.millis
  dec P hP hs := k.dec P hP (h.dec P hP hs)
  created := k.created
  priority := by
    have h1 := h.priority
    have k1 := k.priority
    simp only [Executor.restored] at h1 k1 ⊢
    rw [← h1]
    conv_rhs => rw [← k1]
  apart hq := (k.apart hq).trans (h.apart hq)
  before := h.before
  after := k.after
  user := by
    obtain ⟨cs, q1⟩ := h.user
    obtain ⟨ds, q2⟩ := k.user
    have hc := h.before
    have c1 := h.after
    have c2 := k.after
    refine ⟨cs ++ ds, q1.trans ⟨rfl, ?_, ?_, rfl, ?_, ?_, ?_⟩⟩
    · exact q2.pendingCancel
    · exact q2.interval
    · exact fun hcr => ⟨(q2.created hcr).1, (q2.created hcr).2.1, rfl⟩
    · intro hn
      have hn' : u.userCallback.created = false := hn
      have hu := c2 hn'
      have hs : t.userCallback.created = false := by
        by_contra hne
        exact absurd (q2.created (by simpa using hne)).1 (by simp [Executor.restored, hn'])
      have ht := c1 hs
      have hs2 : s.userCallback.created = false := by
        by_contra hne
        exact absurd (q1.created (by simpa using hne)).1 (by simp [Executor.restored, hs])
      have hs3 := hc hs2
      simp [Executor.restored, hu, hs3, Executor.reset]
    · exact q2.pendingAdd
  other r hr := by
    obtain ⟨h1, h2, h3⟩ := h.other r hr
    obtain ⟨k1, k2, k3⟩ := k.other r hr
    exact ⟨k1.trans h1, k2.trans h2, fun hcr => ⟨(k3 (h3 hcr).1).1, (k3 (h3 hcr).1).2.trans (h3 hcr).2⟩⟩

/-- Running jobs leaves every executor's polling interval and pending cancellations. -/
theorem State.RunFrame.kept {q : Queue} {s t : State} (h : State.RunFrame q s t) (r : Queue) :
    (t.executor r).interval = (s.executor r).interval ∧ (t.executor r).pendingCancel = (s.executor r).pendingCancel := by
  obtain ⟨cs, k⟩ := h.user
  cases r with
  | priority =>
    have h1 := congrArg Executor.interval h.priority
    have h2 := congrArg Executor.pendingCancel h.priority
    exact ⟨h1, h2⟩
  | userCallback => exact ⟨k.interval, k.pendingCancel⟩

theorem State.RunFrame.refl {q : Queue} {s : State} (h : (s.executor q).created = true) (hc : s.userCallback.Clean) :
    State.RunFrame q s s where
  tx := rfl
  txOthers := rfl
  micros := rfl
  timeline := rfl
  stuck hs := hs
  millis := le_refl _
  dec _ _ hs := hs
  created := h
  priority := rfl
  apart _ := rfl
  before := hc
  after := hc
  user := ⟨[], .nil hc⟩
  other _ _ := ⟨rfl, rfl, fun hcr => ⟨hcr, rfl⟩⟩

/-- Replacing the live jobs, the iteration and the sleep of a created executor. -/
theorem State.RunFrame.replace (q : Queue) (s : State) (live : List Job) (it : Option Iteration) (wake : Nat)
    (h : (s.executor q).created = true) (hc : s.userCallback.Clean) :
    State.RunFrame q s (s.setExecutor q { s.executor q with live := live, iteration := it, wake := wake }) where
  tx := by simp
  txOthers := by simp
  micros := by simp
  timeline := by simp
  stuck hs := by simpa using hs
  millis := by simp
  dec _ _ hs := by simpa using hs
  created := by simpa using h
  priority := by cases q <;> rfl
  apart hq := by subst hq; rfl
  before := hc
  after := by
    cases q with
    | priority => exact hc
    | userCallback =>
      intro hn
      have : s.userCallback.created = true := h
      simp [State.setExecutor, State.executor, this] at hn
  user := by cases q <;> exact ⟨[], .nil hc⟩
  other r hr := by simp [State.executor_setExecutor_ne _ _ hr]

/-- A callback that never returns marks the cooperative context stuck (U19). -/
theorem State.RunFrame.block {q : Queue} {s t : State} (h : State.RunFrame q s t) :
    State.RunFrame q s { t with stuck := true } :=
  { h with
    stuck := fun _ => rfl
    created := by simpa using h.created
    other := fun r hr => by simpa using h.other r hr }

theorem State.RunFrame.emit {q : Queue} {s : State} (o : Output) (h : (s.executor q).created = true)
    (hc : s.userCallback.Clean) :
    State.RunFrame q s (s.emit o) where
  tx := rfl
  txOthers := rfl
  micros := rfl
  timeline := rfl
  stuck hs := hs
  millis := le_refl _
  dec _ _ hs := hs
  created := by simpa using h
  priority := rfl
  apart _ := rfl
  before := hc
  after := hc
  user := ⟨[], .nil hc⟩
  other r _ := by simp +contextual

theorem State.RunFrame.readMillis {q : Queue} {s : State} (h : (s.executor q).created = true) (hc : s.userCallback.Clean) :
    State.RunFrame q s s.readMillis.2 where
  tx := rfl
  txOthers := rfl
  micros := rfl
  timeline := rfl
  stuck hs := hs
  millis := State.le_readMillis s
  dec _ _ hs := hs
  created := by simpa using h
  priority := rfl
  apart _ := rfl
  before := hc
  after := hc
  user := ⟨[], .nil hc⟩
  other r _ := by simp +contextual

theorem State.poll_runFrame (q : Queue) (now : Nat) (s : State) (h : (s.executor q).created = true)
    (hc : s.userCallback.Clean) : State.RunFrame q s (s.poll now) := by
  by_cases ha : pollActs now s.dec
  · obtain ⟨hk, hd, hq'⟩ := State.poll_acts now s ha
    have hq := hq' hc
    have hcr : ((s.poll now).executor q).created = true := by
      cases q with
      | priority => simpa [State.executor, hk.priority] using h
      | userCallback => exact (hq.created h).1
    refine ⟨hk.tx, hk.txOthers, hk.micros, hk.timeline, fun hs => hk.stuck.trans hs, hk.millis, fun P hP hs => ?_, hcr, ?_,
      fun _ => hk.priority, hc, hq.clean, ⟨(matchHandler s.dec.releaseHandlers s.dec.activeCommand).toList, hq.restored hc⟩, ?_⟩
    · rw [hd]; exact hP _ hs
    · rw [hk.priority]; rfl
    · intro r hr
      cases r with
      | priority => simp +contextual [State.executor, hk.priority]
      | userCallback => exact ⟨hq.live, hq.iteration, fun hcr => ⟨(hq.created hcr).1, (hq.created hcr).2.2⟩⟩
  · rw [State.poll_idle now s ha]; exact .refl h hc

/-- Calling a job (R208). -/
theorem State.callJob_spec (q : Queue) (j : Job) (s : State) (h : (s.executor q).created = true)
    (hc : s.userCallback.Clean) :
    State.RunFrame q s (s.callJob q j) ∧ (s.callJob q j).outputs = s.outputs ++ [.called q j.callback] := by
  unfold State.callJob
  cases hj : j.callback with
  | user n => exact ⟨.emit _ h hc, rfl⟩
  | poll =>
    have h1 : State.RunFrame q s (s.emit (.called q .poll)) := .emit _ h hc
    have h2 := State.RunFrame.readMillis h1.created h1.after
    have h3 := State.poll_runFrame q (s.emit (.called q .poll)).readMillis.1 _ h2.created h2.after
    refine ⟨(h1.trans h2).trans h3, ?_⟩
    show (State.poll _ _).outputs = _
    rw [(State.poll_keeps _ _).outputs]
    rfl

/-- A user callback's job changes nothing but the outputs: what the callback does stands on the timeline (log 12). -/
theorem State.callJob_user (q : Queue) (j : Job) (s : State) (n : Text) (hj : j.callback = .user n) :
    s.callJob q j = s.emit (.called q (.user n)) := by
  simp [State.callJob, hj]

theorem State.finishIteration_frame (q : Queue) (visited : List Job) (s : State) (h : (s.executor q).created = true)
    (hc : s.userCallback.Clean) : State.RunFrame q s (s.finishIteration q visited) := by
  have h1 := State.RunFrame.replace q s (order q (visited.filter fun j => !j.marked)) none
    (s.millis + (s.executor q).interval) h hc
  exact h1.trans (.emit _ h1.created h1.after)

@[simp] theorem State.suspendIteration_executor (q : Queue) (elapsed : Int) (visited todo : List Job) (s : State) :
    (s.suspendIteration q elapsed visited todo).executor q = { s.executor q with
      live := order q (visited ++ todo)
      iteration := some { elapsed := elapsed, visited := visited.length } } := by
  simp [State.suspendIteration]

@[simp] theorem State.blockIteration_executor (q : Queue) (elapsed : Int) (visited todo : List Job) (s : State) :
    (s.blockIteration q elapsed visited todo).executor q = { s.executor q with
      live := order q (visited ++ todo)
      iteration := some { elapsed := elapsed, visited := visited.length } } := by
  simp [State.blockIteration]

theorem State.suspendIteration_frame (q : Queue) (elapsed : Int) (visited todo : List Job) (s : State)
    (h : (s.executor q).created = true) (hc : s.userCallback.Clean) :
    State.RunFrame q s (s.suspendIteration q elapsed visited todo) :=
  .replace q s _ _ _ h hc

/-- The frame of running jobs (R208): whatever is called and wherever it stops. -/
theorem State.runJobs_frame (q : Queue) (elapsed : Int) (todo : List Job) :
    ∀ (visited : List Job) (s : State), (s.executor q).created = true → s.userCallback.Clean →
      State.RunFrame q s (s.runJobs q elapsed visited todo) := by
  induction todo with
  | nil => exact fun visited s h hc => State.finishIteration_frame q visited s h hc
  | cons j todo ih =>
    intro visited s h hc
    rw [State.runJobs]
    split_ifs
    · exact ih _ s h hc
    · have h1 := (State.callJob_spec q (j.tick elapsed) s h hc).1
      exact h1.trans (State.suspendIteration_frame q _ _ _ _ h1.created h1.after).block
    · have h1 := (State.callJob_spec q (j.tick elapsed) s h hc).1
      exact h1.trans (State.suspendIteration_frame q _ _ _ _ h1.created h1.after)
    · have h1 := (State.callJob_spec q (j.tick elapsed) s h hc).1
      exact h1.trans (ih _ _ h1.created h1.after)

/-- Where running jobs leaves the executor: every job visited and the marked ones gone, suspended at a Yield (R208, R60 (O6)),
or suspended in the call of a job whose callback never returns (U19). -/
theorem State.runJobs_executor (q : Queue) (elapsed : Int) (todo : List Job) :
    ∀ (visited : List Job) (s : State), (s.executor q).created = true → s.userCallback.Clean →
      (∀ j ∈ todo, j.marked = false) →
      (((s.runJobs q elapsed visited todo).executor q).iteration = none ∧
        ((s.runJobs q elapsed visited todo).executor q).live =
          order q (visited.filter (fun j => !j.marked) ++ todo.filterMap (Job.afterIteration elapsed))) ∨
      (∃ seen rest, todo = seen ++ rest ∧ ∃ seen' : List Job,
        ((s.runJobs q elapsed visited todo).executor q).live = order q (visited ++ seen' ++ rest) ∧
        ((s.runJobs q elapsed visited todo).executor q).iteration =
          some { elapsed := elapsed, visited := (visited ++ seen').length } ∧
        seen' = seen.map fun j => if j.dueAfter elapsed then (j.tick elapsed).afterCall else j.tick elapsed) ∨
      (∃ seen j rest, todo = seen ++ j :: rest ∧ ∃ seen' : List Job,
        ((s.runJobs q elapsed visited todo).executor q).live = order q (visited ++ seen' ++ j.tick elapsed :: rest) ∧
        ((s.runJobs q elapsed visited todo).executor q).iteration =
          some { elapsed := elapsed, visited := (visited ++ seen').length } ∧
        seen' = seen.map fun j => if j.dueAfter elapsed then (j.tick elapsed).afterCall else j.tick elapsed) := by
  induction todo with
  | nil => intro visited s h hc _; left; simp [State.runJobs, State.finishIteration]
  | cons j todo ih =>
    intro visited s h hc hm
    have hj : j.marked = false := hm j (by simp)
    have hm' : ∀ k ∈ todo, k.marked = false := fun k hk => hm k (by simp [hk])
    rw [State.runJobs]
    split_ifs with hp hb hy
    · have hd : j.dueAfter elapsed = false := by simpa [Job.dueAfter, Job.tick] using hp
      rcases ih (visited ++ [j.tick elapsed]) s h hc hm' with
        ⟨h1, h2⟩ | ⟨seen, rest, h1, seen', h2, h3, h4⟩ | ⟨seen, k, rest, h1, seen', h2, h3, h4⟩
      · left
        refine ⟨h1, ?_⟩
        rw [h2]
        simp [List.filter_append, Job.afterIteration, hd, Job.tick, hj]
      · right; left
        refine ⟨j :: seen, rest, by simp [h1], j.tick elapsed :: seen', ?_, ?_, ?_⟩
        · simpa using h2
        · simpa using h3
        · simp [h4, hd]
      · right; right
        refine ⟨j :: seen, k, rest, by simp [h1], j.tick elapsed :: seen', ?_, ?_, ?_⟩
        · simpa using h2
        · simpa using h3
        · simp [h4, hd]
    · right; right
      exact ⟨[], j, todo, rfl, [], by simp, by simp, rfl⟩
    · have hd : j.dueAfter elapsed = true := by simpa [Job.dueAfter, Job.tick] using hp
      right; left
      refine ⟨[j], todo, by simp, [(j.tick elapsed).afterCall], ?_, ?_, by simp [hd]⟩
      · simp
      · simp
    · have hd : j.dueAfter elapsed = true := by simpa [Job.dueAfter, Job.tick] using hp
      have hf := (State.callJob_spec q (j.tick elapsed) s h hc).1
      rcases ih (visited ++ [(j.tick elapsed).afterCall]) _ hf.created hf.after hm' with
        ⟨h1, h2⟩ | ⟨seen, rest, h1, seen', h2, h3, h4⟩ | ⟨seen, k, rest, h1, seen', h2, h3, h4⟩
      · left
        refine ⟨h1, ?_⟩
        rw [h2]
        cases hmo : j.mode <;>
          simp [List.filter_append, Job.afterIteration, hd, Job.tick, Job.afterCall, hmo, hj]
      · right; left
        refine ⟨j :: seen, rest, by simp [h1], (j.tick elapsed).afterCall :: seen', ?_, ?_, ?_⟩
        · simpa using h2
        · simpa using h3
        · simp [h4, hd]
      · right; right
        refine ⟨j :: seen, k, rest, by simp [h1], (j.tick elapsed).afterCall :: seen', ?_, ?_, ?_⟩
        · simpa using h2
        · simpa using h3
        · simp [h4, hd]

theorem State.RunFrame.yieldTaken {q : Queue} {s t : State} (h : State.RunFrame q s t) : t.yieldTaken = s.yieldTaken := by
  simp [State.yieldTaken, h.timeline]

theorem State.RunFrame.hangs {q : Queue} {s t : State} (h : State.RunFrame q s t) (c : Callback) : t.hangs c = s.hangs c := by
  simp [State.hangs, h.timeline]

/-- Calling a job leaves the cooperative context as it is. -/
theorem State.callJob_stuck (q : Queue) (j : Job) (s : State) : (s.callJob q j).stuck = s.stuck := by
  unfold State.callJob
  cases j.callback with
  | user n => rfl
  | poll => exact (State.poll_keeps _ _).stuck

/-- Running jobs with nothing at the Yields and callbacks that return (R208): every due job is called, in the order of the
queue, and the executor sleeps for its interval. -/
theorem State.runJobs_whole (q : Queue) (elapsed : Int) (todo : List Job) :
    ∀ (visited : List Job) (s : State), (s.executor q).created = true → s.userCallback.Clean → s.yieldTaken = false →
      (∀ c, s.hangs c = false) → (∀ j ∈ todo, j.marked = false) →
      ((s.runJobs q elapsed visited todo).executor q).iteration = none ∧
      ((s.runJobs q elapsed visited todo).executor q).live =
        order q (visited.filter (fun j => !j.marked) ++ todo.filterMap (Job.afterIteration elapsed)) ∧
      (s.runJobs q elapsed visited todo).outputs =
        s.outputs ++ (todo.filter (Job.dueAfter elapsed)).map (fun j => Output.called q j.callback) ++
          [.slept q ((s.runJobs q elapsed visited todo).executor q).interval] ∧
      ((s.runJobs q elapsed visited todo).executor q).wake =
        (s.runJobs q elapsed visited todo).millis + ((s.runJobs q elapsed visited todo).executor q).interval ∧
      (s.runJobs q elapsed visited todo).stuck = s.stuck := by
  induction todo with
  | nil => intro visited s h hc _ _ _; simp [State.runJobs, State.finishIteration]
  | cons j todo ih =>
    intro visited s h hc hy hg hm
    have hj : j.marked = false := hm j (by simp)
    have hm' : ∀ k ∈ todo, k.marked = false := fun k hk => hm k (by simp [hk])
    rw [State.runJobs]
    split_ifs with hp hz hz
    · have hd : j.dueAfter elapsed = false := by simpa [Job.dueAfter, Job.tick] using hp
      obtain ⟨h1, h2, h3, h4⟩ := ih (visited ++ [j.tick elapsed]) s h hc hy hg hm'
      refine ⟨h1, ?_, ?_, h4⟩
      · rw [h2]; simp [List.filter_append, Job.afterIteration, hd, Job.tick, hj]
      · rw [h3]; simp [hd]
    · rw [hg] at hz; cases hz
    · rw [(State.callJob_spec q (j.tick elapsed) s h hc).1.yieldTaken, hy] at hz
      cases hz
    · have hd : j.dueAfter elapsed = true := by simpa [Job.dueAfter, Job.tick] using hp
      obtain ⟨hf, ho⟩ := State.callJob_spec q (j.tick elapsed) s h hc
      obtain ⟨h1, h2, h3, h4, h5⟩ := ih (visited ++ [(j.tick elapsed).afterCall]) _ hf.created hf.after
        (hf.yieldTaken.trans hy) (fun c => (hf.hangs c).trans (hg c)) hm'
      refine ⟨h1, ?_, ?_, h4, h5.trans (State.callJob_stuck q _ s)⟩
      · rw [h2]
        cases hmo : j.mode <;>
          simp [List.filter_append, Job.afterIteration, hd, Job.tick, Job.afterCall, hmo, hj]
      · rw [h3, ho]; simp [hd, Job.tick]

/-- Running jobs up to the first that is due (R208): its callback never returns (U19), or something runs at its Yield
(R60 (O6)), or the jobs after it run. -/
theorem State.runJobs_firstDue (q : Queue) (elapsed : Int) (before after : List Job) (j : Job) :
    ∀ (visited : List Job) (s : State), (∀ k ∈ before, k.dueAfter elapsed = false) → j.dueAfter elapsed = true →
    s.runJobs q elapsed visited (before ++ j :: after) =
      if s.hangs j.callback then
        (s.callJob q (j.tick elapsed)).blockIteration q elapsed (visited ++ before.map (Job.tick elapsed))
          (j.tick elapsed :: after)
      else if (s.callJob q (j.tick elapsed)).yieldTaken then
        (s.callJob q (j.tick elapsed)).suspendIteration q elapsed
          (visited ++ before.map (Job.tick elapsed) ++ [(j.tick elapsed).afterCall]) after
      else
        State.runJobs q elapsed (visited ++ before.map (Job.tick elapsed) ++ [(j.tick elapsed).afterCall]) after
          (s.callJob q (j.tick elapsed)) := by
  induction before with
  | nil =>
    intro visited s _ hj
    have : ¬ Decimal.positive (j.tick elapsed).remaining = true := by simpa [Job.dueAfter, Job.tick] using hj
    simp [State.runJobs, this]
  | cons k before ih =>
    intro visited s hb hj
    have hk : Decimal.positive (k.tick elapsed).remaining = true := by simpa [Job.dueAfter, Job.tick] using hb k (by simp)
    rw [List.cons_append, State.runJobs, if_pos hk, ih _ _ (fun x hx => hb x (by simp [hx])) hj]
    simp

/-- Running jobs none of which is due (R208): each has less time remaining, and the iteration ends. -/
theorem State.runJobs_noneDue (q : Queue) (elapsed : Int) (todo : List Job) :
    ∀ (visited : List Job) (s : State), (∀ k ∈ todo, k.dueAfter elapsed = false) →
    s.runJobs q elapsed visited todo = s.finishIteration q (visited ++ todo.map (Job.tick elapsed)) := by
  induction todo with
  | nil => intro visited s _; simp [State.runJobs]
  | cons k todo ih =>
    intro visited s h
    have hk : Decimal.positive (k.tick elapsed).remaining = true := by simpa [Job.dueAfter, Job.tick] using h k (by simp)
    rw [State.runJobs, if_pos hk, ih _ _ (fun x hx => h x (by simp [hx]))]
    simp

/-- Where running jobs ends with the timeline it began with, the frame says nothing of which one it was. -/
theorem State.RunFrame.withTimeline {q : Queue} {s t : State} {l : List Event} (h : State.RunFrame q { s with timeline := l } t) :
    State.RunFrame q s { t with timeline := s.timeline } :=
  { h with
    timeline := rfl
    created := by simpa using h.created
    other := fun r hr => by simpa using h.other r hr }

/-- With no iteration suspended there is none to end. -/
theorem State.endIteration_none {q : Queue} {s : State} (h : (s.executor q).iteration = none) : s.endIteration q = s := by
  simp [State.endIteration, State.resumeIteration, h]

/-- The frame of ending a suspended iteration. -/
theorem State.endIteration_frame (q : Queue) (s : State) (h : (s.executor q).created = true) (hc : s.userCallback.Clean) :
    State.RunFrame q s (s.endIteration q) := by
  cases hi : (s.executor q).iteration with
  | none => rw [State.endIteration_none hi]; exact .refl h hc
  | some it =>
    have hr : State.resumeIteration q { s with timeline := [] } =
        State.runJobs q it.elapsed ((order q (s.executor q).live).take it.visited)
          ((order q (s.executor q).live).drop it.visited) { s with timeline := [] } := by
      simp [State.resumeIteration, hi]
    refine State.RunFrame.withTimeline (l := []) ?_
    rw [hr]
    exact State.runJobs_frame q _ _ _ _ (by simpa using h) hc

/-- The order of a queue is its own inverse (R209). -/
@[simp] theorem order_order (q : Queue) (jobs : List Job) : order q (order q jobs) = jobs := by
  cases q <;> simp [order]

theorem mem_order (q : Queue) (jobs : List Job) (j : Job) : j ∈ order q jobs ↔ j ∈ jobs := by
  cases q <;> simp [order]

theorem length_order (q : Queue) (jobs : List Job) : (order q jobs).length = jobs.length := by
  cases q <;> simp [order]

end Sys2Proof.Machine
end

