-- ==== Sys2Proof/Laws/Pairs.lean ====
section
/-!
SUPPORT. What a pair does as an operation (spec/40_decoder.md R102 to R112), said once: pulses and class rows.
-/

namespace Sys2Proof.Machine

/-- A class row as an operation (R71). -/
theorem exec_rowInstr (c : PairClass) (m x : Nat) (s : State) : exec (rowInstr c m x) s = s.classRow c m x := by
  cases c <;> rfl

/-- A class row whose condition holds acts (R71). -/
theorem State.classRow_selected {c : PairClass} {m x : Nat} {s : State} (h : s.connected = true) (hr : RowSelects c (m + x) s.dec.bitsReceived) :
    s.classRow c m x = .next (s.completePair c) := by
  have := (inRange_accOk c (m+x) s.dec.bitsReceived).2 hr
  unfold State.classRow
  rw [h]; simpa [pairSum] using this

theorem State.classRow_next {c : PairClass} {m x : Nat} {s t : State} (h : s.classRow c m x = .next t) : t = s.completePair c := by
  unfold State.classRow at h
  split at h
  · cases h
  · split at h
    · exact (Host.Outcome.next.inj h).symm
    · cases h

theorem exec_pulse_next {m x : Nat} {s t : State} (h : exec (.pulse m x) s = .next t) : t = State.decodePair (pairSum m x) { s with dec := { s.dec with markLatch := m } } := by
  simp only [exec, execPulse] at h
  split at h
  · exact (Host.Outcome.next.inj h).symm
  · cases h

theorem exec_spaceedge_next {x : Nat} {s t : State} (h : exec (.spaceedge x) s = .next t) : t = s.decodePair (pairSum s.dec.markLatch x) := by
  simp only [exec, execSpaceedge] at h
  split at h
  · exact (Host.Outcome.next.inj h).symm
  · cases h

theorem exec_markedge_next {m : Nat} {s t : State} (h : exec (.markedge m) s = .next t) : t = { s with dec := { s.dec with markLatch := m } } := by
  simp only [exec, execMarkedge] at h
  split at h
  · exact (Host.Outcome.next.inj h).symm
  · cases h

/-- A pulse performs the row its sum selects (R104). -/
theorem exec_pulse_of_row (m x : Nat) (s : State) (c : PairClass) (h : s.connected = true) (hr : RowSelects c (m + x) s.dec.bitsReceived) :
    exec (.pulse m x) s = .next (State.completePair c { s with dec := { s.dec with markLatch := m } }) := by
  have hc := (classify_eq_iff _ _ _).2 hr
  simp [exec, execPulse, h, State.decodePair, pairSum, hc]

/-- A completed pair gives its class and signal and keeps the latch (R104). -/
theorem State.completePair_outputs (c : PairClass) (s : State) : (s.completePair c).outputs = s.outputs ++ [.pair c (rowSignal c s.dec.bitsReceived)] ∧ (s.completePair c).dec.markLatch = s.dec.markLatch := by
  rw [State.completePair_spec]
  split
  · next h => refine ⟨by simp [h], ?_⟩; rw [Dec.perform_frame]
  · next h =>
    obtain ⟨k, d, _⟩ := State.handle_spec (rowSignal c s.dec.bitsReceived) (s.millis + Config.millisStep s.draws) { s with
            dec := (s.dec.perform c).1
            outputs := s.outputs ++ [.pair c (rowSignal c s.dec.bitsReceived)]
            millis := s.millis + Config.millisStep s.draws
            draws := s.draws + 1 }
    refine ⟨k.outputs, ?_⟩
    rw [d]
    have e : ((s.dec.perform c).1).markLatch = s.dec.markLatch := by rw [Dec.perform_frame]
    cases hh : rowSignal c s.dec.bitsReceived <;> simp [handleDec, e]

/-- `dec` after a completed pair: the class, then the dispatcher (R104, R170). -/
theorem State.completePair_dec (c : PairClass) (s : State) : ∃ now, s.millis ≤ now ∧ (s.completePair c).dec = handleDec (rowSignal c s.dec.bitsReceived) now (s.dec.perform c).1 := by
  rw [State.completePair_spec]
  refine ⟨s.millis + Config.millisStep s.draws, by omega, ?_⟩
  split
  · next h => rw [h]; rfl
  · rw [(State.handle_spec _ _ _).2.1]

/-- The state of TX is kept (R47). -/
structure State.KeepsTx (s t : State) : Prop where
  tx : t.tx = s.tx
  txOthers : t.txOthers = s.txOthers
  micros : t.micros = s.micros

/-- A pair changes neither TX, nor the Priority executor, nor the timeline (R47). -/
theorem State.completePair_keeps (c : PairClass) (s : State) : State.KeepsTx s (s.completePair c) ∧ (s.completePair c).priority = s.priority ∧ (s.completePair c).timeline = s.timeline := by
  rw [State.completePair_spec]
  split
  · exact ⟨⟨rfl, rfl, rfl⟩, rfl, rfl⟩
  · have k := (State.handle_spec (rowSignal c s.dec.bitsReceived) (s.millis + Config.millisStep s.draws) { s with
            dec := (s.dec.perform c).1
            outputs := s.outputs ++ [.pair c (rowSignal c s.dec.bitsReceived)]
            millis := s.millis + Config.millisStep s.draws
            draws := s.draws + 1 }).1
    exact ⟨⟨k.tx, k.txOthers, k.micros⟩, k.priority, k.timeline⟩

/-- An appended bit that is not the 64th (R111). -/
theorem State.completePair_append (b : Bool) (s : State) (hb : s.dec.bitsReceived ≠ 63) :
    s.completePair (bitClass b) = { s with
      dec := { s.dec with
        accumulator := (s.dec.accumulator <<< 1) ||| (if b then 1#64 else 0#64)
        bitsReceived := s.dec.bitsReceived + 1 }
      outputs := s.outputs ++ [.pair (bitClass b) .incomplete] } := by
  have hs : rowSignal (bitClass b) s.dec.bitsReceived = .incomplete := by
    cases b <;> simp [bitClass, rowSignal, hb]
  have hp : s.dec.perform (bitClass b) = s.dec.append b := by cases b <;> rfl
  rw [State.completePair_spec, if_pos hs, hp, Dec.append_incomplete _ _ hb]

/-- The 64th bit (R111, R112, R170). -/
theorem State.completePair_full (b : Bool) (s : State) (hb : s.dec.bitsReceived = 63) :
    s.completePair (bitClass b) = State.handle .datagram (s.millis + Config.millisStep s.draws) { s with
      dec := { s.dec with
        lastDatagram := (s.dec.accumulator <<< 1) ||| (if b then 1#64 else 0#64)
        accumulator := 0
        bitsReceived := 0 }
      outputs := s.outputs ++ [.pair (bitClass b) .datagram]
      millis := s.millis + Config.millisStep s.draws
      draws := s.draws + 1 } := by
  have hs : rowSignal (bitClass b) s.dec.bitsReceived = .datagram := by
    cases b <;> simp [bitClass, rowSignal, hb]
  have hp : s.dec.perform (bitClass b) = s.dec.append b := by cases b <;> rfl
  rw [State.completePair_spec, hs, if_neg (by decide), hp, Dec.append_complete _ _ hb]

/-- The row of a pair of the append classes (R71). -/
theorem bitClass_pairBit_selects (p : Nat × Nat) (n : Nat) (hp : p.1 + p.2 < 2700) : RowSelects (bitClass (pairBit p)) (p.1 + p.2) n := by
    unfold pairBit bitClass
    by_cases hq : 1600 ≤ p.1 + p.2 <;> simp [hq, RowSelects] <;> omega

theorem bitsValue_append (bs cs : List Bool) : bitsValue (bs ++ cs) = cs.foldl (fun v b => 2 * v + b.toNat) (bitsValue bs) := by
  simp [bitsValue]

/-- Shifting a bit in doubles the value and adds it (R111, R114). -/
theorem shiftIn_ofNat (v : Nat) (b : Bool) : (BitVec.ofNat 64 v <<< 1) ||| (if b then 1#64 else 0#64) = BitVec.ofNat 64 (2 * v + b.toNat) := by
  have e : BitVec.ofNat 64 (2*v + b.toNat) = BitVec.ofNat 64 v <<< 1 + BitVec.ofNat 64 b.toNat := by
    apply BitVec.eq_of_toNat_eq
    simp [BitVec.toNat_shiftLeft, Nat.shiftLeft_eq]
    omega
  rw [e]
  cases b
  · simp
  · apply BitVec.eq_of_getLsbD_eq
    intro i hi
    rw [BitVec.add_eq_or_of_and_eq_zero]
    · rfl
    · apply BitVec.eq_of_getLsbD_eq
      intro i hi
      simp
      rintro h1 _ _ rfl; omega

/-- Operations one after the other. -/
theorem performAll_append (is js : List Instr) : ∀ s t : State, performAll is s = .next t → performAll (is ++ js) s = performAll js t := by
  induction is with
  | nil => intro s t h; cases h; rfl
  | cons i is ih =>
    intro s t h
    simp only [performAll, List.cons_append] at h ⊢
    split at h
    · exact ih _ _ h
    · cases h
    · cases h

end Sys2Proof.Machine
end

