-- ==== Sys2Proof/Laws/Frames.lean ====
section
/-!
SUPPORT. What the operations of TX and an iteration change (spec/41_transmitter.md R135, R138; spec/43_scheduler.md R208).
-/

namespace Sys2Proof.Machine

theorem Tx.Emits.eq {items : List TraceItem} {t t' : Tx} (h : Tx.Emits items .space t t') : ∃ ds : List Int, ds.length = items.countP TraceItem.isWait ∧
    t' = { t with level := .space, trace := t.trace ++ items, actual := t.actual ++ ds } := by
  obtain ⟨ds, h1, h2⟩ := h.actual
  refine ⟨ds, h2, ?_⟩
  obtain ⟨a1,a2,a3,a4,a5,a6,a7,a8⟩ := t'
  cases t
  have := h.trace; have := h.level; have := h.ready; have := h.pin; have := h.pwmPeriod; have := h.waitCorrection; have := h.serial
  simp_all

theorem dataTrace_waits (wc : Int) (n v : Nat) : (dataTrace wc n v).countP TraceItem.isWait = 2 * n := by
  induction n with
  | zero => rfl
  | succ n ih => rw [dataTrace, List.countP_append, ih]; simp [pulseTrace, TraceItem.isWait, List.countP_cons]; omega

theorem frameTrace_waits (wc : Int) (n v : Nat) : (frameTrace wc n v).countP TraceItem.isWait = 2 * (n + 2) := by
  rw [frameTrace, List.countP_append, List.countP_append, dataTrace_waits]; simp [pulseTrace, TraceItem.isWait, List.countP_cons]; omega

/-- The frame of `n` data bits (R135, R73). -/
theorem Tx.frame_eq (n v : Nat) (t : Tx) : ∃ ds : List Int, ds.length = 2 * (n + 2) ∧
    t.frame n v = { t with level := .space, trace := t.trace ++ frameTrace t.waitCorrection n v, actual := t.actual ++ ds } := by
  obtain ⟨ds, h1, h2⟩ := Tx.Emits.eq (Tx.frame_emits n v t)
  exact ⟨ds, h1.trans (frameTrace_waits _ _ _), h2⟩

/-- `SEND` of a string of 8 hex digits (R138). -/
theorem State.sendText_hex {code : Text} {v : Nat} (s : State) (hl : code.length = 10) (hr : readHexString code = some (8, v)) :
    ∃ ds : List Int, ds.length = 68 ∧ s.sendText code = .next { s with
        tx := { s.tx with
          level := .space
          trace := s.tx.trace ++ frameTrace s.tx.waitCorrection 32 v
          actual := s.tx.actual ++ ds } } := by
  obtain ⟨ds, h1, h2⟩ := Tx.frame_eq 32 v s.tx
  refine ⟨ds, h1, ?_⟩
  simp [State.sendText, SEND_LEN, hl, hr, State.onTx, h2]

theorem State.sendText_next {code : Text} {s t : State} (h : s.sendText code = .next t) : t = s ∨ ∃ n v, t = s.onTx (Tx.frame n v) := by
  unfold State.sendText at h
  split at h
  · split at h
    · cases h
    · cases h; exact .inr ⟨_, _, rfl⟩
  · cases h; exact .inl rfl

/-- What the operations of a constructed transmitter can do. -/
theorem exec_tx_next (i : Instr) (s t : State) (h : exec i s = .next t)
    (hi : i.opcode ∈ [.txbit, .enc, .send, .sendcmd, .sendlong]) : (∃ o, t = s.emit o) ∨ ∃ t' items, Tx.Emits items .space s.tx t' ∧ t = { s with tx := t' } ∨ t = s := by
  cases i <;> simp [Instr.opcode] at hi
  case txbit a b =>
    simp only [exec, execTxbit] at h
    split at h <;> cases h
    exact .inr ⟨_, _, .inl ⟨Tx.pulse_emits _ _ _, rfl⟩⟩
  case enc a c => cases h; exact .inl ⟨_, rfl⟩
  case send c =>
    simp only [exec, execSend] at h
    split at h
    · rcases State.sendText_next h with rfl | ⟨n, v, rfl⟩
      · exact .inr ⟨t.tx, [], .inr rfl⟩
      · exact .inr ⟨_, _, .inl ⟨Tx.frame_emits _ _ _, rfl⟩⟩
    · cases h
  case sendcmd a c =>
    simp only [exec, execSendcmd] at h
    split at h
    · rcases State.sendText_next h with rfl | ⟨n, v, rfl⟩
      · exact .inr ⟨t.tx, [], .inr rfl⟩
      · exact .inr ⟨_, _, .inl ⟨Tx.frame_emits _ _ _, rfl⟩⟩
    · cases h
  case sendlong c =>
    simp only [exec, execSendlong] at h
    split at h
    · split at h
      · cases h
      · cases h; exact .inr ⟨_, _, .inl ⟨Tx.frame_emits _ _ _, rfl⟩⟩
    · cases h

theorem requestedTotal_append (xs ys : List TraceItem) : requestedTotal (xs ++ ys) = requestedTotal xs + requestedTotal ys := by
  induction xs with
  | nil => simp [requestedTotal]
  | cons x xs ih => cases x <;> simp [requestedTotal, ih]; omega

theorem State.Sound.clean {s : State} (h : s.Sound) : s.userCallback.Clean := h.2.2.2.2.2.2.1

/-- The frame of an iteration (R208). -/
theorem State.iterate_frame (q : Queue) (now : Nat) (s : State) (hc : s.userCallback.Clean) :
    ∃ e, State.RunFrame q ((s.observeMillis now).setExecutor q e) (s.iterate q now) ∧ e.created = true ∧ e = ({ (s.executor q).orNew now with lastIteration := now } : Executor).settle := by
  refine ⟨({ (s.executor q).orNew now with lastIteration := now } : Executor).settle, ?_, ?_, rfl⟩
  swap
  · simp [Executor.orNew]; split <;> simp_all
  have hcr : (({ (s.executor q).orNew now with lastIteration := now } : Executor).settle).created = true := by
    simp [Executor.orNew]; split <;> simp_all
  unfold State.iterate
  simp only [State.executor_observeMillis]
  apply State.runJobs_frame
  · simpa using hcr
  · cases q with
    | priority => exact hc
    | userCallback => intro hn; simp at hn hcr; rw [hcr] at hn; cases hn

/-- An iteration that is not suspended, as the running of its jobs (R205, R207, R208). -/
theorem State.iterate_eq_runJobs (q : Queue) (now : Nat) (s : State) (hs : s.Sound) (hi : (s.executor q).iteration = none) :
    ∃ e : Executor, ∃ el : Int, s.iterate q now = ((s.observeMillis now).setExecutor q e).runJobs q el [] (order q e.live) ∧
      el = (if (s.executor q).created then (now : Int) - (s.executor q).lastIteration else 0) ∧
      e = ⟨true, (s.executor q).settledJobs, [], [], (s.executor q).interval, now, none,
        if (s.executor q).created then (s.executor q).wake else now⟩ ∧ (∀ j ∈ e.live, j.marked = false) := by
  have hsq : (s.executor q).Sound q := by cases q; exact hs.2.2.2.2.2.1; exact hs.2.2.2.2.2.2
  refine ⟨({ (s.executor q).orNew now with lastIteration := now } : Executor).settle, (now : Int) - ((s.executor q).orNew now).lastIteration, by simp [State.iterate], ?_, ?_, ?_⟩
  · unfold Executor.orNew; split <;> simp
  · unfold Executor.orNew
    split
    · next hc => simp [Executor.settle, Executor.settledJobs, hc, hi]
    · next hc =>
      have := hsq.1 (by simpa using hc)
      rw [this]; rfl
  · intro j hj
    have hl : (({ (s.executor q).orNew now with lastIteration := now } : Executor).settle).live = (s.executor q).settledJobs := by
      unfold Executor.orNew
      split
      · rfl
      · next hc => have := hsq.1 (by simpa using hc); rw [this]; rfl
    rw [hl] at hj
    obtain ⟨h1, h2⟩ := List.mem_filter.mp hj
    rcases List.mem_append.mp h1 with h | h
    · have := hsq.2.2.2.2; rw [hi] at this; exact this j h
    · exact (hsq.2.2.2.1 j h).2.1

/-- The calls of the application's due jobs in front of the others are outputs and nothing else (R208, log 12), when they return
and nothing runs at the Yields. -/
theorem State.runJobs_userFirst (q : Queue) (el : Int) (todo rest : List Job) : ∀ (visited : List Job) (s : State),
    s.yieldTaken = false → (∀ c, s.hangs c = false) → (∀ j ∈ todo, j.dueAfter el = true → j.callback ≠ .poll) →
    ∃ seen, s.runJobs q el visited (todo ++ rest) = State.runJobs q el seen rest
      { s with outputs := s.outputs ++ (todo.filter (Job.dueAfter el)).map fun j => .called q j.callback } := by
  induction todo with
  | nil => intro visited s _ _ _; exact ⟨visited, by simp⟩
  | cons j todo ih =>
    intro visited s hy hg hu
    have hu' : ∀ k ∈ todo, k.dueAfter el = true → k.callback ≠ .poll := fun k hk => hu k (by simp [hk])
    rw [List.cons_append, State.runJobs]
    cases hd : j.dueAfter el with
    | false =>
      have hp : Decimal.positive (j.tick el).remaining = true := by simpa [Job.dueAfter, Job.tick] using hd
      rw [if_pos hp]
      obtain ⟨seen, h⟩ := ih (visited ++ [j.tick el]) s hy hg hu'
      exact ⟨seen, by rw [h]; simp [hd]⟩
    | true =>
      have hp : ¬ Decimal.positive (j.tick el).remaining = true := by simpa [Job.dueAfter, Job.tick] using hd
      cases hcb : j.callback with
      | poll => exact absurd hcb (hu j (by simp) hd)
      | user n =>
        have hz : (s.emit (.called q (.user n))).yieldTaken = false := by simpa [State.yieldTaken] using hy
        rw [if_neg hp, hg, if_neg (by simp), State.callJob_user q (j.tick el) s n hcb, hz, if_neg (by simp)]
        obtain ⟨seen, h⟩ := ih (visited ++ [(j.tick el).afterCall]) (s.emit (.called q (.user n))) hz
          (fun c => by simpa [State.hangs] using hg c) hu'
        exact ⟨seen, by rw [h]; simp [hd, hcb, State.emit]⟩

/-- Running jobs none of which is the poll changes the executor and the outputs only (R208, log 12), when the callbacks return
and nothing runs at the Yields. -/
theorem State.runJobs_user (q : Queue) (el : Int) (todo : List Job) (visited : List Job) (s : State)
    (hy : s.yieldTaken = false) (hg : ∀ c, s.hangs c = false) (hu : ∀ j ∈ todo, j.dueAfter el = true → j.callback ≠ .poll) :
    ∃ outs live, s.runJobs q el visited todo =
      { s.setExecutor q { s.executor q with
          live := live, iteration := none, wake := s.millis + (s.executor q).interval } with outputs := outs } := by
  obtain ⟨seen, h⟩ := State.runJobs_userFirst q el todo [] visited s hy hg hu
  rw [List.append_nil] at h
  rw [h, State.runJobs]
  cases q <;> exact ⟨_, order _ (seen.filter fun j => !j.marked), rfl⟩

end Sys2Proof.Machine
end

