-- ==== Sys2Proof/Laws/Lines.lean ====
section
/-!
SUPPORT. The written form of a well-formed operation (spec/30_encoding.md R85): its operands are tokens and read back.
-/

namespace Sys2Proof.Machine

theorem operandTexts_token (i : Instr) (h : i.wf = true) (hs : i.opcode ≠ .send ∧ i.opcode ≠ .sendlong) : ∀ w ∈ i.operandTexts, Token w := by
  cases i <;> simp only [Instr.operandTexts, List.mem_cons, List.not_mem_nil, or_false, forall_eq_or_imp, forall_eq, implies_true, IsEmpty.forall_iff] <;> simp only [Instr.wf, Bool.and_eq_true] at h
  case connect p n => exact ⟨isName_token h.1, isName_token h.2⟩
  case txinit n => exact isName_token h
  case send t => exact absurd rfl hs.1
  case sendlong t => exact absurd rfl hs.2
  case onpress k c => exact ⟨showKey_token k, showCallback_token h⟩
  case onrelease k c => exact ⟨showKey_token k, showCallback_token h⟩
  case ondatagram c => exact showCallback_token h
  case schedule q c m d =>
    refine ⟨queueName_token _, ?_, modeName_token _, showDecimal_token _⟩
    cases c with
    | none => exact token_of_check (by decide)
    | some c => exact showCallback_token h
  all_goals first | trivial | exact showNat_token _ | exact ⟨showNat_token _, showNat_token _⟩ | exact ⟨showInt_token _, showInt_token _⟩ | exact ⟨showU8_token _, showU8_token _⟩ | exact ⟨signalName_token _, showNat_token _⟩ | exact ⟨queueName_token _, showNat_token _⟩

/-- The operands of a line read back. -/
theorem readOperands_joinOperands (i : Instr) (h : i.wf = true) : readOperands i.opcode (match i.operandTexts with | [] => [] | w :: ws => joinOperands (w :: ws)) = some i := by
  by_cases hs : i.opcode ≠ .send ∧ i.opcode ≠ .sendlong
  · have ht := operandTexts_token i h hs
    have hj : (match i.operandTexts with | [] => [] | w :: ws => joinOperands (w :: ws)) = joinOperands i.operandTexts := by
      cases i.operandTexts <;> rfl
    rw [hj]
    have ho := operandList_join ht
    cases i <;> simp only [Instr.opcode, readOperands] <;> first | exact absurd rfl hs.1 | exact absurd rfl hs.2 | (rw [ho]; simp only [Instr.operandTexts])
    all_goals simp only [Instr.wf, Bool.and_eq_true] at h
    case schedule q c m d =>
      cases c with
      | none => simp [operands4, readQueue_name, readMode_name, readDecimal_show, readCallbackOrNull, showCallbackOrNull]
      | some c => simp [operands4, readQueue_name, readMode_name, readDecimal_show, readCallbackOrNull, showCallbackOrNull, showCallback_ne_null h, readCallback_show h]
    case connect p n => simp [operands2, readName_self h.1, readName_self h.2]
    case txinit n => simp [operands1, readName_self h]
    case onpress k c => simp [operands2, readKey_show, readCallback_show h]
    case onrelease k c => simp [operands2, readKey_show, readCallback_show h]
    case ondatagram c => simp [operands1, readCallback_show h]
    all_goals simp [operands0, operands1, operands2, readNat_showNat, readInt_showInt, readBits_showU8, readBits_showNat, readSignal_name, readQueue_name]
  · cases i <;> simp [Instr.opcode] at hs
    all_goals simp [readOperands, Instr.operandTexts, joinOperands, Instr.opcode, readQuoted_show]

theorem joinOperands_operandTexts_tight (i : Instr) (h : i.wf = true) (w : Text) (ws : List Text) (he : i.operandTexts = w :: ws) : Tight (joinOperands (w :: ws)) ∧ joinOperands (w :: ws) ≠ [] := by
  by_cases hs : i.opcode ≠ .send ∧ i.opcode ≠ .sendlong
  · have ht := operandTexts_token i h hs
    rw [he] at ht
    exact ⟨joinOperands_tight ht, joinOperands_ne_nil (ht w (by simp))⟩
  · cases i <;> simp [Instr.opcode] at hs
    all_goals
      simp only [Instr.operandTexts, List.cons.injEq] at he
      obtain ⟨rfl, rfl⟩ := he
      exact ⟨showQuoted_tight _, by simp [joinOperands, showQuoted]⟩

end Sys2Proof.Machine
end

