-- ==== Sys2Proof/Laws/Soundness.lean ====
section
/-!
SUPPORT. What the shared operations keep of `State.Sound` (spec/10_state.md R27).
-/

namespace Sys2Proof.Machine

/-- `CMDX` is never "no button" (R172). -/
theorem CMDX_range (v : U64) : 0 ≤ CMDX v ∧ CMDX v ≠ -1 := by
  rw [CMDX]; omega

/-- The part of the invariant about `dec`. -/
def Dec.Good (d : Dec) : Prop := d.Bounded ∧ d.Consistent

theorem Dec.Good.released (d : Dec) (h : Dec.Good d) : Dec.Good d.released := by
  obtain ⟨⟨h1, h2, h3⟩, h4, h5, h6⟩ := h
  exact ⟨⟨by simp [Dec.released], by simp [Dec.released], h3⟩, h4, h5, by simp [Dec.released, NO_BUTTON]⟩

theorem Dec.Good.handle (g : Signal) (n : Nat) (d : Dec) (h : Dec.Good d) : Dec.Good (handleDec g n d) := by
  cases g
  · exact h
  · obtain ⟨h1, h4, h5, h6⟩ := h
    have := (CMDX_range d.lastDatagram).1
    exact ⟨h1, h4, h5, by simp only [handleDec]; omega⟩
  · exact h

theorem append_lt (a : U64) (n : Nat) (b : Bool) (h : a.toNat < 2 ^ n) (hn : n ≤ 62) : ((a <<< 1) ||| (if b then 1#64 else 0#64)).toNat < 2 ^ (n + 1) := by
  have hb : (if b then 1#64 else 0#64).toNat = b.toNat := by cases b <;> rfl
  have h2 : 2 ^ (n+1) ≤ 2 ^ 64 := Nat.pow_le_pow_right (by norm_num) (by omega)
  rw [BitVec.toNat_or, hb]
  apply Nat.or_lt_two_pow
  · rw [BitVec.toNat_shiftLeft, Nat.shiftLeft_eq]
    calc _ ≤ a.toNat * 2 ^ 1 := Nat.mod_le _ _
      _ < 2 ^ (n+1) := by rw [pow_succ]; omega
  · have : b.toNat ≤ 1 := by cases b <;> simp
    have : 2 ≤ 2 ^ (n+1) := by rw [pow_succ]; have := Nat.one_le_two_pow (n := n); omega
    omega

theorem Dec.Good.perform (c : PairClass) (d : Dec) (h : Dec.Good d) : Dec.Good (d.perform c).1 := by
  have hap : ∀ b, Dec.Good (d.append b).1 := by
    intro b
    obtain ⟨⟨h1, h2, h3⟩, h4⟩ := h
    by_cases h63 : d.bitsReceived = 63
    · rw [Dec.append_complete b d h63]
      exact ⟨⟨by simp, by simp, h3⟩, h4⟩
    · rw [Dec.append_incomplete b d h63]
      exact ⟨⟨by simp only []; omega, append_lt _ _ _ h2 (by omega), h3⟩, h4⟩
  obtain ⟨⟨h1, h2, h3⟩, h4⟩ := h
  have hn : Dec.Good d.noteMax := ⟨⟨h1, h2, by simp only [Dec.noteMax]; omega⟩, h4⟩
  cases c
  · exact hap false
  · exact hap true
  · exact ⟨⟨by simp [Dec.perform], by simp [Dec.perform], by simp only [Dec.perform, Dec.flush, Dec.noteMax]; omega⟩, h4⟩
  · exact hn
  · exact hn
  · exact hn

theorem State.completePair_good (c : PairClass) (s : State) (h : Dec.Good s.dec) : Dec.Good (s.completePair c).dec := by
  obtain ⟨n, -, e⟩ := State.completePair_dec c s
  rw [e]; exact Dec.Good.handle _ _ _ (Dec.Good.perform _ _ h)

/-- A delay of at least 1 ms makes a polling interval of at least 1 ms (R210). -/
theorem Decimal.one_le_floor {d : Decimal} (h : ((10 ^ d.scale : Nat) : Int) ≤ d.mant) : 1 ≤ Decimal.floor d :=
  (Nat.one_le_div_iff (Nat.pow_pos (by norm_num))).mpr (by omega)

theorem Executor.Sound.submit (q : Queue) (e : Executor) (j : Job) (h : e.Sound q) (hc : e.created = true) (hj : j.Accepted ∧ j.marked = false ∧ j.remaining = j.delay) : (e.submit j).Sound q := by
  obtain ⟨h1, h2, h3, h4, h5⟩ := h
  refine ⟨fun hn => by simp [hc] at hn, ?_, h3, ?_, h5⟩
  · simp only [Executor.submit_interval]
    split
    · next hm => have := Decimal.one_le_floor (hj.1.2.2 hm); omega
    · exact h2
  · intro k hk
    rcases List.mem_append.mp hk with hk | hk
    · exact h4 k hk
    · simp at hk; subst hk; exact hj

theorem Executor.created_sound (q : Queue) (n : Nat) :
    Executor.Sound q { Executor.reset with created := true, lastIteration := n, wake := n } :=
  ⟨by simp, by simp [Executor.reset, POLL_DEFAULT_MS], by simp [Executor.reset], by simp [Executor.reset], by simp [Executor.reset]⟩

theorem State.firstUse_sound (q : Queue) (s : State) (h : (s.executor q).Sound q) : (State.firstUse q s).Sound q ∧ (State.firstUse q s).created = true := by
  unfold State.firstUse
  split
  · next hc => exact ⟨h, hc⟩
  · exact ⟨Executor.created_sound q _, rfl⟩

theorem Executor.Sound.queued {cs : List Callback} {e f : Executor} (q : Queue) (h : Executor.Queued cs e f) (he : e.Sound q) : f.Sound q := by
  obtain ⟨h1, h2, h3, h4, h5⟩ := he
  obtain ⟨js, j1, j2, j3⟩ := h.pendingAdd
  refine ⟨h.clean, by rw [h.interval]; exact h2, by rw [h.live]; exact h3, ?_, by rw [h.iteration, h.live]; exact h5⟩
  rw [j1]
  intro k hk
  rcases List.mem_append.mp hk with hk | hk
  · exact h4 k hk
  · obtain ⟨a1, a2, a3, a4⟩ := j3 k hk
    exact ⟨⟨by rw [a2]; simp [Decimal.ofNat], by rw [a2, a3], by rw [a1]; nofun⟩, a4, by rw [a2, a3]⟩

/-- A change that keeps the invariant and TX. -/
structure State.KeepsSound (s t : State) : Prop where
  dec : Dec.Good s.dec → Dec.Good t.dec
  tx : t.tx = s.tx
  txOthers : t.txOthers = s.txOthers
  pri : s.priority.Sound .priority → t.priority.Sound .priority
  usr : s.userCallback.Sound .userCallback → t.userCallback.Sound .userCallback

theorem State.KeepsSound.sound {s t : State} (h : State.KeepsSound s t) (hs : s.Sound) : t.Sound := by
  obtain ⟨h1, h2, h3, h4, h5, h6, h7⟩ := hs
  have := h.dec ⟨h1, h2⟩
  exact ⟨this.1, this.2, by rw [h.tx]; exact h3, by rw [h.txOthers]; exact h4, by rw [h.tx, h.txOthers]; exact h5, h.pri h6, h.usr h7⟩

theorem State.completePair_keepsSound (c : PairClass) (s : State) : State.KeepsSound s (s.completePair c) := by
  refine ⟨State.completePair_good c s, (State.completePair_keeps c s).1.tx, (State.completePair_keeps c s).1.txOthers, fun h => by rw [(State.completePair_keeps c s).2.1]; exact h, fun h => ?_⟩
  rw [State.completePair_spec]
  split
  · exact h
  · exact Executor.Sound.queued _ ((State.handle_spec _ _ _).2.2 h.1) h

theorem State.enqueue_keepsSound (q : Queue) (c m d) (s : State) (hd : 0 ≤ d.mant)
    (hm : m = .recurring → ((10 ^ d.scale : Nat) : Int) ≤ d.mant) : State.KeepsSound s (s.enqueue q c m d).2 := by
  have hj : (Job.new (Config.jobId s.draws) c m d).Accepted ∧ (Job.new (Config.jobId s.draws) c m d).marked = false ∧ (Job.new (Config.jobId s.draws) c m d).remaining = (Job.new (Config.jobId s.draws) c m d).delay := ⟨⟨hd, rfl, hm⟩, rfl, rfl⟩
  have key : (s.executor q).Sound q → ((s.enqueue q c m d).2.executor q).Sound q := by
    intro h
    rw [State.enqueue_executor]
    obtain ⟨a, b⟩ := State.firstUse_sound q { s with draws := s.draws + 1 } (by cases q <;> exact h)
    exact Executor.Sound.submit q _ _ a b hj
  refine ⟨fun h => by rw [State.enqueue_dec]; exact h, by simp, by simp, ?_, ?_⟩
  · cases q with
    | priority => exact key
    | userCallback => intro h; rw [show (s.enqueue .userCallback c m d).2.priority = s.priority from State.enqueue_other .userCallback c m d s (r := .priority) (by decide)]; exact h
  · cases q with
    | userCallback => exact key
    | priority => intro h; rw [show (s.enqueue .priority c m d).2.userCallback = s.userCallback from State.enqueue_other .priority c m d s (r := .userCallback) (by decide)]; exact h

theorem State.poll_keepsSound (now : Nat) (s : State) : State.KeepsSound s (s.poll now) := by
  have k := State.poll_keeps now s
  refine ⟨?_, k.tx, k.txOthers, fun h => by rw [k.priority]; exact h, ?_⟩
  · by_cases h : pollActs now s.dec
    · intro hd; rw [(State.poll_acts now s h).2.1]; exact Dec.Good.released _ hd
    · rw [State.poll_idle now s h]; exact id
  · by_cases h : pollActs now s.dec
    · intro hd; exact Executor.Sound.queued _ ((State.poll_acts now s h).2.2 hd.1) hd
    · rw [State.poll_idle now s h]; exact id

theorem Job.Accepted.tick {el : Int} {j : Job} (h : j.Accepted) : (j.tick el).Accepted := h

theorem Job.Accepted.afterCall {j : Job} (h : j.Accepted) : j.afterCall.Accepted := by
  unfold Job.afterCall; split
  · exact h
  · exact ⟨h.1, rfl, h.2.2⟩

theorem State.runJobs_keepsSound (q : Queue) (el : Int) (visited todo : List Job) (s : State) (hc : (s.executor q).created = true) (hcl : s.userCallback.Clean)
   (hp : s.priority.Sound .priority) (hu : s.userCallback.Sound .userCallback)
   (hv : ∀ j ∈ visited, j.Accepted) (ht : ∀ j ∈ todo, j.Accepted ∧ j.marked = false) :
   State.KeepsSound s (s.runJobs q el visited todo) := by
  have f := State.runJobs_frame q el todo visited s hc hcl
  have x := State.runJobs_executor q el todo visited s hc hcl (fun j hj => (ht j hj).2)
  have hlive : (∀ j ∈ ((s.runJobs q el visited todo).executor q).live, j.Accepted) ∧ (match ((s.runJobs q el visited todo).executor q).iteration with
     | none => ∀ j ∈ ((s.runJobs q el visited todo).executor q).live, j.marked = false
     | some it => it.visited ≤ ((s.runJobs q el visited todo).executor q).live.length ∧ ∀ j ∈ (order q ((s.runJobs q el visited todo).executor q).live).drop it.visited, j.marked = false) := by
    rcases x with ⟨x1, x2⟩ | ⟨seen, rest, x1, seen', x2, x3, x4⟩ | ⟨seen, k, rest, x1, seen', x2, x3, x4⟩
    · rw [x1, x2]
      have : ∀ j ∈ order q (visited.filter (fun j => !j.marked) ++ todo.filterMap (Job.afterIteration el)), j.Accepted ∧ j.marked = false := by
        intro j hj
        rw [mem_order] at hj
        rcases List.mem_append.mp hj with h | h
        · obtain ⟨a, b⟩ := List.mem_filter.mp h
          exact ⟨hv j a, by simpa using b⟩
        · obtain ⟨k, k1, k2⟩ := List.mem_filterMap.mp h
          obtain ⟨a, b⟩ := ht k k1
          unfold Job.afterIteration at k2
          split at k2
          · split at k2
            · cases k2
            · cases k2; exact ⟨⟨a.1, rfl, a.2.2⟩, b⟩
          · cases k2; exact ⟨a, b⟩
      exact ⟨fun j hj => (this j hj).1, fun j hj => (this j hj).2⟩
    · rw [x2, x3]
      refine ⟨fun j hj => ?_, ?_, ?_⟩
      · rw [mem_order] at hj
        rcases List.mem_append.mp hj with h | h
        · rcases List.mem_append.mp h with h | h
          · exact hv j h
          · rw [x4] at h
            obtain ⟨k, k1, rfl⟩ := List.mem_map.mp h
            have := (ht k (by rw [x1]; simp [k1])).1
            split
            · exact Job.Accepted.afterCall (Job.Accepted.tick this)
            · exact Job.Accepted.tick this
        · exact (ht j (by rw [x1]; simp [h])).1
      · simp [length_order]
      · simp only [order_order]
        intro j hj
        rw [List.drop_left] at hj
        exact (ht j (by rw [x1]; simp [hj])).2
    · obtain ⟨hk1, hk2⟩ := ht k (by rw [x1]; simp)
      have hr : ∀ j ∈ rest, j.Accepted ∧ j.marked = false := fun j hj => ht j (by rw [x1]; simp [hj])
      rw [x2, x3]
      refine ⟨fun j hj => ?_, ?_, ?_⟩
      · rw [mem_order] at hj
        rcases List.mem_append.mp hj with h | h
        · rcases List.mem_append.mp h with h | h
          · exact hv j h
          · rw [x4] at h
            obtain ⟨k, k1, rfl⟩ := List.mem_map.mp h
            have := (ht k (by rw [x1]; simp [k1])).1
            split
            · exact Job.Accepted.afterCall (Job.Accepted.tick this)
            · exact Job.Accepted.tick this
        · rcases List.mem_cons.mp h with rfl | h
          · exact Job.Accepted.tick hk1
          · exact (hr j h).1
      · simp [length_order]
      · simp only [order_order]
        intro j hj
        rw [List.drop_left] at hj
        rcases List.mem_cons.mp hj with rfl | h
        · exact hk2
        · exact (hr j h).2
  refine ⟨fun h => f.dec Dec.Good Dec.Good.released h, f.tx, f.txOthers, fun _ => ?_, fun _ => ?_⟩
  · obtain ⟨p1, p2, p3, p4, p5⟩ := hp
    have r := f.priority
    have r1 := congrArg Executor.created r
    have r2 := congrArg Executor.interval r
    have r3 := congrArg Executor.pendingAdd r
    simp only [Executor.restored] at r1 r2 r3
    cases q with
    | priority =>
      refine ⟨fun hn => ?_, by rw [r2]; exact p2, hlive.1, by rw [r3]; exact p4, hlive.2⟩
      have := f.created; rw [show (State.executor .priority (s.runJobs .priority el visited todo)) = (s.runJobs .priority el visited todo).priority from rfl, hn] at this; cases this
    | userCallback => rw [f.apart rfl]; exact ⟨p1, p2, p3, p4, p5⟩
  · obtain ⟨cs, qd⟩ := f.user
    obtain ⟨p1, p2, p3, p4, p5⟩ := Executor.Sound.queued .userCallback qd hu
    cases q with
    | userCallback => exact ⟨f.after, p2, hlive.1, p4, hlive.2⟩
    | priority =>
      have o := f.other .userCallback (by decide)
      obtain ⟨o1, o2, -⟩ := o
      simp only [State.executor] at o1 o2
      simp only [Executor.restored] at p3 p5
      refine ⟨f.after, p2, by rw [o1]; exact p3, p4, by rw [o2, o1]; exact p5⟩

/-- In a sound state, an executor with an iteration in progress exists, and no job left to visit is marked. -/
theorem State.Sound.suspended {s : State} (hs : s.Sound) {q : Queue} {it : Iteration} (hi : (s.executor q).iteration = some it) :
    (s.executor q).created = true ∧ it.visited ≤ (s.executor q).live.length ∧
      ∀ j ∈ (order q (s.executor q).live).drop it.visited, j.marked = false := by
  have hq : (s.executor q).Sound q := by cases q <;> [exact hs.2.2.2.2.2.1; exact hs.2.2.2.2.2.2]
  obtain ⟨h1, -, -, -, h5⟩ := hq
  rw [hi] at h5
  refine ⟨?_, h5.1, h5.2⟩
  by_contra hn
  rw [h1 (by simpa using hn)] at hi
  cases hi

/-- A suspended iteration that goes on with nothing at its Yields and callbacks that return runs the jobs not yet visited, and the
executor sleeps (R208). -/
theorem State.resumeIteration_whole (q : Queue) (s : State) (it : Iteration) (hs : s.Sound)
    (hi : (s.executor q).iteration = some it) (hy : s.yieldTaken = false) (hg : ∀ c, s.hangs c = false) :
    State.RunFrame q s (s.resumeIteration q) ∧ ((s.resumeIteration q).executor q).iteration = none ∧
      ((s.resumeIteration q).executor q).live = order q
        (((order q (s.executor q).live).take it.visited).filter (fun j => !j.marked) ++
          ((order q (s.executor q).live).drop it.visited).filterMap (Job.afterIteration it.elapsed)) ∧
      (s.resumeIteration q).outputs = s.outputs ++
        ((((order q (s.executor q).live).drop it.visited).filter (Job.dueAfter it.elapsed)).map fun j => .called q j.callback) ++
        [.slept q (s.executor q).interval] ∧
      ((s.resumeIteration q).executor q).wake = (s.resumeIteration q).millis + (s.executor q).interval ∧
      (s.resumeIteration q).stuck = s.stuck := by
  obtain ⟨hc, -, hm⟩ := hs.suspended hi
  have he : s.resumeIteration q = s.runJobs q it.elapsed ((order q (s.executor q).live).take it.visited)
      ((order q (s.executor q).live).drop it.visited) := by
    simp [State.resumeIteration, hi]
  rw [he]
  have f := State.runJobs_frame q it.elapsed ((order q (s.executor q).live).drop it.visited)
    ((order q (s.executor q).live).take it.visited) s hc hs.clean
  obtain ⟨w1, w2, w3, w4, w5⟩ := State.runJobs_whole q it.elapsed ((order q (s.executor q).live).drop it.visited)
    ((order q (s.executor q).live).take it.visited) s hc hs.clean hy hg hm
  rw [(f.kept q).1] at w3 w4
  exact ⟨f, w1, w2, w3, w4, w5⟩

/-- A suspended iteration goes on soundly. -/
theorem State.Sound.resumeIteration {s : State} (hs : s.Sound) (q : Queue) : (s.resumeIteration q).Sound := by
  unfold State.resumeIteration
  split
  · exact hs
  · next it hi =>
    obtain ⟨hc, -, hm⟩ := hs.suspended hi
    have hl : ∀ j ∈ (s.executor q).live, j.Accepted := by
      cases q <;> [exact hs.2.2.2.2.2.1.2.2.1; exact hs.2.2.2.2.2.2.2.2.1]
    exact (State.runJobs_keepsSound q _ _ _ s hc hs.clean hs.2.2.2.2.2.1 hs.2.2.2.2.2.2
      (fun j hj => hl j ((mem_order q _ j).1 (List.mem_of_mem_take hj)))
      (fun j hj => ⟨hl j ((mem_order q _ j).1 (List.mem_of_mem_drop hj)), hm j hj⟩)).sound hs

/-- Ending a suspended iteration does nothing, or what the frame of running jobs allows. -/
theorem State.Sound.endIteration_cases {s : State} (hs : s.Sound) (q : Queue) :
    s.endIteration q = s ∨ State.RunFrame q s (s.endIteration q) := by
  cases hi : (s.executor q).iteration with
  | none => exact .inl (State.endIteration_none hi)
  | some it => exact .inr (State.endIteration_frame q s (hs.suspended hi).1 hs.clean)

/-- Ending a suspended iteration leaves a sound state with none in progress. -/
theorem State.Sound.endIteration {s : State} (hs : s.Sound) (q : Queue) :
    (s.endIteration q).Sound ∧ ((s.endIteration q).executor q).iteration = none := by
  cases hi : (s.executor q).iteration with
  | none => rw [State.endIteration_none hi]; exact ⟨hs, hi⟩
  | some it =>
    have hs0 : State.Sound { s with timeline := [] } := hs
    obtain ⟨-, h, -⟩ := State.resumeIteration_whole q { s with timeline := [] } it hs0 (by simpa using hi) rfl
      (fun c => by cases c <;> rfl)
    exact ⟨hs0.resumeIteration q, by simpa [State.endIteration] using h⟩

end Sys2Proof.Machine
end

