-- ==== Sys2Proof/Laws/Loops.lean ====
section
/-!
SUPPORT. What the background loops and a stuck cooperative context can do (spec/43_scheduler.md R201; spec/60_exceptions.md R247),
said once.
-/

namespace Sys2Proof.Machine

/-- The cooperative context does not advance while it is stuck (U19). -/
theorem State.cooperative_stuck {s : State} (f : State → Host.Outcome State Fault Refusal) (h : s.stuck = true) :
    s.cooperative f = .next s := by
  simp [State.cooperative, h]

theorem State.cooperative_free {s : State} (f : State → Host.Outcome State Fault Refusal) (h : s.stuck = false) :
    s.cooperative f = f s := by
  simp [State.cooperative, h]

/-- What the cooperative context answers is the state itself, where it is stuck, or what it runs. -/
theorem State.cooperative_next {s t : State} {f : State → Host.Outcome State Fault Refusal} (h : s.cooperative f = .next t) :
    t = s ∨ f s = .next t := by
  unfold State.cooperative at h
  split at h
  · exact .inl (Host.Outcome.next.inj h).symm
  · exact .inr h

/-- The reading at the end of a sleep is not before its end, and not before the last reading (R208 step 5, R242). -/
theorem State.le_readAwake (q : Queue) (s : State) :
    s.millis ≤ (s.readAwake q).1 ∧ (s.executor q).wake ≤ (s.readAwake q).1 ∧ s.readMillis.1 ≤ (s.readAwake q).1 :=
  ⟨(State.le_readMillis s).trans (le_max_left _ _), le_max_right _ _, le_max_left _ _⟩

/-- An iteration at a reading that is not before the last one does not depend on the last one. -/
theorem State.iterate_readMillis {q : Queue} {now : Nat} {s : State} (h : s.readMillis.1 ≤ now) :
    s.readMillis.2.iterate q now = State.iterate q now { s with draws := s.draws + 1 } := by
  have hm := (State.le_readMillis s).trans h
  have : s.readMillis.2.observeMillis now = State.observeMillis now { s with draws := s.draws + 1 } := by
    simp only [State.observeMillis, State.readMillis] at h ⊢
    rw [Nat.max_eq_right h, Nat.max_eq_right hm]
  unfold State.iterate
  rw [this]

/-- A turn of a loop that does not exist (R201). -/
theorem State.loopTurn_absent {q : Queue} {s : State} (h : (s.executor q).created = false) : s.loopTurn q = s := by
  simp [State.loopTurn, h]

/-- A turn of a loop whose iteration is suspended (R60 (O6)). -/
theorem State.loopTurn_suspended {q : Queue} {s : State} (h : (s.executor q).created = true)
    (hi : (s.executor q).iteration ≠ none) : s.loopTurn q = s.resumeIteration q := by
  unfold State.loopTurn
  rw [if_pos h]
  split
  · rfl
  · next hn => exact absurd hn hi

/-- A turn of a loop whose sleep is over: an iteration at a reading that is not before its end (R201, R208). -/
theorem State.loopTurn_awake {q : Queue} {s : State} (h : (s.executor q).created = true) (hi : (s.executor q).iteration = none) :
    s.loopTurn q = State.iterate q (s.readAwake q).1 { s with draws := s.draws + 1 } := by
  unfold State.loopTurn
  rw [if_pos h, hi]
  exact State.iterate_readMillis (State.le_readAwake q s).2.2

/-- The loop whose turn it is exists, where one does. -/
theorem State.nextLoop_created {s : State} {q : Queue} (h : (s.executor q).created = true) :
    (s.executor s.nextLoop).created = true := by
  unfold State.nextLoop
  split_ifs with h1 h2 h3
  · exact h1
  · exact h2
  · exact h1
  · cases q
    · exact absurd h h1
    · exact h

/-- What the background does: nothing, or one turn of a loop that exists. -/
theorem State.background_cases (s : State) :
    (s.background = s ∧ (s.stuck = true ∨ ∀ q, (s.executor q).created = false)) ∨
    (s.stuck = false ∧ (s.executor s.nextLoop).created = true ∧
      s.background = State.loopTurn s.nextLoop { s with draws := s.draws + 1 }) := by
  unfold State.background
  split_ifs with h1 h2
  · exact .inl ⟨rfl, .inl h1⟩
  · refine .inr ⟨by simpa using h1, ?_, rfl⟩
    rcases Bool.or_eq_true _ _ ▸ h2 with h | h
    · exact State.nextLoop_created (q := .priority) h
    · exact State.nextLoop_created (q := .userCallback) h
  · refine .inl ⟨rfl, .inr fun q => ?_⟩
    simp only [Bool.or_eq_true, not_or, Bool.not_eq_true] at h2
    cases q
    · exact h2.1
    · exact h2.2

/-- Every step is one of these: the operation of a line, an event of a loop, the change of transmitter, or nothing. -/
theorem step_cases {s t : State} (h : step s = .next t) :
    (t = { s with timeline := s.timeline.tail }) ∨
    (∃ line rest i, decode line = .ok i ∧ (s.timeline = .op line :: rest ∨ s.timeline = .atYield line :: rest) ∧
      (s.stuck = false ∨ Opcode.inInterrupt i.opcode = true) ∧ exec i { s with timeline := rest } = .next t) ∨
    (s.stuck = false ∧ ∃ q rest draws, s.timeline.tail = rest ∧
      (t = State.resumeIteration q { s with timeline := rest, draws := draws } ∨
        t = State.loopTurn q { s with timeline := rest, draws := draws })) ∨
    (s.stuck = false ∧ ∃ k rest, s.timeline.tail = rest ∧ State.useTx k { s with timeline := rest } = .next t) := by
  unfold step at h
  split at h
  · next hn =>
    have hs : ({ s with timeline := s.timeline.tail } : State) = s := by rw [hn]; cases s; simp_all
    rcases State.background_cases s with ⟨hb, -⟩ | ⟨h1, -, hb⟩
    · rw [hb] at h
      exact .inl (by rw [hs]; exact (Host.Outcome.next.inj h).symm)
    · refine .inr (.inr (.inl ⟨h1, s.nextLoop, [], s.draws + 1, by rw [hn]; rfl, .inr ?_⟩))
      rw [← Host.Outcome.next.inj h, hb]
      congr 1
      cases s; simp_all
  · next e rest he =>
    have hline : ∀ line, (s.timeline = .op line :: rest ∨ s.timeline = .atYield line :: rest) →
        State.runLine line { s with timeline := rest } = .next t → (t = { s with timeline := s.timeline.tail }) ∨
        (∃ line rest i, decode line = .ok i ∧ (s.timeline = .op line :: rest ∨ s.timeline = .atYield line :: rest) ∧
          (s.stuck = false ∨ Opcode.inInterrupt i.opcode = true) ∧ exec i { s with timeline := rest } = .next t) := by
      intro line ht hl
      unfold State.runLine at hl
      split at hl
      · next i hi =>
        split at hl
        · next hint => exact .inr ⟨line, rest, i, hi, ht, .inr hint, hl⟩
        · rcases Bool.eq_false_or_eq_true s.stuck with hs | hs
          · rw [State.cooperative_stuck _ (by exact hs)] at hl
            exact .inl (by rw [he]; exact (Host.Outcome.next.inj hl).symm)
          · rw [State.cooperative_free _ (by exact hs)] at hl
            exact .inr ⟨line, rest, i, hi, ht, .inl hs, hl⟩
      · cases hl
    have hcoop : ∀ f, State.cooperative f { s with timeline := rest } = .next t →
        t = { s with timeline := s.timeline.tail } ∨ s.stuck = false ∧ f { s with timeline := rest } = .next t := by
      intro f hf
      rcases Bool.eq_false_or_eq_true s.stuck with hs | hs
      · rw [State.cooperative_stuck _ (by exact hs)] at hf
        exact .inl (by rw [he]; exact (Host.Outcome.next.inj hf).symm)
      · exact .inr ⟨hs, by rw [State.cooperative_free _ (by exact hs)] at hf; exact hf⟩
    have htail : s.timeline.tail = rest := by rw [he]; rfl
    cases e with
    | op line => exact (hline line (.inl he) h).imp id .inl
    | atYield line => exact (hline line (.inr he) h).imp id .inl
    | resume q =>
      exact (hcoop (fun s => .next (s.resumeIteration q)) h).imp id fun k =>
        .inr (.inl ⟨k.1, q, rest, s.draws, htail, .inl (Host.Outcome.next.inj k.2).symm⟩)
    | loop q =>
      exact (hcoop (fun s => .next (s.loopTurn q)) h).imp id fun k =>
        .inr (.inl ⟨k.1, q, rest, s.draws, htail, .inr (Host.Outcome.next.inj k.2).symm⟩)
    | loopAtYield q =>
      exact (hcoop (fun s => .next (s.loopTurn q)) h).imp id fun k =>
        .inr (.inl ⟨k.1, q, rest, s.draws, htail, .inr (Host.Outcome.next.inj k.2).symm⟩)
    | neverReturns => exact .inl (by rw [htail]; exact (Host.Outcome.next.inj h).symm)
    | useTx k => exact (hcoop (State.useTx k) h).imp id fun m => .inr (.inr ⟨m.1, k, rest, htail, m.2⟩)

end Sys2Proof.Machine
end

