-- ==== Sys2Proof/Laws/PerInstr.lean ====
section
/-!
SUPPORT. Statements made per operation: the line of a well-formed operation begins with its row's mnemonic (spec/30_encoding.md
R85).
-/

namespace Sys2Proof.Laws.LineStartsWithMnemonic

/-- The first word of an operation's line is its mnemonic, and what follows are its operands (R85). -/
def Statement (i : Instr) : Prop :=
  i.wf = true → firstWord (encode i) = i.opcode.name ∧ restOfLine (encode i) = Machine.joinOperands i.operandTexts

theorem of_line (i : Instr) : Statement i := by
  intro h
  have hn := Machine.Opcode.name_token i.opcode
  unfold encode
  split
  · next he => rw [he]; exact Machine.firstWord_bare hn
  · next w ws he =>
    obtain ⟨t1, t2⟩ := Machine.joinOperands_operandTexts_tight i h w ws he
    rw [he]; exact Machine.firstWord_operands hn t1 t2

theorem connect (protocol : Proto) (pin : Pin) : Statement (.connect protocol pin) := of_line _
theorem markedge (m : Nat) : Statement (.markedge m) := of_line _
theorem spaceedge (s : Nat) : Statement (.spaceedge s) := of_line _
theorem pulse (mark space : Nat) : Statement (.pulse mark space) := of_line _
theorem bit0 (mark space : Nat) : Statement (.bit0 mark space) := of_line _
theorem bit1 (mark space : Nat) : Statement (.bit1 mark space) := of_line _
theorem frameEnd (mark space : Nat) : Statement (.frameEnd mark space) := of_line _
theorem repeatCode (mark space : Nat) : Statement (.repeatCode mark space) := of_line _
theorem header (mark space : Nat) : Statement (.header mark space) := of_line _
theorem noise (mark space : Nat) : Statement (.noise mark space) := of_line _
theorem clracc : Statement (.clracc) := of_line _
theorem txinit (pin : Pin) : Statement (.txinit pin) := of_line _
theorem txbit (highMicros lowMicros : Int) : Statement (.txbit highMicros lowMicros) := of_line _
theorem enc (address command : U8) : Statement (.enc address command) := of_line _
theorem send (code : Text) : Statement (.send code) := of_line _
theorem sendcmd (address command : U8) : Statement (.sendcmd address command) := of_line _
theorem sendlong (hex : Text) : Statement (.sendlong hex) := of_line _
theorem handle (sig : Signal) (now : Nat) : Statement (.handle sig now) := of_line _
theorem poll (now : Nat) : Statement (.poll now) := of_line _
theorem wasrx : Statement (.wasrx) := of_line _
theorem lasthex : Statement (.lasthex) := of_line _
theorem held : Statement (.held) := of_line _
theorem onpress (key : Key) (callback : Callback) : Statement (.onpress key callback) := of_line _
theorem onrelease (key : Key) (callback : Callback) : Statement (.onrelease key callback) := of_line _
theorem ondatagram (callback : Callback) : Statement (.ondatagram callback) := of_line _
theorem schedule (queue : Queue) (callback : Option Callback) (mode : Mode) (delayMs : Decimal) : Statement (.schedule queue callback mode delayMs) := of_line _
theorem cancel (queue : Queue) (id : Bits31) : Statement (.cancel queue id) := of_line _
theorem iterate (queue : Queue) (nowMs : Nat) : Statement (.iterate queue nowMs) := of_line _

end Sys2Proof.Laws.LineStartsWithMnemonic
end

