-- ==== Sys2Proof/Laws/Suspension.lean ====
section
/-!
SUPPORT. An iteration at a Yield (spec/20_memory.md R60 (O6)): running jobs does not read the live jobs, the iteration or, but for the Yield, the timeline.
-/

namespace Sys2Proof.Machine

/-- A state with other live jobs, iteration and timeline. -/
def State.atTimeline (q : Queue) (l : List Job) (i : Option Iteration) (tl : List Event) (s : State) : State :=
  { s.setExecutor q { s.executor q with live := l, iteration := i } with timeline := tl }

theorem State.hangs_atTimeline (q : Queue) (l i tl l' i') (c : Callback) (s s' : State) :
    (State.atTimeline q l i tl s).hangs c = (State.atTimeline q l' i' tl s').hangs c := rfl

theorem State.blockIteration_atTimeline (q : Queue) (l i tl) (el v td) (s : State) :
    (State.atTimeline q l i tl s).blockIteration q el v td =
      { State.atTimeline q (order q (v ++ td)) (some ⟨el, v.length⟩) tl s with stuck := true } := by
  cases q <;> rfl

theorem State.enqueueUser_atTimeline (q : Queue) (l i tl) (c : Callback) (s : State) (h : (s.executor q).created = true) :
    (State.atTimeline q l i tl s).enqueueUser c = State.atTimeline q l i tl (s.enqueueUser c) := by
  cases q with
  | priority =>
    cases hu : s.userCallback.created
    all_goals
      simp only [State.enqueueUser, State.enqueue, State.withExecutor, State.atTimeline, State.executor, State.setExecutor, hu, if_true, Bool.false_eq_true, if_false]
      try rfl
  | userCallback =>
    have h' : s.userCallback.created = true := h
    simp only [State.enqueueUser, State.enqueue, State.withExecutor, State.atTimeline, State.executor, State.setExecutor, h', if_true, Executor.submit, Job.new]

theorem State.enqueueUser?_atTimeline (q : Queue) (l i tl) (c : Option Callback) (s : State) (h : (s.executor q).created = true) :
    (State.atTimeline q l i tl s).enqueueUser? c = State.atTimeline q l i tl (s.enqueueUser? c) := by
  cases c with
  | none => rfl
  | some c => exact State.enqueueUser_atTimeline q l i tl c s h

theorem State.poll_atTimeline (q : Queue) (l i tl) (now : Nat) (s : State) (h : (s.executor q).created = true) :
    (State.atTimeline q l i tl s).poll now = State.atTimeline q l i tl (s.poll now) := by
  have hd : (State.atTimeline q l i tl s).dec = s.dec := by cases q <;> rfl
  unfold State.poll
  rw [hd]
  split
  · rw [State.enqueueUser?_atTimeline q l i tl _ s h]
    cases q <;> rfl
  · rfl

theorem State.callJob_atTimeline (q : Queue) (l i tl) (j : Job) (s : State) (h : (s.executor q).created = true) :
    (State.atTimeline q l i tl s).callJob q j = State.atTimeline q l i tl (s.callJob q j) := by
  unfold State.callJob
  have he : ∀ o, (State.atTimeline q l i tl s).emit o = State.atTimeline q l i tl (s.emit o) := by intro o; cases q <;> rfl
  have hm : ∀ s : State, (State.atTimeline q l i tl s).readMillis = (s.readMillis.1, State.atTimeline q l i tl s.readMillis.2) := by intro o; cases q <;> rfl
  cases j.callback with
  | user n => simp only [he]
  | poll =>
    simp only [he, hm]
    rw [State.poll_atTimeline]
    simpa using h

theorem State.finishIteration_atTimeline (q : Queue) (l i tl) (v : List Job) (s : State) : (State.atTimeline q l i tl s).finishIteration q v = { (s.finishIteration q v) with timeline := tl } := by
  cases q <;> rfl

theorem State.yieldTaken_atTimeline (q : Queue) (l i tl l' i') (s s' : State) : (State.atTimeline q l i tl s).yieldTaken = (State.atTimeline q l' i' tl s').yieldTaken := rfl

theorem State.suspendIteration_atTimeline (q : Queue) (l i tl) (el v td) (s : State) : (State.atTimeline q l i tl s).suspendIteration q el v td = State.atTimeline q (order q (v ++ td)) (some ⟨el, v.length⟩) tl s := by
  cases q <;> rfl

theorem State.runJobs_atTimeline (q : Queue) (el : Int) (l i tl) (todo : List Job) : ∀ (v : List Job) (s : State), (s.executor q).created = true → s.userCallback.Clean → 
    (State.atTimeline q l i tl s).runJobs q el v todo = (State.atTimeline q [] none tl s).runJobs q el v todo := by
  induction todo with
  | nil => intro v s _ _; rw [State.runJobs, State.runJobs, State.finishIteration_atTimeline, State.finishIteration_atTimeline]
  | cons j todo ih =>
    intro v s h hc
    have f := (State.callJob_spec q (j.tick el) s h hc).1
    rw [State.runJobs, State.runJobs, State.callJob_atTimeline _ _ _ _ _ _ h, State.callJob_atTimeline _ _ _ _ _ _ h, State.yieldTaken_atTimeline q l i tl [] none _ (s.callJob q (j.tick el)), State.suspendIteration_atTimeline, State.suspendIteration_atTimeline,
      State.hangs_atTimeline q l i tl [] none _ s s, State.blockIteration_atTimeline, State.blockIteration_atTimeline]
    split_ifs
    · exact ih _ _ h hc
    · rfl
    · rfl
    · exact ih _ _ f.created f.after

end Sys2Proof.Machine
end

