-- ==== Sys2Proof/Tests/Slice0.lean ====
section
/-!
SUPPORT. Tests. Expected values are from spec/95_test_vectors.md (cited as V1 to V10, S1 to S7) or worked out by hand from the
rule named; the witnesses at the end meet the hypotheses of each obligation.
-/

namespace Sys2Proof.Tests

open Sys2Proof Sys2Proof.Machine

/-! ## Decoding: one line per row, written out from R85 and spec/opcode_table.json -/

theorem test_decode_connect : decode "CONNECT P, pinA".toList = .ok (.connect ⟨['P']⟩ ⟨['p', 'i', 'n', 'A']⟩) := by decide
theorem test_decode_markedge : decode "MARKEDGE 610".toList = .ok (.markedge 610) := by decide
theorem test_decode_spaceedge : decode "SPACEEDGE 1640".toList = .ok (.spaceedge 1640) := by decide
theorem test_decode_pulse : decode "PULSE 610, 1640".toList = .ok (.pulse 610 1640) := by decide
theorem test_decode_bit0 : decode "BIT0 610, 510".toList = .ok (.bit0 610 510) := by decide
theorem test_decode_bit1 : decode "BIT1 610, 1640".toList = .ok (.bit1 610 1640) := by decide
theorem test_decode_frameEnd : decode "FRAME_END 560, 40000".toList = .ok (.frameEnd 560 40000) := by decide
theorem test_decode_repeat : decode "REPEAT 9000, 2250".toList = .ok (.repeatCode 9000 2250) := by decide
theorem test_decode_header : decode "HEADER 9000, 4500".toList = .ok (.header 9000 4500) := by decide
theorem test_decode_noise : decode "NOISE 560, 96190".toList = .ok (.noise 560 96190) := by decide
theorem test_decode_clracc : decode "CLRACC".toList = .ok .clracc := by decide
theorem test_decode_txinit : decode "TXINIT pinT".toList = .ok (.txinit ⟨['p', 'i', 'n', 'T']⟩) := by decide
theorem test_decode_txbit : decode "TXBIT −90, −190".toList = .ok (.txbit (-90) (-190)) := by decide
theorem test_decode_enc : decode "ENC 0xA5, 0x3C".toList = .ok (.enc 0xA5 0x3C) := by decide
theorem test_decode_send : decode "SEND \"0x00FF45BA\"".toList = .ok (.send "0x00FF45BA".toList) := by decide
theorem test_decode_sendcmd : decode "SENDCMD 0x00, 0x45".toList = .ok (.sendcmd 0x00 0x45) := by decide
theorem test_decode_sendlong : decode "SENDLONG \"0xA5\"".toList = .ok (.sendlong ['0', 'x', 'A', '5']) := by decide
theorem test_decode_handle : decode "HANDLE DATAGRAM, 5000".toList = .ok (.handle .datagram 5000) := by decide
theorem test_decode_poll : decode "POLL 5221".toList = .ok (.poll 5221) := by decide
theorem test_decode_wasrx : decode "WASRX".toList = .ok .wasrx := by decide
theorem test_decode_lasthex : decode "LASTHEX".toList = .ok .lasthex := by decide
theorem test_decode_held : decode "HELD".toList = .ok .held := by decide
theorem test_decode_onpress : decode "ONPRESS 0x45, p".toList = .ok (.onpress (.code 0x45) (.user ['p'])) := by decide
theorem test_decode_onrelease : decode "ONRELEASE WILDCARD, r".toList = .ok (.onrelease .wildcard (.user ['r'])) := by decide
theorem test_decode_ondatagram : decode "ONDATAGRAM k".toList = .ok (.ondatagram (.user ['k'])) := by decide
theorem test_decode_schedule : decode "SCHEDULE Priority, f, Repeat, 30.7".toList =
    .ok (.schedule .priority (some (.user ['f'])) .recurring ⟨307, 1⟩) := by decide
theorem test_decode_cancel : decode "CANCEL UserCallback, 7".toList = .ok (.cancel .userCallback 7) := by decide
theorem test_decode_iterate : decode "ITERATE Priority, 100".toList = .ok (.iterate .priority 100) := by decide

/-- The bytes of WASRX, the first in the low eight bits: 57 41 53 52 58. -/
theorem test_decodeTableWord : decodeTableWord 40 0x5852534157 = some .wasrx := by decide
theorem test_encode_schedule : encode (.schedule .priority none .recurring ⟨-5, 2⟩) =
    "SCHEDULE Priority, null, Repeat, -0.05".toList := by decide

/-! ## Well-formedness: an ill-formed term for each check -/

theorem smoke_bit0_range : Instr.wf (.bit0 1600 0) = false := by decide
theorem smoke_bit1_low : Instr.wf (.bit1 1599 0) = false := by decide
theorem smoke_bit1_high : Instr.wf (.bit1 2700 0) = false := by decide
theorem smoke_frameEnd_range : Instr.wf (.frameEnd 2699 0) = false := by decide
theorem smoke_repeat_low : Instr.wf (.repeatCode 2699 0) = false := by decide
theorem smoke_repeat_high : Instr.wf (.repeatCode 12500 0) = false := by decide
theorem smoke_header_low : Instr.wf (.header 12499 0) = false := by decide
theorem smoke_header_high : Instr.wf (.header 14500 0) = false := by decide
theorem smoke_noise_range : Instr.wf (.noise 14499 0) = false := by decide
theorem smoke_connect_protocol : Instr.wf (.connect ⟨[]⟩ ⟨['p']⟩) = false := by decide
theorem smoke_connect_pin : Instr.wf (.connect ⟨['P']⟩ ⟨['1']⟩) = false := by decide
theorem smoke_txinit_pin : Instr.wf (.txinit ⟨['a', ',']⟩) = false := by decide
theorem smoke_handle_incomplete : Instr.wf (.handle .incomplete 0) = false := by decide
theorem smoke_onpress_reserved : Instr.wf (.onpress .wildcard (.user pollName)) = false := by decide
theorem smoke_onrelease_reserved : Instr.wf (.onrelease .wildcard (.user nullName)) = false := by decide
theorem smoke_ondatagram_name : Instr.wf (.ondatagram (.user [])) = false := by decide
theorem smoke_schedule_name : Instr.wf (.schedule .priority (some (.user [' '])) .once ⟨0, 0⟩) = false := by decide

/-! Rejections of the decoder, by name. -/

theorem reject_empty : decode "  ".toList = .error .emptyLine := by decide
theorem reject_mnemonic : decode "JUMP 4".toList = .error (.unknownMnemonic "JUMP".toList) := by decide
/-- "0x100" is no byte (R83). -/
theorem reject_overflow : decode "ENC 0x100, 0x00".toList = .error (.badOperands .enc) := by decide
theorem reject_count : decode "PULSE 610".toList = .error (.badOperands .pulse) := by decide
theorem reject_range : decode "BIT0 1600, 0".toList = .error (.illFormed .bit0) := by decide
theorem reject_null_handler : decode "ONPRESS 1, null".toList = .error (.badOperands .onpress) := by decide

/-! ## Small states -/

/-- After an effective `CONNECT`, the poll job left out. -/
def connected : State :=
  { State.reset with dec := { Dec.reset with protocol := some ⟨['P']⟩, rxPin := some ⟨['a']⟩, pollRegistered := true } }

/-- The same with `bits` bits held. -/
def holding (bits : Nat) (acc : U64) : State :=
  { connected with dec := { connected.dec with bitsReceived := bits, accumulator := acc } }

/-- A constructed transmitter with a correction. -/
def transmitter (wc : Int) : State :=
  { State.reset with tx := { Tx.unconstructed 0 with ready := true, level := .space, pwmPeriod := 26, waitCorrection := wc } }

/-- A job of the application, as submitted. -/
def job (id : Bits31) (name : Char) (mode : Mode) (delay : Int) : Job := ⟨id, .user [name], ⟨delay, 0⟩, ⟨delay, 0⟩, mode, false⟩

/-- A UserCallback executor created at 0, with jobs pending. -/
def executing (jobs : List Job) : State :=
  { State.reset with userCallback := { Executor.reset with created := true, pendingAdd := jobs } }

/-- The same, on either queue, with nothing pending. -/
def idle (q : Queue) : State := State.setExecutor q { Executor.reset with created := true } State.reset

/-- An iteration of the UserCallback queue suspended at the Yield of the call of a Repeat job. -/
def suspended (events : List Event) : State :=
  { State.reset with
    userCallback := { Executor.reset with
      created := true, live := [job 7 'f' .recurring 50], lastIteration := 50, iteration := some ⟨50, 1⟩ }
    timeline := events }

/-- The poll job as `CONNECT` submits it (R101). -/
def pollJob : Job := ⟨3, .poll, ⟨220, 0⟩, ⟨220, 0⟩, .recurring, false⟩

/-- A Priority executor with the poll and a job of the application, after `CONNECT`, with a button held whose deadline is over. -/
def polling : State :=
  { connected with
    dec := { connected.dec with activeCommand := 0x45, repeatDeadline := 100 }
    priority := { Executor.reset with created := true, live := [pollJob, job 7 'f' .once 50] } }

/-- A cooperative context that a callback holds (U19), after `CONNECT`. -/
def held (events : List Event) : State := { connected with stuck := true, timeline := events }

/-- A button held, with its deadline. -/
def pressed (deadline : Nat) : State :=
  { connected with dec := { connected.dec with
      activeCommand := 0x45, repeatDeadline := deadline, bitsReceived := 5, accumulator := 0x15 } }

/-- What a next state holds. -/
def view {α : Type} (f : State → α) : Host.Outcome State Fault Refusal → Option α
  | .next t => some (f t)
  | .fault _ => none
  | .refused _ => none

/-! ## One step of each operation -/

/-- V3.9. -/
theorem test_connect : view (fun t => (t.dec.protocol, t.dec.rxPin, t.dec.pollRegistered))
    (exec (.connect ⟨['P']⟩ ⟨['a']⟩) State.reset) = some (some ⟨['P']⟩, some ⟨['a']⟩, true) := by rfl
theorem test_connect_again : exec (.connect ⟨['Q']⟩ ⟨['b']⟩) connected = .next connected := by rfl
/-- R102. -/
theorem test_markedge : view (fun t => t.dec.markLatch) (exec (.markedge 5000) connected) = some 5000 := by rfl
/-- V3.8: no mark before, so the space alone is the sum. -/
theorem test_spaceedge : view (fun t => t.outputs) (exec (.spaceedge 1640) connected) = some [.pair .bit1 .incomplete] := by decide +kernel
/-- V1. -/
theorem test_pulse_12499 : view (fun t => t.outputs) (exec (.pulse 12499 0) connected) = some [.pair .repeatCode .repeatCode] := by
  rfl
/-- V2. -/
theorem test_pulse_2700_bits : view (fun t => (t.outputs, t.dec.lastDatagram, t.dec.bitsReceived, t.dec.maxBitsReceived))
    (exec (.pulse 2700 0) (holding 3 3)) = some ([.pair .frameEnd .datagram], 3, 0, 3) := by rfl
/-- V2. -/
theorem test_bit0 : view (fun t => (t.dec.bitsReceived, t.dec.accumulator)) (exec (.bit0 1599 0) (holding 3 3)) = some (4, 6) := by
  rfl
/-- V3.2. -/
theorem test_bit0_last : view (fun t => (t.dec.bitsReceived, t.dec.lastDatagram, t.dec.hasUnreadDatagram))
    (exec (.bit0 610 510) (holding 63 5)) = some (0, 10, true) := by rfl
/-- V2. -/
theorem test_bit1 : view (fun t => (t.dec.bitsReceived, t.dec.accumulator)) (exec (.bit1 1600 0) (holding 3 3)) = some (4, 7) := by
  rfl
/-- V3.1. -/
theorem test_bit1_last : view (fun t => (t.dec.bitsReceived, t.dec.accumulator, t.dec.lastDatagram, t.dec.maxBitsReceived))
    (exec (.bit1 610 1640) (holding 63 0x7FFFFFFFFFFFFFFF)) = some (0, 0, 0xFFFFFFFFFFFFFFFF, 0) := by rfl
/-- V2: non-empty is decided by the count, not by the value. -/
theorem test_frameEnd : view (fun t => (t.dec.lastDatagram, t.dec.maxBitsReceived, t.dec.bitsReceived))
    (exec (.frameEnd 2700 0) (holding 3 0)) = some (0, 3, 0) := by rfl
/-- R108, R173. -/
theorem test_repeat_keeps : view (fun t => (t.dec.bitsReceived, t.dec.lastDatagram, t.dec.hasUnreadDatagram))
    (exec (.repeatCode 9000 2250) connected) = some (0, 0, false) := by rfl
/-- V1: 2700 with bits held is no repeat. -/
theorem test_repeat_other_row : exec (.repeatCode 2700 0) (holding 1 0) = .refused .classNotSelected := by rfl
/-- V1. -/
theorem test_header : view (fun t => (t.outputs, t.dec)) (exec (.header 14499 0) connected) =
    some ([.pair .header .incomplete], connected.dec) := by rfl
/-- V1. -/
theorem test_noise : view (fun t => (t.outputs, t.dec)) (exec (.noise 14500 0) connected) =
    some ([.pair .noise .incomplete], connected.dec) := by rfl
/-- V3.7. -/
theorem test_clracc : view (fun t => (t.dec.bitsReceived, t.dec.accumulator, t.outputs)) (exec .clracc (holding 32 0xFF45BA)) =
    some (0, 0, []) := by rfl
/-- V5: 130 items, the pin off, the period 26. -/
theorem test_txinit : view (fun t => (t.tx.trace.length, t.tx.level, t.tx.pwmPeriod, t.tx.ready))
    (exec (.txinit ⟨['t']⟩) State.reset) = some (130, .space, 26, true) := by decide +kernel
/-- V4. -/
theorem test_calibration : [Cal 1000 3048, Cal 0 127, Cal 0 128, Cal 100 1827, Cal 0 63, Cal 0 0, Cal 5 4] =
    [31, 0, 1, 25, 0, -1, -1] := by decide
/-- V6. -/
theorem test_txbit : view (fun t => t.tx.trace) (exec (.txbit (-90) (-190)) (transmitter 700)) =
    some [.drive .mark, .wait (-90), .drive .space, .wait (-190)] := by rfl
/-- V7. -/
theorem test_enc_payloads : [payload 0x00 0x45, payload 0xA5 0x3C, payload 0xFF 0x00, payload 0x80 0x01] =
    [0x00FF45BA, 0xA55A3CC3, 0xFF0000FF, 0x807F01FE] := by decide
/-- V7. -/
theorem test_enc_code : codeString 0x04 0x08 = "0x04FB08F7".toList := by decide
/-- V8.2: header, first data bit (0), requested total and number of pairs. -/
theorem test_send : view (fun t => ((pulsesOf t.tx.trace).take 2, requestedTotal t.tx.trace, (pulsesOf t.tx.trace).length))
    (exec (.send "0x00FF45BA".toList) (transmitter 30)) = some ([(8970, 4470), (580, 480)], 66000, 34) := by decide +kernel
/-- S7, V8.12. -/
theorem test_send_length : exec (.send "0x00FF45B".toList) (transmitter 0) = .next (transmitter 0) ∧
    exec (.send "0X00FF45BA".toList) (transmitter 0) = .refused .codeNotHex := ⟨rfl, rfl⟩
/-- V8.3. -/
theorem test_sendcmd : view (fun t => ((pulsesOf t.tx.trace).take 3, (pulsesOf t.tx.trace).getLast?, requestedTotal t.tx.trace))
    (exec (.sendcmd 0xA5 0x3C) (transmitter 20)) = some ([(8980, 4480), (590, 1620), (590, 490)], some (560, 0), 66660) := by decide +kernel
/-- V8.5. -/
theorem test_sendlong : view (fun t => pulsesOf t.tx.trace) (exec (.sendlong "0xA5".toList) (transmitter 0)) =
    some [(9000, 4500), (610, 1640), (610, 510), (610, 1640), (610, 510), (610, 510), (610, 1640), (610, 510), (610, 1640),
      (560, 0)] := by rfl
/-- V8.12. -/
theorem test_sendlong_refused : exec (.sendlong "0xZ1".toList) (transmitter 0) = .refused .longCodeNotHex ∧
    exec (.sendlong "0x".toList) (transmitter 0) = .refused .longCodeNotHex := ⟨rfl, rfl⟩
/-- V9.1. -/
theorem test_handle : view (fun t => (t.dec.repeatDeadline, t.dec.hasUnreadDatagram)) (exec (.handle .datagram 5000) connected) =
    some (5220, true) := by rfl
/-- V9.4. -/
theorem test_handle_repeat : view (fun t => (t.dec.repeatDeadline, t.dec.hasUnreadDatagram, t.dec.activeCommand))
    (exec (.handle .repeatCode 6000) connected) = some (6220, false, -1) := by rfl
/-- V9.5. -/
theorem test_poll_at_deadline : view State.dec (exec (.poll 5220) (pressed 5220)) = some (pressed 5220).dec := by rfl
/-- V9.5. -/
theorem test_poll_after : view (fun t => (t.dec.activeCommand, t.dec.bitsReceived, t.dec.accumulator))
    (exec (.poll 5221) (pressed 5220)) = some (-1, 0, 0) := by rfl
/-- V9.7. -/
theorem test_wasrx : view State.outputs (exec .wasrx State.reset) = some [.received false] := by rfl
/-- V9.7: the value 0. -/
theorem test_lasthex : view State.outputs (exec .lasthex State.reset) = some [.lastHex 0 (lastHexText 0)] := by rfl
/-- V9.7. -/
theorem test_held : view State.outputs (exec .held State.reset) = some [.held (-1)] := by rfl
/-- R180: after what is there. -/
theorem test_onpress : view (fun t => t.dec.pressHandlers) (exec (.onpress (.code 0x46) (.user ['q']))
    { connected with dec := { connected.dec with pressHandlers := [(.wildcard, .user ['p'])] } }) =
    some [(.wildcard, .user ['p']), (.code 0x46, .user ['q'])] := by rfl
/-- R181. -/
theorem test_onrelease : view (fun t => (t.dec.releaseHandlers, t.dec.pressHandlers))
    (exec (.onrelease .wildcard (.user ['r'])) connected) = some ([(.wildcard, .user ['r'])], []) := by rfl
/-- R182: replaced. -/
theorem test_ondatagram : view (fun t => t.dec.datagramHandler) (exec (.ondatagram (.user ['k']))
    { connected with dec := { connected.dec with datagramHandler := some (.user ['j']) } }) = some (some (.user ['k'])) := by rfl
/-- V9.8. -/
theorem test_match : matchHandler [(.wildcard, .user ['f']), (.code 0x45, .user ['g'])] 0x45 = some (.user ['f']) ∧
    matchHandler [(.code 0x45, .user ['g']), (.wildcard, .user ['f'])] 0x46 = some (.user ['f']) ∧
    matchHandler [] 0x45 = none := by decide
/-- V9.9: both formulas. -/
theorem test_cmdx : cmdxOf false 0x0123456789ABCDEF = 0xCD ∧ cmdxOf true 0x0123456789ABCDEF = 0x0123456789ABCD := by decide
/-- V10.2. -/
theorem test_schedule : view (fun t => (t.priority.interval, t.priority.pendingAdd.length))
    (exec (.schedule .priority (some (.user ['f'])) .recurring ⟨307, 1⟩) (idle .priority)) = some (30, 1) := by rfl
/-- V10.1: a negative delay; and U11: a Repeat delay of 0.9 ms. -/
theorem test_schedule_rejected : exec (.schedule .userCallback (some (.user ['f'])) .once ⟨-1, 0⟩) State.reset =
      .next { State.reset with outputs := [.notScheduled] } ∧
    exec (.schedule .priority (some (.user ['f'])) .recurring ⟨9, 1⟩) State.reset = .refused .repeatDelayBelowOneMs := ⟨rfl, rfl⟩
/-- R206: buffered; the job is still there. -/
theorem test_cancel : view (fun t => (t.userCallback.pendingCancel, t.userCallback.pendingAdd.length))
    (exec (.cancel .userCallback 7) (executing [job 7 'f' .once 0])) = some ([7], 1) := by rfl
/-- V10.4. -/
theorem test_iterate_repeat : view (fun t => (t.outputs, t.userCallback.live))
    (exec (.iterate .userCallback 100) (executing [job 7 'f' .recurring 10])) =
    some ([.called .userCallback (.user ['f']), .slept .userCallback 100], [job 7 'f' .recurring 10]) := by rfl
/-- S6: a Repeat job that cancels itself from its own callback completes that firing and is gone at the next iteration: here it
is suspended at its Yield, where its callback's `CANCEL` stands. R201: a suspended iteration ends before the next one runs. -/
theorem test_iterate_yield : view (fun t => (t.outputs, t.userCallback.iteration))
      (exec (.iterate .userCallback 50) { executing [job 7 'f' .recurring 50] with
        timeline := [.atYield "CANCEL UserCallback, 7".toList] }) =
      some ([.called .userCallback (.user ['f'])], some ⟨50, 1⟩) ∧
    view (fun t => (t.outputs, t.userCallback.live)) (exec (.iterate .userCallback 99) (suspended [])) =
      some ([.slept .userCallback 100, .slept .userCallback 100], [{ job 7 'f' .recurring 50 with remaining := ⟨1, 0⟩ }]) :=
  ⟨rfl, rfl⟩
/-- U19: a callback that never returns is called, and its iteration goes no further. -/
theorem test_never_returns : view (fun t => (t.outputs, t.stuck, t.userCallback.iteration))
    (exec (.iterate .userCallback 50) { executing [job 7 'f' .recurring 50, job 8 'g' .once 0] with
      timeline := [.neverReturns] }) = some ([.called .userCallback (.user ['f'])], true, some ⟨50, 0⟩) := by rfl
/-- U19: DEC runs on while the cooperative context is stuck, and a query is never made. -/
theorem test_stuck : view (fun t => (t.dec.markLatch, t.timeline)) (step (held [.op "MARKEDGE 610".toList])) = some (610, []) ∧
    view State.outputs (step (held [.op "HELD".toList])) = some [] := ⟨rfl, rfl⟩
/-- R201, R208: with nothing on the timeline the loop of an executor that exists runs an iteration and sleeps again. -/
theorem test_background : view State.outputs (step (idle .userCallback)) = some [.slept .userCallback 100] := by rfl
/-- R208 step 5: the iteration is not before the end of the sleep, and the next sleep ends 100 ms after it at least. -/
theorem test_loop_sleeps : view (fun t => decide (5000 ≤ t.userCallback.lastIteration ∧ 5100 ≤ t.userCallback.wake))
    (step { idle .userCallback with
      userCallback := { Executor.reset with created := true, wake := 5000 }, timeline := [.loop .userCallback] }) =
    some true := by
  have h : ∀ n : Nat, 5000 ≤ max n 5000 := fun n => le_max_right _ _
  show some (decide (5000 ≤ max (0 + Config.millisStep 0) 5000 ∧
    5100 ≤ max (0 + Config.millisStep 0) (max (0 + Config.millisStep 0) 5000) + 100)) = some true
  rw [decide_eq_true]
  omega
/-- The line that `withFetchWord` places is the one `step` runs. -/
theorem test_step : step (State.reset.withFetchWord 40 0x5852534157) = .next { State.reset with outputs := [.received false] } := by
  rfl

/-! ## Sound states -/

theorem executor_reset_sound (q : Queue) : Executor.Sound q Executor.reset :=
  ⟨fun _ => rfl, by decide, by simp [Executor.reset], by simp [Executor.reset], by simp [Executor.reset]⟩

/-- A state at reset but for a `dec` that meets its invariant is sound. -/
theorem sound_of_dec (d : Dec) (h : d.Bounded) (k : d.Consistent) : State.Sound { State.reset with dec := d } :=
  ⟨h, k, ⟨by simp [State.reset, Tx.unconstructed], rfl⟩, by simp [State.reset], by simp [State.reset],
    executor_reset_sound _, executor_reset_sound _⟩

theorem reset_dec_sound : Dec.reset.Bounded ∧ Dec.reset.Consistent :=
  ⟨⟨by decide, by decide, by decide⟩, rfl, rfl, by decide⟩

theorem sound_reset : State.Sound { State.reset with dec := Dec.reset } := sound_of_dec _ reset_dec_sound.1 reset_dec_sound.2

theorem sound_connected : connected.Sound := sound_of_dec _ ⟨by decide, by decide, by decide⟩ ⟨rfl, rfl, by decide⟩

theorem sound_holding_63 : (holding 63 5).Sound := sound_of_dec _ ⟨by decide, by decide, by decide⟩ ⟨rfl, rfl, by decide⟩

theorem sound_transmitter : (transmitter 510).Sound :=
  ⟨reset_dec_sound.1, reset_dec_sound.2, ⟨fun _ => ⟨rfl, rfl⟩, rfl⟩, by simp [transmitter, State.reset],
    fun _ => rfl, executor_reset_sound _, executor_reset_sound _⟩

theorem sound_executing (mode : Mode) : (executing [job 7 'f' mode 50]).Sound := by
  refine ⟨reset_dec_sound.1, reset_dec_sound.2, ⟨by simp [executing, State.reset, Tx.unconstructed], rfl⟩,
    by simp [executing, State.reset], by simp [executing, State.reset], executor_reset_sound _, ?_⟩
  refine ⟨by simp [executing], by simp [executing, Executor.reset, POLL_DEFAULT_MS], by simp [executing, Executor.reset], ?_,
    by simp [executing, Executor.reset]⟩
  intro j hj
  have : j = job 7 'f' mode 50 := by simpa [executing] using hj
  subst this
  exact ⟨⟨show (0 : Int) ≤ 50 by decide, rfl, fun _ => show (1 : Int) ≤ 50 by decide⟩, rfl, rfl⟩

theorem sound_polling : polling.Sound := by
  refine ⟨sound_connected.1, ⟨rfl, rfl, by decide⟩, ⟨by simp [polling, connected, State.reset, Tx.unconstructed], rfl⟩,
    by simp [polling, connected, State.reset], by simp [polling, connected, State.reset], ?_, executor_reset_sound _⟩
  refine ⟨by simp [polling], by simp [polling, Executor.reset, POLL_DEFAULT_MS], ?_, by simp [polling, Executor.reset],
    by simp [polling, pollJob, job, Executor.reset]⟩
  intro j hj
  have : j = pollJob ∨ j = job 7 'f' .once 50 := by simpa [polling] using hj
  rcases this with rfl | rfl
  · exact ⟨show (0 : Int) ≤ 220 by decide, rfl, fun _ => show (1 : Int) ≤ 220 by decide⟩
  · exact ⟨show (0 : Int) ≤ 50 by decide, rfl, nofun⟩

theorem sound_idle (q : Queue) : (idle q).Sound := by
  have h : ∀ r, Executor.Sound r { Executor.reset with created := true } := fun r =>
    ⟨by simp, by decide, by simp [Executor.reset], by simp [Executor.reset], by simp [Executor.reset]⟩
  cases q
  · exact ⟨reset_dec_sound.1, reset_dec_sound.2, ⟨by simp [idle, State.setExecutor, State.reset, Tx.unconstructed], rfl⟩,
      by simp [idle, State.setExecutor, State.reset], fun _ => rfl, h _, executor_reset_sound _⟩
  · exact ⟨reset_dec_sound.1, reset_dec_sound.2, ⟨by simp [idle, State.setExecutor, State.reset, Tx.unconstructed], rfl⟩,
      by simp [idle, State.setExecutor, State.reset], fun _ => rfl, executor_reset_sound _, h _⟩

theorem sound_suspended (events : List Event) : (suspended events).Sound := by
  refine ⟨reset_dec_sound.1, reset_dec_sound.2, ⟨by simp [suspended, State.reset, Tx.unconstructed], rfl⟩,
    by simp [suspended, State.reset], by simp [suspended, State.reset], executor_reset_sound _, ?_⟩
  refine ⟨by simp [suspended], by simp [suspended, Executor.reset, POLL_DEFAULT_MS], ?_, by simp [suspended, Executor.reset],
    show 1 ≤ 1 from le_refl _, by simp [suspended, order]⟩
  intro j hj
  have : j = job 7 'f' .recurring 50 := by simpa [suspended] using hj
  subst this
  exact ⟨show (0 : Int) ≤ 50 by decide, rfl, fun _ => show (1 : Int) ≤ 50 by decide⟩

theorem sound_held (events : List Event) : (held events).Sound := sound_connected

/-! ## Witnesses: concrete inputs that meet the hypotheses of each obligation, one for each clause, at the ends of ranges -/

/-- ConnectTakesEffectOnce: connected; the poll registered; neither, with and without a Priority executor. -/
theorem witness_ConnectTakesEffectOnce : connected.dec.protocol.isSome = true ∧
    (State.reset.dec.protocol = none ∧ State.reset.dec.pollRegistered = false ∧ State.reset.priority.created = false) ∧
    ((idle .priority).dec.protocol = none ∧ (idle .priority).dec.pollRegistered = false ∧
      (idle .priority).priority.created = true) ∧
    ∃ s : State, s.dec.protocol = none ∧ s.dec.pollRegistered = true :=
  ⟨rfl, ⟨rfl, rfl, rfl⟩, ⟨rfl, rfl, rfl⟩, { State.reset with dec := { Dec.reset with pollRegistered := true } }, rfl, rfl⟩

theorem witness_PulseEventsBeforeConnectAreRefused : State.reset.dec.protocol = none := rfl

/-- MarkedgeLatchesTheMark, PulseIsMarkedgeThenSpaceedge, PairSelectsExactlyOneRow. -/
theorem witness_connected : connected.connected = true := rfl

/-- SpaceedgeClassifiesLatchPlusSpace, AppendShiftsInABit, FrameEndFlushes, RepeatCodeOnlyRefreshesTheDeadline,
HeaderAndNoiseChangeNoRegister: every row at both ends of its range. -/
theorem witness_rows : connected.connected = true ∧ connected.dec.markLatch = 0 ∧ connected.dec.bitsReceived = 0 ∧
    RowSelects .bit0 (0 + 0) 0 ∧ RowSelects .bit0 (0 + 1599) 0 ∧ RowSelects .bit1 (0 + 1600) 0 ∧ RowSelects .bit1 (0 + 2699) 0 ∧
    RowSelects .frameEnd (0 + 2700) 1 ∧ RowSelects .repeatCode (0 + 2700) 0 ∧ RowSelects .repeatCode (0 + 12499) 0 ∧
    RowSelects .header (0 + 12500) 0 ∧ RowSelects .header (0 + 14499) 0 ∧ RowSelects .noise (0 + 14500) 0 := by
  refine ⟨rfl, rfl, rfl, ?_⟩; simp [RowSelects]

/-- AppendShiftsInABit: the 63rd and the 64th bit, of either value. -/
theorem witness_AppendShiftsInABit : (holding 62 1).connected = true ∧ (holding 62 1).dec.bitsReceived + 1 ≠ 64 ∧
    RowSelects (bitClass false) (1599 + 0) (holding 62 1).dec.bitsReceived ∧ (holding 63 5).connected = true ∧
    (holding 63 5).dec.bitsReceived + 1 = 64 ∧ RowSelects (bitClass true) (1600 + 0) (holding 63 5).dec.bitsReceived ∧
    RowSelects (bitClass true) (0 + 2699) (holding 63 5).dec.bitsReceived := by
  simp [holding, connected, State.connected, RowSelects, bitClass]

theorem witness_FrameEndFlushes : (holding 1 0).connected = true ∧ 2700 ≤ 2700 + 0 ∧ 0 < (holding 1 0).dec.bitsReceived := by
  decide

theorem witness_RepeatCodeOnlyRefreshesTheDeadline : connected.connected = true ∧ 2700 ≤ 2700 + 0 ∧ 12000 + 499 < 12500 ∧
    connected.dec.bitsReceived = 0 := by decide

theorem witness_HeaderAndNoiseChangeNoRegister : connected.connected = true ∧ connected.dec.bitsReceived = 0 ∧
    (12500 ≤ 12500 + 0 ∧ 14499 + 0 < 14500) ∧ 14500 ≤ 14500 + 0 := by decide

/-- ClassRowNotSelectedIsRefused: one below the range, and the right sum with bits held. -/
theorem witness_ClassRowNotSelectedIsRefused : connected.connected = true ∧ ¬ RowSelects .header (12499 + 0) connected.dec.bitsReceived ∧
    (holding 1 0).connected = true ∧ ¬ RowSelects .repeatCode (2700 + 0) (holding 1 0).dec.bitsReceived := by
  simp [RowSelects, connected, holding, State.connected]

theorem witness_BitsAccumulateFirstMostSignificant : connected.connected = true ∧ connected.dec.bitsReceived = 0 ∧
    connected.dec.accumulator = 0 ∧ (List.replicate 63 (2699, 0)).length ≤ 63 ∧
    ∀ p ∈ List.replicate 63 ((2699 : Nat), (0 : Nat)), p.1 + p.2 < 2700 := by
  refine ⟨rfl, rfl, rfl, by simp, fun p hp => ?_⟩
  rw [List.eq_of_mem_replicate hp]; decide

theorem witness_SixtyFourBitsGiveOneDatagram : connected.connected = true ∧ connected.dec.bitsReceived = 0 ∧
    connected.dec.accumulator = 0 ∧ (List.replicate 64 (610, 510)).length = 64 ∧
    ∀ p ∈ List.replicate 64 ((610 : Nat), (510 : Nat)), p.1 + p.2 < 2700 := by
  refine ⟨rfl, rfl, rfl, by simp, fun p hp => ?_⟩
  rw [List.eq_of_mem_replicate hp]; decide

theorem witness_TwoLongPairsNeverBothDatagram : (holding 5 0x15).connected = true ∧ 2700 ≤ 5000 + 0 ∧ 2700 ≤ 2700 + 0 := by decide

/-- CalibrationRoundsTowardZero: both sides of 64. -/
theorem witness_CalibrationRoundsTowardZero : (64 : Int) ≤ 64 - 0 ∧ (63 : Int) - 0 < 64 ∧ (4 : Int) - 5 < 64 := by decide

/-- TxbitAppendsFourItems, and SendcmdIsSendOfEnc with its text. -/
theorem witness_transmitter : (transmitter 510).tx.ready = true ∧ ∃ txt : Text,
    exec (.enc 0 0x45) (transmitter 510) = .next { transmitter 510 with outputs := (transmitter 510).outputs ++ [.code txt] } :=
  ⟨rfl, _, rfl⟩

/-- SendSendsIgnoresOrRefuses: each clause. -/
theorem witness_SendSendsIgnoresOrRefuses : (transmitter 0).tx.ready = true ∧ "0x00FF45B".toList.length ≠ 10 ∧
    ("0x00FF45BA".toList = '0' :: 'x' :: "00FF45BA".toList ∧ "00FF45BA".toList.length = 8 ∧
      ∀ c ∈ "00FF45BA".toList, isHexDigit c = true) ∧
    ("0x00FF45BG".toList.length = 10 ∧ ∀ h : Text, "0x00FF45BG".toList = '0' :: 'x' :: h → ¬ ∀ c ∈ h, isHexDigit c = true) := by
  refine ⟨rfl, by decide, ⟨by decide, by decide, List.all_eq_true.mp (by decide)⟩, by decide, ?_⟩
  intro h he
  have : h = "00FF45BG".toList := (List.cons.inj (List.cons.inj he).2).2.symm
  rw [this]; exact fun hh => absurd (List.all_eq_true.mpr hh) (by decide)

/-- SendlongSendsAnyLength: one digit; none. -/
theorem witness_SendlongSendsAnyLength : (transmitter 0).tx.ready = true ∧
    ("0x0".toList = '0' :: 'x' :: ['0'] ∧ ['0'] ≠ [] ∧ ∀ c ∈ ['0'], isHexDigit c = true) ∧
    ∀ h : Text, "0x".toList = '0' :: 'x' :: h → ¬ (h ≠ [] ∧ ∀ c ∈ h, isHexDigit c = true) := by
  refine ⟨rfl, ⟨by decide, by decide, List.all_eq_true.mp (by decide)⟩, fun h he hh => hh.1 ?_⟩
  exact (List.cons.inj (List.cons.inj he).2).2.symm

/-- CommandFrameRequestedTotal: with a correction. -/
theorem witness_CommandFrameRequestedTotal : (transmitter 510).tx.ready = true ∧ (transmitter 510).tx.waitCorrection = 510 :=
  ⟨rfl, rfl⟩

theorem witness_TransmitterNotReadyIsRefused : State.reset.tx.ready = false := rfl

theorem witness_CorrectionIsFixedAndTraceOnlyGrows : (transmitter 510).Sound ∧ (Instr.txbit 560 0).opcode ≠ .txinit ∧
    ∃ t, exec (.txbit 560 0) (transmitter 510) = .next t := ⟨sound_transmitter, by decide, _, rfl⟩

/-- EachSideLeavesTheOthersStateUnchanged: an operation of either side. -/
theorem witness_EachSideLeavesTheOthersStateUnchanged : (transmitter 510).Sound ∧
    (∃ t, exec (.send "0x00FF45BA".toList) (transmitter 510) = .next t) ∧
    Instr.opcode (.send "0x00FF45BA".toList) ∈ [Opcode.txinit, .txbit, .enc, .send, .sendcmd, .sendlong] ∧
    connected.Sound ∧ (∃ t, exec (.pulse 12500 0) connected = .next t) ∧
    Instr.opcode (.pulse 12500 0) ∉ [Opcode.txinit, .txbit, .enc, .send, .sendcmd, .sendlong] :=
  ⟨sound_transmitter, ⟨_, rfl⟩, by decide, sound_connected, ⟨_, rfl⟩, by decide⟩

/-- CommandRoundTrip: the largest correction, the shortest silence. -/
theorem witness_CommandRoundTrip : (transmitter 510).tx.ready = true ∧ (transmitter 510).tx.waitCorrection = (510 : Nat) ∧
    connected.connected = true ∧ connected.dec.bitsReceived = 0 ∧ connected.dec.accumulator = 0 ∧ 2700 ≤ 560 + 510 + 1630 ∧
    ∃ items t, exec (.sendcmd 0 0x45) (transmitter 510) = .next t ∧ t.tx.trace = (transmitter 510).tx.trace ++ items := by
  obtain ⟨ds, _, h⟩ := State.sendText_hex (transmitter 510) (codeString_reads 0 0x45).2 (codeString_reads 0 0x45).1
  exact ⟨rfl, rfl, rfl, rfl, rfl, by decide, _, _, h, rfl⟩

/-- HandleTurnsSignalsIntoEvents: before and after the UserCallback executor exists. -/
theorem witness_HandleTurnsSignalsIntoEvents : (State.reset.userCallback.created = false → State.reset.userCallback = Executor.reset) ∧
    ((idle .userCallback).userCallback.created = false → (idle .userCallback).userCallback = Executor.reset) :=
  ⟨fun _ => rfl, fun h => by cases h⟩

/-- FirstMatchingHandlerWins: the code, the wildcard, and no match. -/
theorem witness_FirstMatchingHandlerWins :
    (∀ e ∈ [(Key.code 0x44, Callback.poll)], e.1 ≠ .code 0x45 ∧ e.1 ≠ .wildcard) ∧
    (Key.code 0x45 = .code 0x45 ∨ Key.code 0x45 = .wildcard) ∧ (Key.wildcard = .code 0x45 ∨ Key.wildcard = .wildcard) := by decide

/-- PollReleasesAfterTheDeadline: at the deadline, after it, and with no button. -/
theorem witness_PollReleasesAfterTheDeadline :
    ((pressed 5220).userCallback.created = false → (pressed 5220).userCallback = Executor.reset) ∧
    ¬ ((pressed 5220).dec.activeCommand ≠ -1 ∧ (pressed 5220).dec.repeatDeadline < 5220) ∧
    ((pressed 5220).dec.activeCommand ≠ -1 ∧ (pressed 5220).dec.repeatDeadline < 5221) ∧
    ¬ (connected.dec.activeCommand ≠ -1 ∧ connected.dec.repeatDeadline < 5221) := by
  refine ⟨fun _ => rfl, by decide, by decide, by decide⟩

/-- PressThenReleaseOnce: a datagram at 5000, a repeat code at 5108, the poll at 5329. -/
theorem witness_PressThenReleaseOnce : ∃ s : State,
    (s.userCallback.created = false → s.userCallback = Executor.reset) ∧ s.dec.activeCommand = -1 ∧
    s.dec.datagramHandler = none ∧ matchHandler s.dec.pressHandlers (CMDX s.dec.lastDatagram) = some (.user ['p']) ∧
    matchHandler s.dec.releaseHandlers (CMDX s.dec.lastDatagram) = some (.user ['r']) ∧
    (∀ e ∈ [(Signal.repeatCode, 5108)], e.1 ≠ .incomplete) ∧
    ([(Signal.datagram, 5000), (Signal.repeatCode, 5108)].getLast (by simp)).2 + 220 < 5329 :=
  ⟨{ connected with dec := { connected.dec with
      pressHandlers := [(.wildcard, .user ['p'])], releaseHandlers := [(.wildcard, .user ['r'])] } },
    fun _ => rfl, rfl, rfl, rfl, rfl, by decide, by decide⟩

/-- ScheduleAcceptsOrDrops, CancelIsBuffered: both signs of the delay, a Repeat delay just below 1 ms and of 1 ms, a Once delay
of 0, before and after the executor exists. -/
theorem witness_ScheduleAcceptsOrDrops : (⟨-1, 0⟩ : Decimal).mant < 0 ∧
    (0 ≤ (⟨999, 3⟩ : Decimal).mant ∧ Mode.recurring = .recurring ∧
      (⟨999, 3⟩ : Decimal).mant < (10 ^ (⟨999, 3⟩ : Decimal).scale : Nat)) ∧
    (0 ≤ (⟨1, 0⟩ : Decimal).mant ∧ (10 ^ (⟨1, 0⟩ : Decimal).scale : Nat) ≤ (⟨1, 0⟩ : Decimal).mant) ∧
    (0 ≤ (⟨0, 0⟩ : Decimal).mant ∧ Mode.once ≠ .recurring) ∧
    (State.executor .userCallback State.reset).created = false ∧
    (State.executor .userCallback (idle .userCallback)).created = true := by decide

/-- IterationRunsEveryDueJobOnce: with a job that is just due, and on the first use of an executor. -/
theorem witness_IterationRunsEveryDueJobOnce : (executing [job 7 'f' .once 50]).Sound ∧
    (State.executor .userCallback (executing [job 7 'f' .once 50])).iteration = none ∧
    (executing [job 7 'f' .once 50]).yieldTaken = false ∧ (∀ c, (executing [job 7 'f' .once 50]).hangs c = false) ∧
    (State.executor .userCallback (executing [job 7 'f' .once 50])).settledJobs = [job 7 'f' .once 50] ∧
    (job 7 'f' .once 50).dueAfter 50 = true ∧ (job 7 'f' .once 50).dueAfter 49 = false ∧ (job 7 'f' .once 50).callback ≠ .poll ∧
    State.Sound { State.reset with dec := Dec.reset } ∧ State.reset.priority.created = false :=
  ⟨sound_executing _, rfl, rfl, fun c => by cases c <;> rfl, rfl, by decide, by decide, by decide, sound_reset, rfl⟩

/-- IterationRunsEveryDueJobOnce, the last clause: the poll, just due, and a due job of the application before it; the release
acts. -/
theorem witness_IterationRunsThePoll : polling.Sound ∧ (State.executor .priority polling).iteration = none ∧
    polling.yieldTaken = false ∧ (∀ c, polling.hangs c = false) ∧
    (State.executor .priority polling).created = true ∧ (State.executor .priority polling).lastIteration = 0 ∧
    order .priority (State.executor .priority polling).settledJobs = [job 7 'f' .once 50] ++ pollJob :: [] ∧
    pollJob.callback = .poll ∧ pollJob.dueAfter 220 = true ∧ (job 7 'f' .once 50).dueAfter 220 = true ∧
    (∀ k ∈ [job 7 'f' .once 50] ++ [], k.dueAfter 220 = true → k.callback ≠ .poll) ∧
    polling.dec.activeCommand ≠ -1 ∧ polling.dec.repeatDeadline < 220 :=
  ⟨sound_polling, rfl, rfl, fun c => by cases c <;> rfl, rfl, rfl, rfl, rfl, by decide, by decide, by decide, by decide, by decide⟩

/-- QueueOrderOfTwoJobs: a delay that is just over. -/
theorem witness_QueueOrderOfTwoJobs : ∀ q, (idle q).Sound ∧ (idle q).yieldTaken = false ∧
    (∀ c, (idle q).hangs c = false) ∧ ((idle q).executor q).created = true ∧
    ((idle q).executor q).live = [] ∧ ((idle q).executor q).pendingAdd = [] ∧ ((idle q).executor q).pendingCancel = [] ∧
    ((idle q).executor q).iteration = none ∧ 0 ≤ (⟨50, 0⟩ : Decimal).mant ∧
    (⟨50, 0⟩ : Decimal).mant ≤ (((50 : Nat) : Int) - ((idle q).executor q).lastIteration) * (10 ^ (⟨50, 0⟩ : Decimal).scale : Nat) := by
  intro q
  cases q <;> exact ⟨sound_idle _, rfl, fun c => by cases c <;> rfl, rfl, rfl, rfl, rfl, rfl, by decide, by decide⟩

/-- CancelledJobNeverRuns: a job pending, and the job at whose Yield the iteration is suspended. -/
theorem witness_CancelledJobNeverRuns : ((executing [job 7 'f' .recurring 50]).Sound ∧
    (State.executor .userCallback (executing [job 7 'f' .recurring 50])).created = true ∧
    (State.executor .userCallback (executing [job 7 'f' .recurring 50])).iteration = none ∧
    (executing [job 7 'f' .recurring 50]).yieldTaken = false ∧
    ∀ c, (executing [job 7 'f' .recurring 50]).hangs c = false) ∧
    ∃ s : State, s.Sound ∧ s.stuck = false ∧ (s.executor .userCallback).iteration ≠ none ∧
      s.timeline = .resume .userCallback :: .op "ITERATE UserCallback, 100".toList :: [] ∧
      decode "ITERATE UserCallback, 100".toList = .ok (.iterate .userCallback 100) ∧
      State.yieldTaken { s with timeline := [] } = false ∧ ∀ c, State.hangs c { s with timeline := [] } = false :=
  ⟨⟨sound_executing _, rfl, rfl, rfl, fun c => by cases c <;> rfl⟩,
    suspended [.resume .userCallback, .op "ITERATE UserCallback, 100".toList], sound_suspended _, rfl, nofun, rfl, by decide, rfl,
    fun c => by cases c <;> rfl⟩

/-- SuspendedIterationEndsAsUninterrupted, the first Yield: a job that is due, with something at its Yield. -/
theorem witness_SuspendedIterationEndsAsUninterrupted : ∃ s t u : State, ∃ line : Text, s.Sound ∧ s.stuck = false ∧
    (s.executor .userCallback).iteration = none ∧ exec (.iterate .userCallback 50) { s with timeline := [] } = .next t ∧
    exec (.iterate .userCallback 50) { s with timeline := [.atYield line] } = .next u ∧
    (u.executor .userCallback).iteration ≠ none := by
  have h : (view (fun t => (t.executor .userCallback).iteration) (exec (.iterate .userCallback 50)
      { executing [job 7 'f' .recurring 50] with timeline := [.atYield []] })) = some (some ⟨50, 1⟩) := rfl
  refine ⟨executing [job 7 'f' .recurring 50], _, _, [], sound_executing _, rfl, rfl, rfl, rfl, fun hn => ?_⟩
  exact absurd (hn.symm.trans (Option.some.inj h)) (by simp)

/-- SuspendedIterationEndsAsUninterrupted: an iteration that is to be suspended, and one that is, which goes on or finds an
`ITERATE`. -/
theorem witness_SuspendedIterationGoesOn : (∃ s : State, s.Sound ∧ (s.executor .userCallback).iteration = none ∧
    s.yieldTaken = true ∧ (s.executor .userCallback).created = true ∧ (s.executor .userCallback).lastIteration = 0 ∧
    order .userCallback (s.executor .userCallback).settledJobs = [] ++ job 7 'f' .once 50 :: [] ∧
    (job 7 'f' .once 50).dueAfter 50 = true) ∧
    (suspended [.resume .userCallback]).Sound ∧ (suspended [.resume .userCallback]).stuck = false ∧
    (suspended [.resume .userCallback]).timeline = .resume .userCallback :: [] ∧
    (State.executor .userCallback (suspended [.resume .userCallback])).iteration = some ⟨50, 1⟩ ∧
    (suspended []).yieldTaken = false ∧ (∀ c, (suspended []).hangs c = false) ∧
    (suspended []).Sound ∧ (suspended []).stuck = false ∧ (State.executor .userCallback (suspended [])).iteration ≠ none :=
  ⟨⟨{ executing [job 7 'f' .once 50] with timeline := [.atYield []] }, sound_executing _, rfl, rfl, rfl, rfl, rfl, by decide⟩,
    sound_suspended _, rfl, rfl, rfl, rfl, fun c => by cases c <;> rfl, sound_suspended _, rfl, nofun⟩

/-- PollingIntervalNeverGrows: a job that makes it shorter. -/
theorem witness_PollingIntervalNeverGrows : (idle .priority).Sound ∧
    ∃ t, exec (.schedule .priority (some .poll) .recurring ⟨307, 1⟩) (idle .priority) = .next t := ⟨sound_idle _, _, rfl⟩

/-- DecodeOfEncodeIsTheOperation: the ends of ranges, and a negative decimal with leading zeros. -/
theorem witness_DecodeOfEncodeIsTheOperation : Instr.wf (.bit0 1599 0) = true ∧ Instr.wf (.header 0 14499) = true ∧
    Instr.wf (.noise 14500 0) = true ∧ Instr.wf (.schedule .priority none .recurring ⟨-5, 3⟩) = true := by decide

theorem witness_DecodedOperationsAreWellFormed : decode "BIT0 1599, 0".toList = .ok (.bit0 1599 0) := by decide

/-- StepRunsTheDecodedOperation: in the cooperative context, and in the interrupt context while the other is stuck. -/
theorem witness_StepRunsTheDecodedOperation : State.reset.stuck = false ∧ (held []).stuck = true ∧
    decode "MARKEDGE 610".toList = .ok (.markedge 610) ∧ (Instr.markedge 610).opcode = .markedge ∧
    (State.reset.issue "HELD".toList).timeline = .op "HELD".toList :: [] ∧
    ({ State.reset with timeline := [.atYield "HELD".toList] } : State).timeline = .atYield "HELD".toList :: [] ∧
    decode "HELD".toList = .ok .held := by decide

/-- StepWithNothingToDoWaits: no executor, and a stuck context. -/
theorem witness_StepWithNothingToDoWaits : State.reset.timeline = [] ∧ State.reset.priority.created = false ∧
    State.reset.userCallback.created = false ∧ (held []).timeline = [] ∧ (held []).stuck = true := ⟨rfl, rfl, rfl, rfl, rfl⟩

/-- EveryStepKeepsSoundness, HighWaterMarkNeverDecreases, ProtocolIsSetOnce: a step that runs an operation. -/
theorem witness_steps : State.Sound { connected with timeline := [.op "PULSE 12500, 0".toList] } ∧
    connected.dec.protocol = some ⟨['P']⟩ ∧
    ∃ t, step { connected with timeline := [.op "PULSE 12500, 0".toList] } = .next t :=
  ⟨sound_connected, rfl, by
    have h : decode "PULSE 12500, 0".toList = .ok (.pulse 12500 0) := by decide
    have hr : ∃ t, exec (.pulse 12500 0) connected = .next t := ⟨_, rfl⟩
    obtain ⟨t, ht⟩ := hr
    refine ⟨t, ?_⟩
    simp only [step, State.runEvent, State.runLine]
    rw [h]; exact ht⟩

/-- FlagChangesOnlyByHandleAndWasrx: a pair that completes a datagram. -/
theorem witness_FlagChangesOnlyByHandleAndWasrx : (holding 63 5).Sound ∧ (∃ t, exec (.bit0 610 510) (holding 63 5) = .next t) ∧
    Instr.opcode (.bit0 610 510) ≠ .handle ∧ Instr.opcode (.bit0 610 510) ≠ .wasrx :=
  ⟨sound_holding_63, ⟨_, rfl⟩, by decide, by decide⟩

/-- LoopsIterateAndSleepForever: no executor; one that sleeps; one whose iteration is suspended; and nothing on the timeline. -/
theorem witness_LoopsIterateAndSleepForever : State.reset.stuck = false ∧
    (State.executor .priority { State.reset with timeline := [.loop .priority] }).created = false ∧
    (State.executor .priority { idle .priority with timeline := [.loopAtYield .priority] }).created = true ∧
    (State.executor .priority { idle .priority with timeline := [.loopAtYield .priority] }).iteration = none ∧
    (State.executor .userCallback (suspended [.loop .userCallback])).created = true ∧
    (State.executor .userCallback (suspended [.loop .userCallback])).iteration = some ⟨50, 1⟩ ∧
    (idle .priority).timeline = [] ∧ ((idle .priority).executor .priority).created = true :=
  ⟨rfl, rfl, rfl, rfl, rfl, rfl, rfl, rfl⟩

/-- CallbackThatNeverReturnsIsStuck: the second of two jobs, the first not due. -/
theorem witness_CallbackThatNeverReturnsIsStuck : ∃ s : State, s.Sound ∧ (s.executor .userCallback).iteration = none ∧
    s.timeline = .neverReturns :: [] ∧ (s.executor .userCallback).created = true ∧
    (s.executor .userCallback).lastIteration = 0 ∧
    order .userCallback (s.executor .userCallback).settledJobs = [] ++ job 7 'f' .recurring 50 :: [] ∧
    (job 7 'f' .recurring 50).dueAfter 50 = true ∧ (job 7 'f' .recurring 50).callback = .user ['f'] :=
  ⟨{ executing [job 7 'f' .recurring 50] with timeline := [.neverReturns] }, sound_executing _, rfl, rfl, rfl, rfl, rfl, by decide,
    rfl⟩

/-- StuckContextDoesNotAdvance: a mark edge that is performed, and a query that is never made. -/
theorem witness_StuckContextDoesNotAdvance : (held [.op "MARKEDGE 610".toList]).Sound ∧
    (held [.op "MARKEDGE 610".toList]).stuck = true ∧
    (held [.op "MARKEDGE 610".toList]).timeline = .op "MARKEDGE 610".toList :: [] ∧
    decode "MARKEDGE 610".toList = .ok (.markedge 610) ∧
    (Instr.markedge 610).opcode ∈
      [Opcode.markedge, .spaceedge, .pulse, .bit0, .bit1, .frameEnd, .repeatCode, .header, .noise, .handle] ∧
    (∃ t, step (held [.op "MARKEDGE 610".toList]) = .next t) ∧
    (held [.op "HELD".toList]).timeline = .op "HELD".toList :: [] ∧ (∃ t, step (held [.op "HELD".toList]) = .next t) ∧
    decode "HELD".toList = .ok .held ∧
    Instr.held.opcode ∉ [Opcode.markedge, .spaceedge, .pulse, .bit0, .bit1, .frameEnd, .repeatCode, .header, .noise, .handle] :=
  ⟨sound_held _, rfl, rfl, by decide, by decide, ⟨_, rfl⟩, rfl, ⟨_, rfl⟩, by decide, by decide⟩

/-- SelfCancelledJobNeverFiresAgain: a job that is just due. -/
theorem witness_SelfCancelledJobNeverFiresAgain : ∃ s : State, s.Sound ∧ s.stuck = false ∧
    (s.executor .userCallback).iteration = none ∧
    s.timeline = .atYield "CANCEL UserCallback, 7".toList :: .resume .userCallback :: .op "ITERATE UserCallback, 100".toList :: [] ∧
    decode "CANCEL UserCallback, 7".toList = .ok (.cancel .userCallback 7) ∧
    decode "ITERATE UserCallback, 100".toList = .ok (.iterate .userCallback 100) ∧
    State.yieldTaken { s with timeline := [] } = false ∧ (∀ c, State.hangs c { s with timeline := [] } = false) ∧
    (s.executor .userCallback).created = true ∧ (s.executor .userCallback).lastIteration = 0 ∧
    order .userCallback (s.executor .userCallback).settledJobs = [] ++ job 7 'f' .recurring 50 :: [] ∧
    (job 7 'f' .recurring 50).dueAfter 50 = true ∧ (job 7 'f' .recurring 50).mode = .recurring ∧
    (job 7 'f' .recurring 50).callback = .user ['f'] ∧ (job 7 'f' .recurring 50).id = 7 :=
  ⟨{ executing [job 7 'f' .recurring 50] with timeline :=
      [.atYield "CANCEL UserCallback, 7".toList, .resume .userCallback, .op "ITERATE UserCallback, 100".toList] },
    sound_executing _, rfl, rfl, rfl, by decide, by decide, rfl, fun c => by cases c <;> rfl, rfl, rfl, rfl, by decide, rfl, rfl,
    rfl⟩

end Sys2Proof.Tests
end

section
/-!
PROOF. The statements about the state (spec/10_state.md): the values at reset, the invariant that every step keeps, and what each
side leaves unchanged. The operations fall into five groups; what a group can do is said once, and the statements read it off.
-/

namespace Sys2Proof.Machine

/-! ## Reset -/

/-- Settles O1: each value is the one `State.reset` is written with. -/
theorem resetHoldsTheTabulatedValues : Obligations.ResetHoldsTheTabulatedValues := by
  refine ⟨rfl, rfl, rfl, rfl, rfl, rfl, rfl, rfl, rfl, rfl, rfl, rfl, rfl, rfl, rfl, rfl, rfl, fun q => ?_⟩
  cases q <;> exact ⟨rfl, rfl, rfl, rfl, rfl⟩

theorem Dec.reset_good : Dec.Good Dec.reset :=
  ⟨⟨by decide, by decide, by decide⟩, rfl, rfl, by decide⟩

theorem Tx.unconstructed_sound (serial : Nat) : (Tx.unconstructed serial).Sound :=
  ⟨nofun, rfl⟩

theorem Executor.reset_sound (q : Queue) : Executor.reset.Sound q :=
  ⟨fun _ => rfl, by decide, nofun, nofun, nofun⟩

/-- Settles O52, by the parts of the state. -/
theorem resetIsSound : Obligations.ResetIsSound :=
  ⟨Dec.reset_good.1, Dec.reset_good.2, Tx.unconstructed_sound 0, nofun, fun _ => rfl,
    Executor.reset_sound .priority, Executor.reset_sound .userCallback⟩

/-- Settles O25: each of the four tests `tx.ready` first. -/
theorem transmitterNotReadyIsRefused : Obligations.TransmitterNotReadyIsRefused := by
  intro s h l code a c hr
  refine ⟨?_, ?_, ?_, ?_⟩
  · simp [exec, execTxbit, hr]
  · simp [exec, execSend, hr]
  · simp [exec, execSendcmd, hr]
  · simp [exec, execSendlong, hr]

/-! ## The groups of operations -/

/-- The operations of TX (R47). -/
def Opcode.ofTx : List Opcode := [.txinit, .txbit, .enc, .send, .sendcmd, .sendlong]

/-- The operations that complete a pair (R103, R104, R71). -/
def Opcode.ofPairs : List Opcode :=
  [.spaceedge, .pulse, .bit0, .bit1, .frameEnd, .repeatCode, .header, .noise]

/-- The operations outside TX that neither complete a pair nor touch the flag (R43). -/
def Opcode.ofRest : List Opcode :=
  [.connect, .markedge, .clracc, .poll, .lasthex, .held, .onpress, .onrelease, .ondatagram, .schedule, .cancel, .iterate]

theorem Opcode.groups (o : Opcode) : o ∈ Opcode.ofTx ∨ o ∈ Opcode.ofPairs ∨ o = .handle ∨ o = .wasrx ∨ o ∈ Opcode.ofRest := by
  cases o <;> decide

/-! ## What is common to all operations outside TX -/

/-- What every change of `dec` keeps: the high-water mark does not fall (R25), and a protocol once set stays, with its pin
(R101). -/
structure Dec.Advances (d d' : Dec) : Prop where
  maxBits : d.maxBitsReceived ≤ d'.maxBitsReceived
  protocol : d.protocol.isSome = true → d'.protocol = d.protocol ∧ d'.rxPin = d.rxPin

theorem Dec.Advances.refl (d : Dec) : Dec.Advances d d := ⟨le_refl _, fun _ => ⟨rfl, rfl⟩⟩

theorem Dec.Advances.trans {d e f : Dec} (h : Dec.Advances d e) (k : Dec.Advances e f) : Dec.Advances d f where
  maxBits := h.maxBits.trans k.maxBits
  protocol hp := by
    obtain ⟨h1, h2⟩ := h.protocol hp
    obtain ⟨k1, k2⟩ := k.protocol (by rw [h1]; exact hp)
    exact ⟨k1.trans h1, k2.trans h2⟩

theorem Dec.Advances.append (b : Bool) (d : Dec) : Dec.Advances d (d.append b).1 := by
  by_cases h : d.bitsReceived = 63
  · rw [Dec.append_complete b d h]; exact ⟨le_refl _, fun _ => ⟨rfl, rfl⟩⟩
  · rw [Dec.append_incomplete b d h]; exact ⟨le_refl _, fun _ => ⟨rfl, rfl⟩⟩

theorem Dec.Advances.noteMax (d : Dec) : Dec.Advances d d.noteMax := ⟨le_max_left _ _, fun _ => ⟨rfl, rfl⟩⟩

theorem Dec.Advances.flush (d : Dec) : Dec.Advances d d.flush := ⟨le_refl _, fun _ => ⟨rfl, rfl⟩⟩

theorem Dec.Advances.perform (c : PairClass) (d : Dec) : Dec.Advances d (d.perform c).1 := by
  cases c with
  | bit0 => exact .append false d
  | bit1 => exact .append true d
  | frameEnd => exact (Dec.Advances.noteMax d).trans (.flush _)
  | repeatCode => exact .noteMax d
  | header => exact .noteMax d
  | noise => exact .noteMax d

theorem Dec.Advances.handle (sig : Signal) (now : Nat) (d : Dec) : Dec.Advances d (handleDec sig now d) := by
  cases sig <;> exact ⟨le_refl _, fun _ => ⟨rfl, rfl⟩⟩

theorem Dec.Advances.released (d : Dec) : Dec.Advances d d.released := ⟨le_refl _, fun _ => ⟨rfl, rfl⟩⟩

/-- What every operation outside TX does: it keeps the invariant and the state of TX (R47), and `dec` advances. -/
structure State.ActsOffTx (s t : State) : Prop where
  sound : s.Sound → t.Sound
  keepsTx : State.KeepsTx s t
  dec : Dec.Advances s.dec t.dec

theorem State.ActsOffTx.trans {s t u : State} (h : State.ActsOffTx s t) (k : State.ActsOffTx t u) :
    State.ActsOffTx s u where
  sound := k.sound ∘ h.sound
  keepsTx := ⟨k.keepsTx.tx.trans h.keepsTx.tx, k.keepsTx.txOthers.trans h.keepsTx.txOthers,
    k.keepsTx.micros.trans h.keepsTx.micros⟩
  dec := h.dec.trans k.dec

/-- The same, and the flag is untouched (R43). -/
structure State.ActsQuietly (s t : State) : Prop extends State.ActsOffTx s t where
  flag : t.dec.hasUnreadDatagram = s.dec.hasUnreadDatagram

theorem State.ActsQuietly.refl (s : State) : State.ActsQuietly s s := ⟨⟨id, ⟨rfl, rfl, rfl⟩, .refl _⟩, rfl⟩

theorem State.ActsQuietly.trans {s t u : State} (h : State.ActsQuietly s t) (k : State.ActsQuietly t u) :
    State.ActsQuietly s u :=
  ⟨h.toActsOffTx.trans k.toActsOffTx, k.flag.trans h.flag⟩

/-! ## The shared operations -/

theorem State.Sound.executor {s : State} (hs : s.Sound) (q : Queue) : (s.executor q).Sound q := by
  obtain ⟨-, -, -, -, -, hp, hu⟩ := hs
  cases q
  · exact hp
  · exact hu

theorem State.Sound.setExecutor {s : State} (hs : s.Sound) {q : Queue} {e : Executor} (he : e.Sound q) :
    (s.setExecutor q e).Sound := by
  obtain ⟨hb, hc, ht, ho, hr, hp, hu⟩ := hs
  cases q
  · exact ⟨hb, hc, ht, ho, hr, he, hu⟩
  · exact ⟨hb, hc, ht, ho, hr, hp, he⟩

theorem State.Sound.withDec {s : State} (hs : s.Sound) {d : Dec} (hd : Dec.Good d) : State.Sound { s with dec := d } := by
  obtain ⟨-, -, h⟩ := hs
  exact ⟨hd.1, hd.2, h⟩

theorem State.Sound.transmitters {s : State} (hs : s.Sound) :
    s.tx.Sound ∧ (∀ x ∈ s.txOthers, x.ready = true ∧ x.Sound) ∧ (s.tx.ready = false → s.txOthers = []) := by
  obtain ⟨-, -, ht, ho, hr, -⟩ := hs
  exact ⟨ht, ho, hr⟩

theorem State.Sound.good {s : State} (hs : s.Sound) : Dec.Good s.dec := ⟨hs.1, hs.2.1⟩

theorem State.ActsQuietly.emit (o : Output) (s : State) : State.ActsQuietly s (s.emit o) :=
  ⟨⟨id, ⟨rfl, rfl, rfl⟩, .refl _⟩, rfl⟩

theorem State.ActsQuietly.observeMillis (now : Nat) (s : State) : State.ActsQuietly s (s.observeMillis now) :=
  ⟨⟨id, ⟨rfl, rfl, rfl⟩, .refl _⟩, rfl⟩

theorem State.ActsQuietly.setExecutor {q : Queue} {e : Executor} (s : State) (he : e.Sound q) :
    State.ActsQuietly s (s.setExecutor q e) where
  sound hs := hs.setExecutor he
  keepsTx := ⟨by simp, by simp, by simp⟩
  dec := by simpa using Dec.Advances.refl s.dec
  flag := by simp

theorem State.ActsQuietly.enqueue (q : Queue) (c : Callback) (m : Mode) (d : Decimal) (s : State) (hd : 0 ≤ d.mant)
    (hm : m = .recurring → ((10 ^ d.scale : Nat) : Int) ≤ d.mant) : State.ActsQuietly s (s.enqueue q c m d).2 where
  sound := (State.enqueue_keepsSound q c m d s hd hm).sound
  keepsTx := ⟨by simp, by simp, by simp⟩
  dec := by simpa using Dec.Advances.refl s.dec
  flag := by simp

theorem State.ActsQuietly.withExecutor (q : Queue) (s : State) : State.ActsQuietly s (s.withExecutor q) := by
  cases hc : (s.executor q).created with
  | true => rw [State.withExecutor_created q s hc]; exact .refl s
  | false =>
    have he : s.withExecutor q = s.readMillis.2.setExecutor q
        { Executor.reset with created := true, lastIteration := s.readMillis.1, wake := s.readMillis.1 } := by
      simp [State.withExecutor, hc]
    rw [he]
    have hr : State.ActsQuietly s s.readMillis.2 := ⟨⟨id, ⟨rfl, rfl, rfl⟩, .refl _⟩, rfl⟩
    exact hr.trans (.setExecutor _ (Executor.created_sound q _))

theorem State.ActsQuietly.poll (now : Nat) (s : State) : State.ActsQuietly s (s.poll now) := by
  by_cases h : pollActs now s.dec
  · obtain ⟨hk, hd, -⟩ := State.poll_acts now s h
    refine ⟨⟨(State.poll_keepsSound now s).sound, ⟨hk.tx, hk.txOthers, hk.micros⟩, ?_⟩, ?_⟩
    · rw [hd]; exact Dec.Advances.released s.dec
    · rw [hd]
  · rw [State.poll_idle now s h]; exact .refl s

/-- The dispatcher (R171). It may set the flag. -/
theorem State.ActsOffTx.handle (sig : Signal) (now : Nat) (s : State) : State.ActsOffTx s (s.handle sig now) := by
  obtain ⟨hk, hd, hq⟩ := State.handle_spec sig now s
  have hsound : State.KeepsSound s (s.handle sig now) :=
    ⟨fun h => hd ▸ Dec.Good.handle sig now s.dec h, hk.tx, hk.txOthers, fun h => hk.priority ▸ h,
      fun h => Executor.Sound.queued _ (hq h.1) h⟩
  exact ⟨hsound.sound, ⟨hk.tx, hk.txOthers, hk.micros⟩, hd ▸ Dec.Advances.handle sig now s.dec⟩

theorem State.ActsOffTx.completePair (c : PairClass) (s : State) : State.ActsOffTx s (s.completePair c) where
  sound := (State.completePair_keepsSound c s).sound
  keepsTx := (State.completePair_keeps c s).1
  dec := by
    obtain ⟨now, -, hd⟩ := State.completePair_dec c s
    rw [hd]
    exact (Dec.Advances.perform c s.dec).trans (.handle _ now _)

/-- The flag after a pair (R43, R170): as before, or set by a pair that signals `DATAGRAM`. -/
theorem State.completePair_flag (c : PairClass) (s : State) :
    (s.completePair c).dec.hasUnreadDatagram = s.dec.hasUnreadDatagram ∨
    (s.completePair c).dec.hasUnreadDatagram = true ∧ (s.completePair c).outputs = s.outputs ++ [.pair c .datagram] := by
  obtain ⟨now, -, hd⟩ := State.completePair_dec c s
  have ho := (State.completePair_outputs c s).1
  have hf : (s.dec.perform c).1.hasUnreadDatagram = s.dec.hasUnreadDatagram := by rw [Dec.perform_frame]
  rw [hd]
  cases hsig : rowSignal c s.dec.bitsReceived with
  | incomplete => exact .inl hf
  | repeatCode => exact .inl hf
  | datagram => exact .inr ⟨rfl, by rw [ho, hsig]⟩

/-! ## Iterations and loops -/

/-- The frame of running jobs, with the invariant: `dec` is changed by releases at most. -/
theorem State.RunFrame.actsQuietly {q : Queue} {s t : State} (f : State.RunFrame q s t) (ht : s.Sound → t.Sound) :
    State.ActsQuietly s t := by
  obtain ⟨hd, hf⟩ := f.dec
    (fun d => Dec.Advances s.dec d ∧ d.hasUnreadDatagram = s.dec.hasUnreadDatagram)
    (fun d h => ⟨h.1.trans (.released d), h.2⟩) ⟨.refl _, rfl⟩
  exact ⟨⟨ht, ⟨f.tx, f.txOthers, f.micros⟩, hd⟩, hf⟩

/-- The executor that an iteration starts with is sound (R205, R207). -/
theorem Executor.Sound.settled {q : Queue} {e : Executor} (he : e.Sound q) (now wake : Nat)
    (hm : ∀ j ∈ e.settledJobs, j.marked = false) :
    Executor.Sound q ⟨true, e.settledJobs, [], [], e.interval, now, none, wake⟩ := by
  obtain ⟨-, hint, hlive, hadd, -⟩ := he
  refine ⟨nofun, hint, fun j hj => ?_, nofun, hm⟩
  rcases List.mem_append.mp (List.mem_filter.mp hj).1 with h | h
  · exact hlive j h
  · exact (hadd j h).1

theorem State.ActsQuietly.iterate {q : Queue} {s : State} (now : Nat) (hs : s.Sound)
    (hi : (s.executor q).iteration = none) : State.ActsQuietly s (s.iterate q now) := by
  obtain ⟨e, el, hrun, -, he, hm⟩ := State.iterate_eq_runJobs q now s hs hi
  have hes : e.Sound q := by
    subst he
    exact (hs.executor q).settled now _ hm
  have hset := (State.ActsQuietly.observeMillis now s).trans (.setExecutor (q := q) (s.observeMillis now) hes)
  have hu := hset.sound hs
  have hc : (((s.observeMillis now).setExecutor q e).executor q).created = true := by
    rw [State.executor_setExecutor, he]
  obtain ⟨-, -, hlive, -⟩ := hes
  have hjobs : ∀ j ∈ order q e.live, j.Accepted ∧ j.marked = false := fun j hj =>
    have hj := (mem_order q e.live j).1 hj
    ⟨hlive j hj, hm j hj⟩
  have hk := State.runJobs_keepsSound q el [] (order q e.live) _ hc hu.clean (hu.executor .priority)
    (hu.executor .userCallback) nofun hjobs
  rw [hrun]
  exact hset.trans ((State.runJobs_frame q el _ [] _ hc hu.clean).actsQuietly hk.sound)

theorem State.ActsQuietly.resumeIteration {s : State} (q : Queue) (hs : s.Sound) :
    State.ActsQuietly s (s.resumeIteration q) := by
  cases hi : (s.executor q).iteration with
  | none => rw [show s.resumeIteration q = s by simp [State.resumeIteration, hi]]; exact .refl s
  | some it =>
    have he : s.resumeIteration q = s.runJobs q it.elapsed ((order q (s.executor q).live).take it.visited)
        ((order q (s.executor q).live).drop it.visited) := by
      simp [State.resumeIteration, hi]
    have f := State.runJobs_frame q it.elapsed ((order q (s.executor q).live).drop it.visited)
      ((order q (s.executor q).live).take it.visited) s (hs.suspended hi).1 hs.clean
    exact (he ▸ f).actsQuietly fun _ => hs.resumeIteration q

theorem State.ActsQuietly.endIteration {s : State} (q : Queue) (hs : s.Sound) :
    State.ActsQuietly s (s.endIteration q) := by
  rcases hs.endIteration_cases q with h | f
  · rw [h]; exact .refl s
  · exact f.actsQuietly fun _ => (hs.endIteration q).1

/-- A turn of a loop (R201): nothing, the rest of a suspended iteration, or the next one. -/
theorem State.ActsQuietly.loopTurn {s : State} (q : Queue) (hs : s.Sound) : State.ActsQuietly s (s.loopTurn q) := by
  cases hc : (s.executor q).created with
  | false => rw [State.loopTurn_absent hc]; exact .refl s
  | true =>
    by_cases hi : (s.executor q).iteration = none
    · rw [State.loopTurn_awake hc hi]
      have hd : State.ActsQuietly s { s with draws := s.draws + 1 } := ⟨⟨id, ⟨rfl, rfl, rfl⟩, .refl _⟩, rfl⟩
      exact hd.trans (.iterate _ (hd.sound hs) (by simpa using hi))
    · rw [State.loopTurn_suspended hc hi]
      exact .resumeIteration q hs

/-! ## The operations outside TX -/

/-- The operations that complete a pair do so, from the latch they find or set (R71, R103, R104). -/
theorem exec_pair_next {i : Instr} {s t : State} (hi : i.opcode ∈ Opcode.ofPairs) (h : exec i s = .next t) :
    ∃ c m, t = State.completePair c { s with dec := { s.dec with markLatch := m } } := by
  have hrow : ∀ c m x, s.classRow c m x = .next t →
      ∃ c m, t = State.completePair c { s with dec := { s.dec with markLatch := m } } :=
    fun c m x h => ⟨c, s.dec.markLatch, State.classRow_next h⟩
  cases i <;> simp [Instr.opcode, Opcode.ofPairs] at hi
  case spaceedge x => exact ⟨_, s.dec.markLatch, exec_spaceedge_next h⟩
  case pulse m x => exact ⟨_, m, exec_pulse_next h⟩
  case bit0 m x => exact hrow .bit0 m x h
  case bit1 m x => exact hrow .bit1 m x h
  case frameEnd m x => exact hrow .frameEnd m x h
  case repeatCode m x => exact hrow .repeatCode m x h
  case header m x => exact hrow .header m x h
  case noise m x => exact hrow .noise m x h

/-- Latching a mark (R102). -/
theorem State.ActsQuietly.latch (m : Nat) (s : State) :
    State.ActsQuietly s { s with dec := { s.dec with markLatch := m } } :=
  ⟨⟨id, ⟨rfl, rfl, rfl⟩, le_refl _, fun _ => ⟨rfl, rfl⟩⟩, rfl⟩

theorem execHandle_acts {sig : Signal} {now : Nat} {s t : State} (h : execHandle sig now s = .next t) :
    State.ActsOffTx s t := by
  have hact : ∀ g, State.ActsOffTx s ((s.observeMillis now).handle g now) := fun g =>
    (State.ActsQuietly.observeMillis now s).toActsOffTx.trans (.handle g now _)
  cases sig with
  | incomplete => cases h; exact (State.ActsQuietly.refl s).toActsOffTx
  | datagram => cases h; exact hact .datagram
  | repeatCode => cases h; exact hact .repeatCode

theorem execWasrx_acts {s t : State} (h : execWasrx s = .next t) : State.ActsOffTx s t := by
  cases h
  exact ⟨id, ⟨rfl, rfl, rfl⟩, le_refl _, fun _ => ⟨rfl, rfl⟩⟩

theorem State.withExecutor_withDec (q : Queue) (d : Dec) (s : State) :
    State.withExecutor q { s with dec := d } = { s.withExecutor q with dec := d } := by
  unfold State.withExecutor
  rw [State.executor_withDec]
  split
  · rfl
  · cases q <;> rfl

/-- Enqueueing does not read `dec`. -/
theorem State.enqueue_withDec (q : Queue) (c : Callback) (m : Mode) (x : Decimal) (d : Dec) (s : State) :
    (State.enqueue q c m x { s with dec := d }).2 = { (s.enqueue q c m x).2 with dec := d } := by
  have hw := State.withExecutor_withDec q d { s with draws := s.draws + 1 }
  simp only [State.enqueue, hw, State.executor_withDec]
  cases q <;> rfl

/-- `dec` after the first `CONNECT` (R101). -/
def Dec.connected (p : Proto) (n : Pin) (d : Dec) : Dec :=
  { d with protocol := some p, rxPin := some n, pollRegistered := true }

/-- The first `CONNECT` (R101): the poll is enqueued, once `dec` is connected. -/
theorem execConnect_first (p : Proto) (n : Pin) (s : State) (hp : s.dec.protocol = none)
    (hr : s.dec.pollRegistered = false) :
    execConnect p n s = .next (State.enqueue .priority .poll .recurring (Decimal.ofNat REPEAT_TIMEOUT_MS)
      { s with dec := s.dec.connected p n }).2 := by
  simp [execConnect, hp, hr, State.enqueue_withDec, Dec.connected]

/-- `CONNECT` (R101). In a sound state the poll is registered with the protocol, so the first `CONNECT` enqueues it. -/
theorem execConnect_acts {p : Proto} {n : Pin} {s t : State} (hs : s.Sound) (h : execConnect p n s = .next t) :
    State.ActsQuietly s t := by
  obtain ⟨hb, hpin, hpoll, hcmd⟩ := hs.good
  cases hp : s.dec.protocol with
  | some p' =>
    have he : execConnect p n s = .next s := by simp [execConnect, hp]
    cases he.symm.trans h
    exact .refl s
  | none =>
    have hr : s.dec.pollRegistered = false := by rw [← hpoll, hp]; rfl
    cases (execConnect_first p n s hp hr).symm.trans h
    have hc : State.ActsQuietly s { s with dec := s.dec.connected p n } :=
      ⟨⟨fun hs => hs.withDec ⟨hb, rfl, rfl, hcmd⟩, ⟨rfl, rfl, rfl⟩, le_refl _, fun hn => by simp [hp] at hn⟩, rfl⟩
    exact hc.trans (.enqueue _ _ _ _ _ (by decide) fun _ => by decide)

/-- `SCHEDULE` (R204): dropped, or a job that was accepted. -/
theorem execSchedule_acts {q : Queue} {c : Option Callback} {m : Mode} {d : Decimal} {s t : State}
    (h : execSchedule q c m d s = .next t) : State.ActsQuietly s t := by
  cases c with
  | none => cases h; exact .emit _ s
  | some c =>
    simp only [execSchedule] at h
    split_ifs at h with hneg hlow
    · cases h; exact .emit _ s
    · cases h
      have hd : 0 ≤ d.mant := by simpa [Decimal.negative] using hneg
      have hm : m = .recurring → ((10 ^ d.scale : Nat) : Int) ≤ d.mant := fun hr => by
        simpa [Decimal.belowOne, hr] using hlow
      exact (State.ActsQuietly.enqueue q c m d s hd hm).trans (.emit _ _)

/-- `CANCEL` (R206): the id is buffered in an executor that its first use makes. -/
theorem execCancel_acts {q : Queue} {id : Bits31} {s t : State} (hs : s.Sound) (h : execCancel q id s = .next t) :
    State.ActsQuietly s t := by
  cases h
  have hw := State.ActsQuietly.withExecutor q s
  refine hw.trans (.setExecutor _ ?_)
  obtain ⟨-, hint, hlive, hadd, hmark⟩ := (hw.sound hs).executor q
  have hcr : ((s.withExecutor q).executor q).created = true := by
    rw [State.withExecutor_executor]
    exact (State.firstUse_sound q s (hs.executor q)).2
  exact ⟨fun hn => by simp [hcr] at hn, hint, hlive, hadd, hmark⟩

/-- The operations outside TX that neither complete a pair nor touch the flag. -/
theorem exec_rest_acts {i : Instr} {s t : State} (hs : s.Sound) (hi : i.opcode ∈ Opcode.ofRest)
    (h : exec i s = .next t) : State.ActsQuietly s t := by
  have hdec : ∀ d, t = { s with dec := d } → Dec.Good d → Dec.Advances s.dec d →
      d.hasUnreadDatagram = s.dec.hasUnreadDatagram → State.ActsQuietly s t := by
    rintro d rfl hg ha hf
    exact ⟨⟨fun hs => hs.withDec hg, ⟨rfl, rfl, rfl⟩, ha⟩, hf⟩
  cases i <;> simp [Instr.opcode, Opcode.ofRest] at hi
  case connect p n => exact execConnect_acts hs h
  case markedge m => rw [exec_markedge_next h]; exact .latch m s
  case clracc =>
    cases h
    obtain ⟨⟨-, -, hmax⟩, hcons⟩ := hs.good
    exact hdec _ rfl ⟨⟨by simp, by simp, hmax⟩, hcons⟩ ⟨le_refl _, fun _ => ⟨rfl, rfl⟩⟩ rfl
  case poll now => cases h; exact (State.ActsQuietly.observeMillis now s).trans (.poll now _)
  case lasthex => cases h; exact .emit _ s
  case held => cases h; exact .emit _ s
  case onpress k c => cases h; exact hdec _ rfl hs.good ⟨le_refl _, fun _ => ⟨rfl, rfl⟩⟩ rfl
  case onrelease k c => cases h; exact hdec _ rfl hs.good ⟨le_refl _, fun _ => ⟨rfl, rfl⟩⟩ rfl
  case ondatagram c => cases h; exact hdec _ rfl hs.good ⟨le_refl _, fun _ => ⟨rfl, rfl⟩⟩ rfl
  case schedule q c m d => exact execSchedule_acts h
  case cancel q id => exact execCancel_acts hs h
  case iterate q now =>
    cases h
    obtain ⟨he, hn⟩ := hs.endIteration q
    exact (State.ActsQuietly.endIteration q hs).trans (.iterate now he hn)

/-- Every operation outside TX. -/
theorem exec_acts {i : Instr} {s t : State} (hs : s.Sound) (hi : i.opcode ∉ Opcode.ofTx) (h : exec i s = .next t) :
    State.ActsOffTx s t := by
  rcases Opcode.groups i.opcode with hg | hg | hg | hg | hg
  · exact absurd hg hi
  · obtain ⟨c, m, rfl⟩ := exec_pair_next hg h
    exact (State.ActsQuietly.latch m s).toActsOffTx.trans (.completePair c _)
  · cases i <;> simp [Instr.opcode] at hg
    exact execHandle_acts h
  · cases i <;> simp [Instr.opcode] at hg
    exact execWasrx_acts h
  · exact (exec_rest_acts hs hg h).toActsOffTx

/-! ## The operations of TX -/

/-- What an operation of TX keeps: DEC, the executors and their context and clock (R47). -/
structure State.KeepsDecSide (s t : State) : Prop where
  dec : t.dec = s.dec
  priority : t.priority = s.priority
  userCallback : t.userCallback = s.userCallback
  stuck : t.stuck = s.stuck
  millis : t.millis = s.millis

theorem State.KeepsDecSide.sound {s t : State} (h : State.KeepsDecSide s t) (hs : s.Sound) (htx : t.tx.Sound)
    (hothers : ∀ x ∈ t.txOthers, x.ready = true ∧ x.Sound) (hready : t.tx.ready = false → t.txOthers = []) : t.Sound := by
  obtain ⟨hb, hc, -, -, -, hp, hu⟩ := hs
  exact ⟨h.dec ▸ hb, h.dec ▸ hc, htx, hothers, hready, h.priority ▸ hp, h.userCallback ▸ hu⟩

/-- An operation of TX other than `TXINIT`: the addressed transmitter emits a trace, if anything, and nothing but its record and
the outputs changes. -/
theorem exec_emitter_next {i : Instr} {s t : State} (hi : i.opcode ∈ Opcode.ofTx) (hn : i.opcode ≠ .txinit)
    (h : exec i s = .next t) :
    State.KeepsDecSide s t ∧ t.txOthers = s.txOthers ∧ (t.tx = s.tx ∨ ∃ items, Tx.Emits items .space s.tx t.tx) := by
  have hi' : i.opcode ∈ [.txbit, .enc, .send, .sendcmd, .sendlong] := (List.mem_cons.mp hi).resolve_left hn
  rcases exec_tx_next i s t h hi' with ⟨o, rfl⟩ | ⟨t', items, ⟨he, rfl⟩ | rfl⟩
  · exact ⟨⟨rfl, rfl, rfl, rfl, rfl⟩, rfl, .inl rfl⟩
  · exact ⟨⟨rfl, rfl, rfl, rfl, rfl⟩, rfl, .inr ⟨items, he⟩⟩
  · exact ⟨⟨rfl, rfl, rfl, rfl, rfl⟩, rfl, .inl rfl⟩

/-- The transmitter that `TXINIT` makes is ready and sound (R131, R142): the calibration ends with the pin at `SPACE`. -/
theorem Tx.calibrated_sound (correction : Int) (serial : Nat) (pin : Pin) :
    (Tx.calibrated correction (Tx.calibrating serial pin)).Sound := by
  have he := Tx.pulses_emits CAL_PULSE CAL_PULSE CAL_RUNS
    { (Tx.unconstructed serial).drive .zero with pin := pin, pwmPeriod := PWM_PERIOD } nofun
  have hc : (Tx.calibrating serial pin).Sound := he.sound ⟨nofun, rfl⟩
  refine ⟨fun _ => ⟨he.level, he.pwmPeriod⟩, ?_⟩
  simpa [Tx.calibrated, TraceItem.isWait] using hc.2

theorem State.Sound.olderTransmitters {s : State} (hs : s.Sound) :
    ∀ x ∈ s.olderTransmitters, x.ready = true ∧ x.Sound := by
  obtain ⟨ht, ho, -⟩ := hs.transmitters
  unfold State.olderTransmitters
  split
  · next hr =>
    intro x hx
    rcases List.mem_append.mp hx with hx | hx
    · exact ho x hx
    · rw [List.mem_singleton.mp hx]; exact ⟨hr, ht⟩
  · exact ho

/-- Every operation of TX keeps the other side (R47) and the invariant. -/
theorem exec_tx_keeps {i : Instr} {s t : State} (hi : i.opcode ∈ Opcode.ofTx) (h : exec i s = .next t) :
    State.KeepsDecSide s t ∧ (s.Sound → t.Sound) := by
  by_cases hn : i.opcode = .txinit
  · cases i <;> simp [Instr.opcode] at hn
    cases h
    have hk : ∀ x xs m d, State.KeepsDecSide s { s with tx := x, txOthers := xs, micros := m, draws := d } :=
      fun _ _ _ _ => ⟨rfl, rfl, rfl, rfl, rfl⟩
    exact ⟨hk _ _ _ _, fun hs => (hk _ _ _ _).sound hs (Tx.calibrated_sound _ _ _) hs.olderTransmitters nofun⟩
  · obtain ⟨hk, ho, htx⟩ := exec_emitter_next hi hn h
    refine ⟨hk, fun hs => ?_⟩
    obtain ⟨ht, hothers, hready⟩ := hs.transmitters
    have hkept : t.tx.Sound ∧ t.tx.ready = s.tx.ready := by
      rcases htx with he | ⟨items, he⟩
      · rw [he]; exact ⟨ht, rfl⟩
      · exact ⟨he.sound ht, he.ready⟩
    exact hk.sound hs hkept.1 (ho ▸ hothers) (by rw [hkept.2, ho]; exact hready)

/-- Addressing another transmitter (log 13): it is constructed, and so is the one addressed before. -/
theorem State.useTx_next {k : Nat} {s t : State} (h : s.useTx k = .next t) :
    State.KeepsDecSide s t ∧ (s.Sound → t.Sound) := by
  unfold State.useTx at h
  split at h
  · next x hx =>
    cases h
    have hk : State.KeepsDecSide s { s with tx := x, txOthers := s.txOthers.set k s.tx } := ⟨rfl, rfl, rfl, rfl, rfl⟩
    refine ⟨hk, fun hs => ?_⟩
    obtain ⟨ht, hothers, hready⟩ := hs.transmitters
    have hmem : x ∈ s.txOthers := List.mem_of_getElem? hx
    obtain ⟨hxr, hxs⟩ := hothers x hmem
    have hr : s.tx.ready = true := by
      by_contra hn
      rw [hready (by simpa using hn)] at hmem
      cases hmem
    refine hk.sound hs hxs (fun y hy => ?_) fun hn => by rw [hxr] at hn; cases hn
    rcases List.mem_or_eq_of_mem_set hy with hy | rfl
    · exact hothers y hy
    · exact ⟨hr, ht⟩
  · cases h

/-! ## Every operation and every step -/

/-- Every operation keeps the invariant, and `dec` advances. -/
theorem exec_keeps {i : Instr} {s t : State} (hs : s.Sound) (h : exec i s = .next t) :
    t.Sound ∧ Dec.Advances s.dec t.dec := by
  by_cases hi : i.opcode ∈ Opcode.ofTx
  · obtain ⟨hk, hsound⟩ := exec_tx_keeps hi h
    exact ⟨hsound hs, hk.dec ▸ .refl _⟩
  · have ha := exec_acts hs hi h
    exact ⟨ha.sound hs, ha.dec⟩

/-- Every step keeps the invariant, and `dec` advances. The invariant does not speak of the timeline or the draws. -/
theorem step_keeps {s t : State} (hs : s.Sound) (h : step s = .next t) : t.Sound ∧ Dec.Advances s.dec t.dec := by
  rcases step_cases h with rfl | ⟨line, rest, i, -, -, -, hx⟩ | ⟨-, q, rest, draws, -, rfl | rfl⟩ | ⟨-, k, rest, -, hx⟩
  · exact ⟨hs, .refl _⟩
  · exact exec_keeps (s := { s with timeline := rest }) hs hx
  · have ha := State.ActsQuietly.resumeIteration (s := { s with timeline := rest, draws := draws }) q hs
    exact ⟨ha.sound hs, ha.dec⟩
  · have ha := State.ActsQuietly.loopTurn (s := { s with timeline := rest, draws := draws }) q hs
    exact ⟨ha.sound hs, ha.dec⟩
  · obtain ⟨hk, hsound⟩ := State.useTx_next hx
    exact ⟨hsound hs, hk.dec ▸ .refl _⟩

/-! ## The statements -/

/-- Settles O53, by the kinds of step and the groups of operations. -/
theorem everyStepKeepsSoundness : Obligations.EveryStepKeepsSoundness :=
  fun _ _ hs h => (step_keeps hs h).1

/-- Settles O54: `dec` advances at every step. -/
theorem highWaterMarkNeverDecreases : Obligations.HighWaterMarkNeverDecreases :=
  fun _ _ hs h => (step_keeps hs h).2.maxBits

/-- Settles O55: `dec` advances at every step. -/
theorem protocolIsSetOnce : Obligations.ProtocolIsSetOnce := by
  intro s t p hs hp h
  obtain ⟨h1, h2⟩ := (step_keeps hs h).2.protocol (by rw [hp]; rfl)
  exact ⟨h1.trans hp, h2⟩

/-- Settles O28: each side's operations keep the other's state. -/
theorem eachSideLeavesTheOthersStateUnchanged : Obligations.EachSideLeavesTheOthersStateUnchanged := by
  intro i s t hs h
  refine ⟨fun hi => ?_, fun hi => ?_⟩
  · obtain ⟨hdec, hpri, husr, hstuck, hmillis⟩ := (exec_tx_keeps hi h).1
    exact ⟨hdec, hpri, husr, hstuck, hmillis⟩
  · obtain ⟨htx, hothers, hmicros⟩ := (exec_acts hs hi h).keepsTx
    exact ⟨htx, hothers, hmicros⟩

/-- Settles O27: an operation of TX other than `TXINIT` emits a trace at most, and the others leave TX as it is. -/
theorem correctionIsFixedAndTraceOnlyGrows : Obligations.CorrectionIsFixedAndTraceOnlyGrows := by
  intro i s t hs hn h
  have hkept : t.txOthers = s.txOthers ∧ (t.tx = s.tx ∨ ∃ items, Tx.Emits items .space s.tx t.tx) := by
    by_cases hi : i.opcode ∈ Opcode.ofTx
    · exact (exec_emitter_next hi hn h).2
    · have hk := (exec_acts hs hi h).keepsTx
      exact ⟨hk.txOthers, .inl hk.tx⟩
  obtain ⟨ho, he | ⟨items, he⟩⟩ := hkept
  · rw [he]
    exact ⟨rfl, rfl, rfl, rfl, ⟨[], List.append_nil _⟩, ho⟩
  · exact ⟨he.waitCorrection, he.pin, he.ready, he.pwmPeriod, ⟨items, he.trace.symm⟩, ho⟩

/-- Settles O56: outside `HANDLE` and `WASRX` only a completed pair can touch the flag. -/
theorem flagChangesOnlyByHandleAndWasrx : Obligations.FlagChangesOnlyByHandleAndWasrx := by
  intro i s t hs h hhandle hwasrx
  rcases Opcode.groups i.opcode with hg | hg | hg | hg | hg
  · exact .inl (by rw [(exec_tx_keeps hg h).1.dec])
  · obtain ⟨c, m, rfl⟩ := exec_pair_next hg h
    exact (State.completePair_flag c _).imp id fun hf => ⟨hf.1, c, hf.2⟩
  · exact absurd hg hhandle
  · exact absurd hg hwasrx
  · exact .inl (exec_rest_acts hs hg h).flag

end Sys2Proof.Machine
end

section
/-!
PROOF. The statements about the timeline (spec/20_memory.md R60): a step is the event that stands next, the machine waits when
there is none, and an iteration suspended at a Yield ends as one that was not. A suspension keeps what is left to do in the
executor; running jobs does not read it there, so going on from it and never having stopped meet in one state
(`State.runJobs_atTimeline`).
-/

namespace Sys2Proof.Machine

/-! ## The event that stands next -/

theorem step_event {s : State} {e : Event} {rest : List Event} (h : s.timeline = e :: rest) :
    step s = State.runEvent e { s with timeline := rest } := by
  simp [step, h]

theorem step_idle {s : State} (h : s.timeline = []) : step s = .next s.background := by
  simp [step, h]

/-- The operations of the interrupt context, as R240 lists them. -/
theorem Opcode.inInterrupt_iff (o : Opcode) : Opcode.inInterrupt o = true ↔
    o ∈ [.markedge, .spaceedge, .pulse, .bit0, .bit1, .frameEnd, .repeatCode, .header, .noise, .handle] := by
  cases o <;> decide

/-- A line whose context can run performs its operation (R85, R240). -/
theorem State.runLine_ok {s : State} {line : Text} {i : Instr} (hd : decode line = .ok i)
    (hc : s.stuck = false ∨ Opcode.inInterrupt i.opcode = true) : s.runLine line = exec i s := by
  simp only [State.runLine, hd]
  split
  · rfl
  · next hn => exact State.cooperative_free _ (hc.resolve_right hn)

/-- Settles O50: a line at a Yield runs as any other line. -/
theorem stepRunsTheDecodedOperation : Obligations.StepRunsTheDecodedOperation := by
  intro s line rest i ht hd hc
  have hline : State.runLine line { s with timeline := rest } = exec i { s with timeline := rest } :=
    State.runLine_ok hd (hc.imp id (Opcode.inInterrupt_iff i.opcode).2)
  rcases ht with ht | ht
  · exact (step_event ht).trans hline
  · exact (step_event ht).trans hline

/-- Settles O51: a turn in the background needs a cooperative context that runs and a loop that exists. -/
theorem stepWithNothingToDoWaits : Obligations.StepWithNothingToDoWaits := by
  intro s ht h
  rw [step_idle ht]
  rcases State.background_cases s with ⟨hb, -⟩ | ⟨hstuck, hcreated, -⟩
  · rw [hb]
  · rcases h with h | ⟨hp, hu⟩
    · rw [h] at hstuck; cases hstuck
    · have hnone : ∀ q, (s.executor q).created = false := by
        intro q
        cases q
        · exact hp
        · exact hu
      rw [hnone] at hcreated
      cases hcreated

/-- The end of a Yield (log 10). -/
theorem step_resume {s : State} {q : Queue} {rest : List Event} (h : s.timeline = .resume q :: rest)
    (hs : s.stuck = false) : step s = .next (State.resumeIteration q { s with timeline := rest }) := by
  rw [step_event h]
  exact State.cooperative_free (s := { s with timeline := rest }) (fun s => .next (s.resumeIteration q)) hs

/-! ## The start of an iteration -/

/-- What an iteration subtracts from the time its jobs have left (R208): nothing, where it is the executor's first use. -/
def State.elapsedAt (q : Queue) (now : Nat) (s : State) : Int :=
  if (s.executor q).created then (now : Int) - (s.executor q).lastIteration else 0

/-- The state in which an iteration that none precedes begins to run its jobs (R205, R207, R208). -/
def State.started (q : Queue) (now : Nat) (s : State) : State :=
  (s.observeMillis now).setExecutor q ⟨true, (s.executor q).settledJobs, [], [], (s.executor q).interval, now, none,
    if (s.executor q).created then (s.executor q).wake else now⟩

theorem State.iterate_eq_started {q : Queue} {s : State} (now : Nat) (hs : s.Sound)
    (hi : (s.executor q).iteration = none) : s.iterate q now =
      (s.started q now).runJobs q (s.elapsedAt q now) [] (order q (s.executor q).settledJobs) := by
  obtain ⟨e, el, hrun, rfl, rfl, -⟩ := State.iterate_eq_runJobs q now s hs hi
  exact hrun

section
variable (q : Queue) (now : Nat) (s : State)

@[simp] theorem State.started_outputs : (s.started q now).outputs = s.outputs := by simp [State.started]
@[simp] theorem State.started_timeline : (s.started q now).timeline = s.timeline := by simp [State.started]
@[simp] theorem State.started_stuck : (s.started q now).stuck = s.stuck := by simp [State.started]
@[simp] theorem State.started_created : ((s.started q now).executor q).created = true := by simp [State.started]

theorem State.started_withTimeline (l : List Event) :
    { s.started q now with timeline := l } = State.started q now { s with timeline := l } := by
  cases q <;> rfl

theorem State.elapsedAt_withTimeline (l : List Event) : State.elapsedAt q now { s with timeline := l } = s.elapsedAt q now := by
  simp [State.elapsedAt]

theorem State.started_clean (h : s.userCallback.Clean) : (s.started q now).userCallback.Clean := by
  cases q with
  | priority => exact h
  | userCallback => exact nofun
end

/-- `ITERATE` when no iteration of the executor is suspended (R208). -/
theorem exec_iterate_none {q : Queue} {s : State} (now : Nat) (hi : (s.executor q).iteration = none) :
    exec (.iterate q now) s = .next (s.iterate q now) :=
  congrArg (fun t => Host.Outcome.next (State.iterate q now t)) (State.endIteration_none hi)

/-- Two runs of `ITERATE` that differ in the timeline begin alike. -/
theorem State.iterate_withTimeline {q : Queue} {s : State} (now : Nat) (l : List Event) (hs : s.Sound)
    (hi : (s.executor q).iteration = none) : State.iterate q now { s with timeline := l } =
      State.runJobs q (s.elapsedAt q now) [] (order q (s.executor q).settledJobs)
        (State.started q now { s with timeline := l }) := by
  have h := State.iterate_eq_started (s := { s with timeline := l }) now hs (by simpa using hi)
  rwa [State.elapsedAt_withTimeline, State.executor_withTimeline] at h

/-! ## The first due job -/

/-- A callback returns when something runs at the Yield after it: only one event stands next. -/
theorem State.hangs_of_yieldTaken {s : State} (h : s.yieldTaken = true) (c : Callback) : s.hangs c = false := by
  unfold State.hangs
  split
  · next hl => simp [State.yieldTaken, hl] at h
  · rfl

/-- The jobs visited once the first that is due, `j`, is called (R208). -/
def visitedUpTo (elapsed : Int) (before : List Job) (j : Job) : List Job :=
  before.map (Job.tick elapsed) ++ [(j.tick elapsed).afterCall]

section
variable {q : Queue} {elapsed : Int} {before after : List Job} {j : Job} {s : State}

/-- With something at the Yields, running jobs stops at the Yield after the first that is due (R60 (O6)). -/
theorem State.runJobs_suspended (hc : (s.executor q).created = true) (hcl : s.userCallback.Clean)
    (hb : ∀ k ∈ before, k.dueAfter elapsed = false) (hj : j.dueAfter elapsed = true) (hy : s.yieldTaken = true) :
    s.runJobs q elapsed [] (before ++ j :: after) =
      (s.callJob q (j.tick elapsed)).suspendIteration q elapsed (visitedUpTo elapsed before j) after := by
  have hcall : (s.callJob q (j.tick elapsed)).yieldTaken = true :=
    (State.callJob_spec q (j.tick elapsed) s hc hcl).1.yieldTaken.trans hy
  rw [State.runJobs_firstDue q elapsed before after j [] s hb hj, State.hangs_of_yieldTaken hy, hcall]
  rfl

/-- With an empty timeline the first due job is called and the jobs after it run. -/
theorem State.runJobs_uninterrupted (hc : (s.executor q).created = true) (hcl : s.userCallback.Clean)
    (hb : ∀ k ∈ before, k.dueAfter elapsed = false) (hj : j.dueAfter elapsed = true) (ht : s.timeline = []) :
    s.runJobs q elapsed [] (before ++ j :: after) =
      (s.callJob q (j.tick elapsed)).runJobs q elapsed (visitedUpTo elapsed before j) after := by
  have hy : (s.callJob q (j.tick elapsed)).yieldTaken = false := by
    rw [(State.callJob_spec q (j.tick elapsed) s hc hcl).1.yieldTaken, State.yieldTaken, ht]
  have hh : s.hangs j.callback = false := by
    simp [State.hangs, ht]
  rw [State.runJobs_firstDue q elapsed before after j [] s hb hj, hh, hy]
  rfl

/-- A suspended iteration goes on with what it had not visited, in the order it had. -/
theorem State.resumeIteration_suspendIteration (q : Queue) (elapsed : Int) (visited todo : List Job) (l : List Event)
    (s : State) : State.resumeIteration q { s.suspendIteration q elapsed visited todo with timeline := l } =
      State.runJobs q elapsed visited todo { s.suspendIteration q elapsed visited todo with timeline := l } := by
  simp [State.resumeIteration]

/-- An iteration suspended at its first Yield that goes on with nothing run in between ends as one with nothing at its
Yields. -/
theorem State.resumeIteration_runJobs (hc : (s.executor q).created = true) (hcl : s.userCallback.Clean)
    (hb : ∀ k ∈ before, k.dueAfter elapsed = false) (hj : j.dueAfter elapsed = true) (hy : s.yieldTaken = true) :
    State.resumeIteration q { s.runJobs q elapsed [] (before ++ j :: after) with timeline := [] } =
      State.runJobs q elapsed [] (before ++ j :: after) { s with timeline := [] } := by
  have hf := (State.callJob_spec q (j.tick elapsed) s hc hcl).1
  have hmeet : ∀ l i, State.runJobs q elapsed (visitedUpTo elapsed before j) after
      (State.atTimeline q l i [] (s.callJob q (j.tick elapsed))) =
      State.runJobs q elapsed (visitedUpTo elapsed before j) after
        (State.atTimeline q [] none [] (s.callJob q (j.tick elapsed))) :=
    fun l i => State.runJobs_atTimeline q elapsed l i [] after _ _ hf.created hf.after
  have hempty : ({ s with timeline := [] } : State) =
      State.atTimeline q (s.executor q).live (s.executor q).iteration [] s := by
    cases q <;> rfl
  calc State.resumeIteration q { s.runJobs q elapsed [] (before ++ j :: after) with timeline := [] }
      = State.runJobs q elapsed (visitedUpTo elapsed before j) after
          (State.atTimeline q (order q (visitedUpTo elapsed before j ++ after))
            (some ⟨elapsed, (visitedUpTo elapsed before j).length⟩) [] (s.callJob q (j.tick elapsed))) := by
        rw [State.runJobs_suspended hc hcl hb hj hy]
        exact State.resumeIteration_suspendIteration q elapsed _ after [] _
    _ = State.runJobs q elapsed (visitedUpTo elapsed before j) after
          (State.atTimeline q (s.executor q).live (s.executor q).iteration [] (s.callJob q (j.tick elapsed))) :=
        (hmeet _ _).trans (hmeet _ _).symm
    _ = State.runJobs q elapsed (visitedUpTo elapsed before j) after
          (State.callJob q (j.tick elapsed) { s with timeline := [] }) := by
        rw [hempty, State.callJob_atTimeline _ _ _ _ _ _ hc]
    _ = State.runJobs q elapsed [] (before ++ j :: after) { s with timeline := [] } :=
        (State.runJobs_uninterrupted (s := { s with timeline := [] }) (by simpa using hc) hcl hb hj rfl).symm
end

/-- An iteration that is suspended has called a job that was due: the first one. -/
theorem State.exists_firstDue {q : Queue} {elapsed : Int} {jobs visited : List Job} {s : State}
    (h : ((s.runJobs q elapsed visited jobs).executor q).iteration ≠ none) :
    ∃ before j after, jobs = before ++ j :: after ∧ (∀ k ∈ before, k.dueAfter elapsed = false) ∧
      j.dueAfter elapsed = true := by
  cases hf : jobs.find? (Job.dueAfter elapsed) with
  | none =>
    have hn : ∀ k ∈ jobs, k.dueAfter elapsed = false := by simpa using hf
    rw [State.runJobs_noneDue q elapsed jobs visited s hn] at h
    simp [State.finishIteration] at h
  | some j =>
    obtain ⟨hj, before, after, rfl, hb⟩ := List.find?_eq_some_iff_append.mp hf
    exact ⟨before, j, after, rfl, by simpa using hb, hj⟩

/-! ## Suspension and resumption -/

/-- An iteration with something at its Yield is suspended at the first (R60 (O6), log 10). -/
theorem exec_iterate_suspends {q : Queue} {now : Nat} {s : State} {before after : List Job} {j : Job} (hs : s.Sound)
    (hi : (s.executor q).iteration = none) (hy : s.yieldTaken = true)
    (ho : order q (s.executor q).settledJobs = before ++ j :: after)
    (hb : ∀ k ∈ before, k.dueAfter (s.elapsedAt q now) = false) (hj : j.dueAfter (s.elapsedAt q now) = true) :
    exec (.iterate q now) s = .next (((s.started q now).callJob q (j.tick (s.elapsedAt q now))).suspendIteration q
      (s.elapsedAt q now) (visitedUpTo (s.elapsedAt q now) before j) after) := by
  have hy' : (s.started q now).yieldTaken = true := by simpa [State.yieldTaken] using hy
  rw [exec_iterate_none now hi, State.iterate_eq_started now hs hi, ho,
    State.runJobs_suspended (State.started_created q now s) (State.started_clean q now s hs.clean) hb hj hy']

/-- An iteration that was suspended at its first Yield, and goes on at once, ends as the uninterrupted one. -/
theorem step_resume_eq_uninterrupted {q : Queue} {now : Nat} {line : Text} {s t u : State} (hs : s.Sound)
    (hstuck : s.stuck = false) (hi : (s.executor q).iteration = none)
    (ht : exec (.iterate q now) { s with timeline := [] } = .next t)
    (hu : exec (.iterate q now) { s with timeline := [.atYield line] } = .next u)
    (hsusp : (u.executor q).iteration ≠ none) : step { u with timeline := [.resume q] } = .next t := by
  rw [exec_iterate_none now (by simpa using hi), State.iterate_withTimeline now _ hs hi] at ht hu
  have ht := Host.Outcome.next.inj ht
  have hu := Host.Outcome.next.inj hu
  have hc := State.started_created q now { s with timeline := [.atYield line] }
  have hcl := State.started_clean q now { s with timeline := [.atYield line] } hs.clean
  have hy : (State.started q now { s with timeline := [.atYield line] }).yieldTaken = true := by simp [State.yieldTaken]
  obtain ⟨before, j, after, ho, hb, hj⟩ := State.exists_firstDue (hu ▸ hsusp)
  rw [ho] at ht hu
  have hfree : u.stuck = false := by
    rw [← hu, State.runJobs_suspended hc hcl hb hj hy]
    simp [State.suspendIteration, State.callJob_stuck, hstuck]
  have hmeet := State.resumeIteration_runJobs (after := after) hc hcl hb hj hy
  rw [hu, State.started_withTimeline, ht] at hmeet
  rw [step_resume (s := { u with timeline := [.resume q] }) rfl hfree, hmeet]

/-- Settles O45: an iteration is suspended after its first due job; the jobs not yet visited run when it goes on; what it keeps
meanwhile is not read; and an `ITERATE` begins by ending it. -/
theorem suspendedIterationEndsAsUninterrupted : Obligations.SuspendedIterationEndsAsUninterrupted := by
  refine ⟨?suspends, ?goesOn, ?meets, ?endsFirst⟩
  case suspends =>
    rintro q now s _ before after j hs hi hy rfl ho hb hj
    have hx := exec_iterate_suspends (now := now) hs hi hy ho hb hj
    obtain ⟨hf, hout⟩ := State.callJob_spec q (j.tick (s.elapsedAt q now)) (s.started q now)
      (State.started_created q now s) (State.started_clean q now s hs.clean)
    refine ⟨_, hx, ?_, ?_, ?_, ?_, ?_⟩
    · simpa [State.suspendIteration, Job.tick] using hout
    · simp [visitedUpTo, State.elapsedAt]
    · simp [visitedUpTo, State.elapsedAt]
    · simpa [State.suspendIteration] using hf.timeline
    · simp [State.suspendIteration, State.callJob_stuck]
  case goesOn =>
    intro q rest it s hs hstuck ht hi hy hh
    have hs' : State.Sound { s with timeline := rest } := hs
    obtain ⟨hf, hnone, hlive, hout, hwake, hfree⟩ :=
      State.resumeIteration_whole q { s with timeline := rest } it hs' (by simpa using hi) hy hh
    rw [State.executor_withTimeline] at hlive hout hwake
    exact ⟨_, step_resume ht hstuck, hnone, hlive, hout, hwake, hf.timeline, hfree.trans hstuck⟩
  case meets =>
    intro q now line s t u hs hstuck hi ht hu hsusp
    exact step_resume_eq_uninterrupted hs hstuck hi ht hu hsusp
  case endsFirst =>
    intro q now s hs hstuck _
    have hended := (hs.endIteration q).2
    refine ⟨_, _, step_resume rfl hstuck, by simpa [State.endIteration] using hended, rfl, ?_⟩
    exact exec_iterate_none now hended

end Sys2Proof.Machine
end

section
/-!
PROOF. The statements about encoding (spec/30_encoding.md): the written form of an operation, which the decoder inverts (R85, R88),
and the operation map, of which every pair selects exactly one row (R71).
-/

namespace Sys2Proof

/-! ## The written form -/

/-- What the decoder accepts: a line whose first word is a row's mnemonic, and whose operands read, and meet the row's
condition. -/
theorem decode_eq_ok_iff (line : Text) (i : Instr) : decode line = .ok i ↔
    firstWord line ≠ [] ∧ ∃ o, Opcode.ofName (firstWord line) = some o ∧ readOperands o (restOfLine line) = some i ∧
      i.wf = true := by
  unfold decode
  split
  case isTrue hempty =>
    rw [List.isEmpty_iff] at hempty
    simp [hempty]
  case isFalse hword =>
    rw [List.isEmpty_iff] at hword
    cases hname : Opcode.ofName (firstWord line) with
    | none => simp
    | some o =>
      cases hread : readOperands o (restOfLine line) with
      | none => simp [hread]
      | some j =>
        simp only [ne_eq, hword, not_false_eq_true, true_and, Option.some.injEq, exists_eq_left', hread]
        constructor
        · intro h
          split at h
          case isTrue hwf => cases h; exact ⟨rfl, hwf⟩
          case isFalse => cases h
        · rintro ⟨rfl, hwf⟩
          rw [if_pos hwf]

/-- The operands of a line, as written, read back. -/
theorem readOperands_operandTexts {i : Instr} (h : i.wf = true) :
    readOperands i.opcode (Machine.joinOperands i.operandTexts) = some i := by
  have hread := Machine.readOperands_joinOperands i h
  cases htexts : i.operandTexts with
  | nil => rw [htexts] at hread; exact hread
  | cons w ws => rw [htexts] at hread; exact hread

/-- The line of a well-formed operation: its first word is the mnemonic, the rest its operands, and both read back. -/
theorem decode_encode {i : Instr} (h : i.wf = true) : decode (encode i) = .ok i := by
  obtain ⟨hword, hrest⟩ := Laws.LineStartsWithMnemonic.of_line i h
  rw [decode_eq_ok_iff, hword, hrest]
  obtain ⟨hne, -⟩ := Machine.Opcode.name_token i.opcode
  exact ⟨hne, i.opcode, Machine.Opcode.ofName_name i.opcode, readOperands_operandTexts h, h⟩

/-- Settles O47, by the mnemonic and the operands of the line. -/
theorem decodeOfEncodeIsTheOperation : Obligations.DecodeOfEncodeIsTheOperation :=
  fun _ h => decode_encode h

/-- Settles O48: the row's condition is the last that the decoder tests. -/
theorem decodedOperationsAreWellFormed : Obligations.DecodedOperationsAreWellFormed := by
  intro line i h
  obtain ⟨-, -, -, -, hwf⟩ := (decode_eq_ok_iff line i).1 h
  exact hwf

/-- A line that is the written form of a well-formed operation decodes to it. -/
theorem decode_of_eq_encode {line : Text} {i : Instr} (hline : line = encode i) (hwf : i.wf = true) :
    decode line = .ok i :=
  hline ▸ decode_encode hwf

/-- Settles O49: each line is the written form of the operation it names. -/
theorem specExampleLinesDecode : Obligations.SpecExampleLinesDecode :=
  ⟨decode_of_eq_encode (by decide) rfl, decode_of_eq_encode (by decide) rfl, decode_of_eq_encode (by decide) rfl,
    decode_of_eq_encode (by decide) rfl, decode_of_eq_encode (by decide) rfl⟩

end Sys2Proof

namespace Sys2Proof.Machine

/-! ## The operation map -/

/-- The map is total, and its rows are disjoint (R71): the row that a pair selects is the one `Decode` picks (R104). -/
theorem existsUnique_rowSelects (d bits : Nat) : ∃! c, RowSelects c d bits :=
  ⟨classify d bits, (classify_eq_iff d bits _).1 rfl, fun c hc => ((classify_eq_iff d bits c).2 hc).symm⟩

/-- A class row whose condition does not hold is refused (log 18). -/
theorem State.classRow_notSelected {c : PairClass} {m x : Nat} {s : State} (h : s.connected = true)
    (hr : ¬ RowSelects c (m + x) s.dec.bitsReceived) : s.classRow c m x = .refused .classNotSelected := by
  rw [← inRange_accOk] at hr
  unfold State.classRow
  rw [h, if_neg (by decide), pairSum, if_neg hr]

/-- Settles O7: a pulse completes its pair as the row that its sum selects does with the mark latched. -/
theorem pairSelectsExactlyOneRow : Obligations.PairSelectsExactlyOneRow := by
  intro m x s hconn
  obtain ⟨c, hsel, huniq⟩ := existsUnique_rowSelects (m + x) s.dec.bitsReceived
  refine ⟨c, hsel, huniq, _, exec_pulse_of_row m x s c hconn hsel, (State.completePair_outputs c _).1, ?_⟩
  rw [exec_rowInstr]
  exact State.classRow_selected (s := { s with dec := { s.dec with markLatch := m } }) hconn hsel

/-- Settles O12: the class row tests its condition before it acts. -/
theorem classRowNotSelectedIsRefused : Obligations.ClassRowNotSelectedIsRefused := by
  intro c m x s hconn hr
  rw [exec_rowInstr]
  exact State.classRow_notSelected hconn hr

end Sys2Proof.Machine
end

section
/-!
PROOF. The statements about the decoder (spec/40_decoder.md): `CONNECT` and the edges, what each class of a completed pair does, and
the runs of pairs of R114. A pair is completed as the row that its sum selects (R71), so that each statement about an operation is one
about `State.completePair` of a class.
-/

namespace Sys2Proof.Machine

/-! ## Before `CONNECT` -/

/-- Whether `CONNECT` has taken effect is read off the protocol (R101). -/
theorem State.connected_eq_false {s : State} (h : s.dec.protocol = none) : s.connected = false := by
  simp [State.connected, h]

/-- A class row before `CONNECT` (R101). -/
theorem State.classRow_notConnected {s : State} (h : s.connected = false) (c : PairClass) (m x : Nat) :
    s.classRow c m x = .refused .notConnected := by
  simp [State.classRow, h]

/-- Settles O3: every pulse event tests first whether `CONNECT` has taken effect. -/
theorem pulseEventsBeforeConnectAreRefused : Obligations.PulseEventsBeforeConnectAreRefused := by
  intro s m x hp
  have hconn := State.connected_eq_false hp
  refine ⟨?_, ?_, ?_, fun c => ?_⟩
  · simp [exec, execMarkedge, hconn]
  · simp [exec, execSpaceedge, hconn]
  · simp [exec, execPulse, hconn]
  · rw [exec_rowInstr, State.classRow_notConnected hconn]

/-! ## The edges -/

/-- A mark edge of a connected decoder (R102). -/
theorem exec_markedge (m : Nat) {s : State} (h : s.connected = true) :
    exec (.markedge m) s = .next { s with dec := { s.dec with markLatch := m } } := by
  simp [exec, execMarkedge, h]

/-- A space edge performs the row that the latched mark and the space select (R103). -/
theorem exec_spaceedge_of_row (x : Nat) {s : State} {c : PairClass} (h : s.connected = true)
    (hr : RowSelects c (s.dec.markLatch + x) s.dec.bitsReceived) : exec (.spaceedge x) s = .next (s.completePair c) := by
  have hc := (classify_eq_iff _ _ _).2 hr
  simp [exec, execSpaceedge, h, State.decodePair, pairSum, hc]

/-- A class row that its pair selects (R71). -/
theorem exec_row_selected {c : PairClass} {m x : Nat} {s : State} (h : s.connected = true)
    (hr : RowSelects c (m + x) s.dec.bitsReceived) : exec (rowInstr c m x) s = .next (s.completePair c) := by
  rw [exec_rowInstr, State.classRow_selected h hr]

/-- The first operation of a run. -/
theorem performAll_cons {i : Instr} {s t : State} (h : exec i s = .next t) (is : List Instr) :
    performAll (i :: is) s = performAll is t := by
  simp only [performAll, h]

/-- Settles O4: the test of the connection passes. -/
theorem markedgeLatchesTheMark : Obligations.MarkedgeLatchesTheMark :=
  fun m _ hconn => exec_markedge m hconn

/-- Settles O5: the edge and the class row complete the same pair. -/
theorem spaceedgeClassifiesLatchPlusSpace : Obligations.SpaceedgeClassifiesLatchPlusSpace := by
  intro x s c hconn hr
  obtain ⟨houtputs, hlatch⟩ := State.completePair_outputs c s
  exact ⟨_, exec_spaceedge_of_row x hconn hr, exec_row_selected hconn hr, houtputs, hlatch⟩

/-- Settles O6: with the mark latched, the space edge completes the pair as the row that the pulse's sum selects. -/
theorem pulseIsMarkedgeThenSpaceedge : Obligations.PulseIsMarkedgeThenSpaceedge := by
  intro m x s hconn
  obtain ⟨c, hr, -⟩ := existsUnique_rowSelects (m + x) s.dec.bitsReceived
  refine ⟨_, exec_pulse_of_row m x s c hconn hr, ?_⟩
  have hspace : exec (.spaceedge x) { s with dec := { s.dec with markLatch := m } } = .next _ :=
    exec_spaceedge_of_row x hconn hr
  rw [performAll_cons (exec_markedge m hconn), performAll_cons hspace]
  rfl

/-! ## The classes -/

/-- Settles O13: `CLRACC` is written with these two values. -/
theorem clraccClearsAccumulatorAndCount : Obligations.ClraccClearsAccumulatorAndCount :=
  fun _ => rfl

/-- A datagram is handled at a reading that the clock shows already: the clock stays (R171). -/
theorem exec_handle_datagram {now : Nat} {s : State} (h : s.millis = now) :
    exec (.handle .datagram now) s = .next (s.handle .datagram now) := by
  subst h
  simp [exec, execHandle, State.observeMillis]

/-- With no bits held the high-water mark stays (R108). -/
theorem Dec.noteMax_of_empty {d : Dec} (h : d.bitsReceived = 0) : d.noteMax = d := by
  rw [Dec.noteMax, Nat.max_eq_left (by omega)]

/-- A pair that gives `INCOMPLETE`: no more than its class runs (R104). -/
theorem State.completePair_incomplete {c : PairClass} {s : State} (h : rowSignal c s.dec.bitsReceived = .incomplete) :
    s.completePair c = { s with dec := (s.dec.perform c).1, outputs := s.outputs ++ [.pair c .incomplete] } := by
  rw [State.completePair_spec, if_pos h]

/-- A pair that gives another signal: the dispatcher runs with the clock it reads (R170). -/
theorem State.completePair_signals {c : PairClass} {s : State} (h : rowSignal c s.dec.bitsReceived ≠ .incomplete) :
    s.completePair c = State.handle (rowSignal c s.dec.bitsReceived) (s.millis + Config.millisStep s.draws)
      { s with
        dec := (s.dec.perform c).1
        outputs := s.outputs ++ [.pair c (rowSignal c s.dec.bitsReceived)]
        millis := s.millis + Config.millisStep s.draws
        draws := s.draws + 1 } := by
  rw [State.completePair_spec, if_neg h]

/-- Settles O8: the 64th bit is told from the others by the count before it. -/
theorem appendShiftsInABit : Obligations.AppendShiftsInABit := by
  intro m x b s hconn hr
  rw [exec_row_selected hconn hr]
  constructor
  · intro hcount
    rw [State.completePair_append b s (by omega)]
  · intro hcount
    refine ⟨_, s.millis + Config.millisStep s.draws, Nat.le_add_right _ _, rfl, ?_⟩
    rw [State.completePair_full b s (by omega)]
    exact exec_handle_datagram rfl

/-- Settles O9: `FRAME_END` signals `DATAGRAM` whatever the count, and notes the count before it flushes. -/
theorem frameEndFlushes : Obligations.FrameEndFlushes := by
  intro m x s hconn hlong hheld
  have hrow : exec (.frameEnd m x) s = .next (s.completePair .frameEnd) :=
    exec_row_selected (c := .frameEnd) hconn ⟨hlong, hheld.ne'⟩
  refine ⟨_, s.millis + Config.millisStep s.draws, Nat.le_add_right _ _, hrow, ?_⟩
  rw [State.completePair_signals (by simp [rowSignal])]
  exact exec_handle_datagram rfl

/-- Settles O10: with no bits held the class changes no register, and the dispatcher sets the deadline alone. -/
theorem repeatCodeOnlyRefreshesTheDeadline : Obligations.RepeatCodeOnlyRefreshesTheDeadline := by
  intro m x s hconn hlo hhi hempty
  have hrow : exec (.repeatCode m x) s = .next (s.completePair .repeatCode) :=
    exec_row_selected (c := .repeatCode) hconn ⟨hlo, hhi, hempty⟩
  refine ⟨s.millis + Config.millisStep s.draws, Nat.le_add_right _ _, ?_⟩
  rw [hrow, State.completePair_signals (by simp [rowSignal])]
  simp only [Dec.perform, Dec.noteMax_of_empty hempty]
  rfl

/-- Settles O11: with no bits held neither class changes a register. -/
theorem headerAndNoiseChangeNoRegister : Obligations.HeaderAndNoiseChangeNoRegister := by
  intro m x s hconn hempty
  constructor
  · intro hlo hhi
    have hrow : exec (.header m x) s = .next (s.completePair .header) :=
      exec_row_selected (c := .header) hconn ⟨hlo, hhi, hempty⟩
    rw [hrow, State.completePair_incomplete rfl]
    simp only [Dec.perform, Dec.noteMax_of_empty hempty]
  · intro hlo
    have hrow : exec (.noise m x) s = .next (s.completePair .noise) :=
      exec_row_selected (c := .noise) hconn ⟨hlo, hempty⟩
    rw [hrow, State.completePair_incomplete rfl]
    simp only [Dec.perform, Dec.noteMax_of_empty hempty]

/-! ## `CONNECT` -/

/-- `CONNECT` with a protocol set (R101). -/
theorem execConnect_again (p : Proto) (n : Pin) {s : State} (h : s.dec.protocol.isSome = true) :
    execConnect p n s = .next s := by
  simp [execConnect, h]

/-- `CONNECT` where the poll is registered without a protocol, as a state in general may have it. -/
theorem execConnect_registered (p : Proto) (n : Pin) {s : State} (hp : s.dec.protocol = none)
    (hr : s.dec.pollRegistered = true) :
    execConnect p n s = .next { s with dec := { s.dec with protocol := some p, rxPin := some n } } := by
  simp [execConnect, hp, hr]

/-- An accepted submission that is the first use of its executor (R200): the executor is new, from a clock reading drawn for it
(log 15). -/
theorem State.enqueue_absent {q : Queue} {s : State} (h : (s.executor q).created = false) (c : Callback) (m : Mode)
    (d : Decimal) :
    (s.enqueue q c m d).2 =
      State.setExecutor q
        (({ Executor.reset with
            created := true
            lastIteration := s.millis + Config.millisStep (s.draws + 1)
            wake := s.millis + Config.millisStep (s.draws + 1) } : Executor).submit (Job.new (Config.jobId s.draws) c m d))
        { s with millis := s.millis + Config.millisStep (s.draws + 1), draws := s.draws + 2 } := by
  simp [State.enqueue, State.withExecutor, h, State.readMillis]

theorem Decimal.floor_ofNat (n : Nat) : Decimal.floor (Decimal.ofNat n) = n := by
  simp [Decimal.floor, Decimal.ofNat]

/-- A new Repeat job of a whole number of milliseconds (R204). -/
def Job.every (ms : Nat) (id : Bits31) (c : Callback) : Job := ⟨id, c, ⟨ms, 0⟩, ⟨ms, 0⟩, .recurring, false⟩

/-- Such a job joins the pending additions and tightens the interval to its delay at most (R204, R210). -/
theorem Executor.submit_every (ms : Nat) (id : Bits31) (c : Callback) (e : Executor) :
    e.submit (Job.new id c .recurring (Decimal.ofNat ms)) =
      { e with pendingAdd := e.pendingAdd ++ [Job.every ms id c], interval := min e.interval ms } := by
  simp only [Executor.submit, Job.new, Decimal.floor_ofNat, if_true]
  rfl

/-- The first `CONNECT` where the Priority executor exists (R101). -/
theorem execConnect_first_created (p : Proto) (n : Pin) {s : State} (hp : s.dec.protocol = none)
    (hr : s.dec.pollRegistered = false) (hc : s.priority.created = true) :
    execConnect p n s = .next { s with
      dec := s.dec.connected p n
      priority := { s.priority with
        pendingAdd := s.priority.pendingAdd ++ [Job.every 220 (Config.jobId s.draws) .poll]
        interval := min s.priority.interval 220 }
      draws := s.draws + 1 } := by
  rw [execConnect_first p n s hp hr,
    State.enqueue_created .priority _ _ _ { s with dec := s.dec.connected p n } hc, Executor.submit_every]
  rfl

/-- The first `CONNECT` where it makes the Priority executor (R101, R200). -/
theorem execConnect_first_absent (p : Proto) (n : Pin) {s : State} (hp : s.dec.protocol = none)
    (hr : s.dec.pollRegistered = false) (hc : s.priority.created = false) :
    execConnect p n s = .next { s with
      dec := s.dec.connected p n
      priority := ⟨true, [], [Job.every 220 (Config.jobId s.draws) .poll], [], 100,
        s.millis + Config.millisStep (s.draws + 1), none, s.millis + Config.millisStep (s.draws + 1)⟩
      millis := s.millis + Config.millisStep (s.draws + 1)
      draws := s.draws + 2 } := by
  rw [execConnect_first p n s hp hr,
    State.enqueue_absent (q := .priority) (s := { s with dec := s.dec.connected p n }) hc, Executor.submit_every]
  rfl

/-- Settles O2: the three clauses are the three paths of `CONNECT`; on the one that enqueues the poll, the Priority executor exists
or is made. -/
theorem connectTakesEffectOnce : Obligations.ConnectTakesEffectOnce := by
  intro p n s
  refine ⟨execConnect_again p n, execConnect_registered p n, fun hp hr => ?_⟩
  cases hc : s.priority.created with
  | true =>
    exact ⟨_, Config.jobId s.draws, execConnect_first_created p n hp hr hc, rfl, fun _ => ⟨rfl, rfl⟩, nofun,
      fun m => ⟨_, exec_markedge m rfl⟩⟩
  | false =>
    exact ⟨_, Config.jobId s.draws, execConnect_first_absent p n hp hr hc, rfl, nofun, fun _ => ⟨Nat.le_add_right _ _, rfl⟩,
      fun m => ⟨_, exec_markedge m rfl⟩⟩

/-! ## Runs of short pairs -/

/-- The state after pairs of the append classes, none of which is a 64th bit: their bits are held, the first the most significant
(R114 (L1)). -/
def State.accumulated (ps : List (Nat × Nat)) (s : State) : State :=
  { s with
    dec := { s.dec with
      bitsReceived := ps.length
      accumulator := BitVec.ofNat 64 (bitsValue (ps.map pairBit))
      markLatch := (ps.getLast?.map Prod.fst).getD s.dec.markLatch }
    outputs := s.outputs ++ ps.map fun p => .pair (bitClass (pairBit p)) .incomplete }

/-- No pair changes nothing. -/
theorem State.accumulated_nil {s : State} (hbits : s.dec.bitsReceived = 0) (hacc : s.dec.accumulator = 0) :
    s.accumulated [] = s := by
  obtain ⟨dec⟩ := s
  cases dec
  simp_all [State.accumulated, bitsValue]

/-- A short pair as a pulse performs the class of its bit (R104). -/
theorem exec_pairInstr_short {p : Nat × Nat} {s : State} (h : s.connected = true) (hp : p.1 + p.2 < 2700) :
    exec (pairInstr p) s =
      .next (State.completePair (bitClass (pairBit p)) { s with dec := { s.dec with markLatch := p.1 } }) :=
  exec_pulse_of_row p.1 p.2 s _ h (bitClass_pairBit_selects p _ hp)

/-- A short pair as a pulse, its bit not the 64th (R111). -/
theorem exec_pairInstr_append {p : Nat × Nat} {s : State} (h : s.connected = true) (hp : p.1 + p.2 < 2700)
    (hb : s.dec.bitsReceived ≠ 63) :
    exec (pairInstr p) s = .next { s with
      dec := { s.dec with
        markLatch := p.1
        accumulator := (s.dec.accumulator <<< 1) ||| (if pairBit p then 1#64 else 0#64)
        bitsReceived := s.dec.bitsReceived + 1 }
      outputs := s.outputs ++ [.pair (bitClass (pairBit p)) .incomplete] } := by
  rw [exec_pairInstr_short h hp,
    State.completePair_append _ { s with dec := { s.dec with markLatch := p.1 } } hb]

/-- A short pair as a pulse, its bit the 64th: the 64 bits are flushed, and the dispatcher handles the datagram (R111, R112, R170). -/
theorem exec_pairInstr_full {p : Nat × Nat} {s : State} (h : s.connected = true) (hp : p.1 + p.2 < 2700)
    (hb : s.dec.bitsReceived = 63) :
    ∃ t now, exec (pairInstr p) s = .next t ∧
      t.dec = handleDec .datagram now { s.dec with
        markLatch := p.1
        lastDatagram := (s.dec.accumulator <<< 1) ||| (if pairBit p then 1#64 else 0#64)
        accumulator := 0
        bitsReceived := 0 } ∧
      t.outputs = s.outputs ++ [.pair (bitClass (pairBit p)) .datagram] ∧ t.tx = s.tx ∧ t.priority = s.priority := by
  have hexec := exec_pairInstr_short h hp
  rw [State.completePair_full _ { s with dec := { s.dec with markLatch := p.1 } } hb] at hexec
  obtain ⟨hkeeps, hdec, -⟩ := State.handle_spec .datagram _ _
  exact ⟨_, _, hexec, hdec, hkeeps.outputs, hkeeps.tx, hkeeps.priority⟩

/-- The value of the bits of one more pair (R114 (L1)). -/
theorem bitsValue_concat (bs : List Bool) (b : Bool) : bitsValue (bs ++ [b]) = 2 * bitsValue bs + b.toNat := by
  rw [bitsValue_append]
  rfl

/-- One more bit shifted into the accumulator of a run (R111, R114). -/
theorem shiftIn_accumulated (ps : List (Nat × Nat)) (p : Nat × Nat) (s : State) :
    ((s.accumulated ps).dec.accumulator <<< 1) ||| (if pairBit p then 1#64 else 0#64) =
      BitVec.ofNat 64 (bitsValue ((ps ++ [p]).map pairBit)) := by
  rw [List.map_append, List.map_singleton, bitsValue_concat, ← shiftIn_ofNat]
  rfl

/-- A short pair after at most 62 of them. -/
theorem exec_pairInstr_accumulated {ps : List (Nat × Nat)} {p : Nat × Nat} {s : State} (h : s.connected = true)
    (hlen : ps.length < 63) (hp : p.1 + p.2 < 2700) :
    exec (pairInstr p) (s.accumulated ps) = .next (s.accumulated (ps ++ [p])) := by
  have hcount : (s.accumulated ps).dec.bitsReceived ≠ 63 := hlen.ne
  rw [exec_pairInstr_append (s := s.accumulated ps) h hp hcount, shiftIn_accumulated]
  simp [State.accumulated]

/-- Up to 63 short pairs from an empty accumulator (R114 (L1)). -/
theorem performAll_short {s : State} (hconn : s.connected = true) (hbits : s.dec.bitsReceived = 0)
    (hacc : s.dec.accumulator = 0) (ps : List (Nat × Nat)) (hlen : ps.length ≤ 63) (hshort : ∀ p ∈ ps, p.1 + p.2 < 2700) :
    performAll (ps.map pairInstr) s = .next (s.accumulated ps) := by
  induction ps using List.reverseRecOn with
  | nil =>
    rw [State.accumulated_nil hbits hacc]
    rfl
  | append_singleton ps p ih =>
    have hlen' : ps.length < 63 := by simpa using hlen
    have hrun := ih hlen'.le fun q hq => hshort q (List.mem_append_left _ hq)
    have hlast := exec_pairInstr_accumulated hconn hlen' (hshort p (by simp))
    rw [List.map_append, performAll_append _ _ _ _ hrun, List.map_singleton, performAll_cons hlast]
    rfl

/-- Settles O14: the run is `State.accumulated`. -/
theorem bitsAccumulateFirstMostSignificant : Obligations.BitsAccumulateFirstMostSignificant :=
  fun ps _ hconn hbits hacc hlen hshort => ⟨_, performAll_short hconn hbits hacc ps hlen hshort, rfl, rfl, rfl, rfl⟩

/-- Settles O15: 63 pairs accumulate, and the pair after them completes the datagram, which the dispatcher handles. -/
theorem sixtyFourBitsGiveOneDatagram : Obligations.SixtyFourBitsGiveOneDatagram := by
  intro ps s hconn hbits hacc hlen hshort
  obtain rfl | ⟨qs, p, rfl⟩ := List.eq_nil_or_concat' ps
  · simp at hlen
  have hlen' : qs.length = 63 := by simpa using hlen
  have hrun := performAll_short hconn hbits hacc qs hlen'.le fun q hq => hshort q (List.mem_append_left _ hq)
  obtain ⟨t, now, hlast, hdec, houts, htx, hpriority⟩ :=
    exec_pairInstr_full (s := s.accumulated qs) hconn (hshort p (by simp)) hlen'
  rw [shiftIn_accumulated] at hdec
  refine ⟨t, ?_, ?_⟩
  · rw [List.map_append, performAll_append _ _ _ _ hrun, List.map_singleton, performAll_cons hlast]
    rfl
  · rw [hdec, houts, List.take_left' hlen', List.drop_left' hlen']
    exact ⟨rfl, rfl, rfl, rfl, rfl, rfl, htx, hpriority⟩

/-! ## Long pairs -/

/-- The classes of long pairs leave no bit held (R107 to R110). -/
theorem Dec.perform_long_bitsReceived {c : PairClass} {n : Nat} {d : Dec} (hr : RowSelects c n d.bitsReceived)
    (hlong : 2700 ≤ n) : (d.perform c).1.bitsReceived = 0 := by
  cases c with
  | bit0 => exact absurd hr (by unfold RowSelects; omega)
  | bit1 => exact absurd hr (by unfold RowSelects; omega)
  | frameEnd => rfl
  | repeatCode => exact hr.2.2
  | header => exact hr.2.2
  | noise => exact hr.2

/-- `DATAGRAM` is the signal of `FRAME_END` and of a 64th bit, before either of which bits are held (R71). -/
theorem held_of_rowSignal_datagram {c : PairClass} {n bits : Nat} (hr : RowSelects c n bits)
    (hsig : rowSignal c bits = .datagram) : bits ≠ 0 := by
  cases c with
  | bit0 => rintro rfl; cases hsig
  | bit1 => rintro rfl; cases hsig
  | frameEnd => exact hr.2
  | repeatCode => cases hsig
  | header => cases hsig
  | noise => cases hsig

/-- The dispatcher does not touch the count (R47). -/
theorem handleDec_bitsReceived (sig : Signal) (now : Nat) (d : Dec) : (handleDec sig now d).bitsReceived = d.bitsReceived := by
  cases sig <;> rfl

/-- A completed long pair leaves the decoder connected, with no bit held. -/
theorem State.completePair_long {c : PairClass} {n : Nat} {s : State} (h : s.connected = true)
    (hr : RowSelects c n s.dec.bitsReceived) (hlong : 2700 ≤ n) :
    (s.completePair c).connected = true ∧ (s.completePair c).dec.bitsReceived = 0 := by
  obtain ⟨hprotocol, -⟩ := (State.ActsOffTx.completePair c s).dec.protocol h
  obtain ⟨now, -, hdec⟩ := State.completePair_dec c s
  constructor
  · rw [State.connected, hprotocol]
    exact h
  · rw [hdec, handleDec_bitsReceived, Dec.perform_long_bitsReceived hr hlong]

/-- A long pair as a pulse: no bit is held afterwards, and `DATAGRAM` is signalled only where bits were held before. -/
theorem exec_pulse_long {m x : Nat} {s : State} (h : s.connected = true) (hlong : 2700 ≤ m + x) :
    ∃ t c g, exec (.pulse m x) s = .next t ∧ t.connected = true ∧ t.outputs = s.outputs ++ [.pair c g] ∧
      t.dec.bitsReceived = 0 ∧ (g = .datagram → s.dec.bitsReceived ≠ 0) := by
  obtain ⟨c, hr, -⟩ := existsUnique_rowSelects (m + x) s.dec.bitsReceived
  obtain ⟨hconn, hempty⟩ :=
    State.completePair_long (s := { s with dec := { s.dec with markLatch := m } }) h hr hlong
  exact ⟨_, c, _, exec_pulse_of_row m x s c h hr, hconn, (State.completePair_outputs c _).1, hempty,
    held_of_rowSignal_datagram hr⟩

/-- Settles O16: the first pair leaves no bit held, so the second does not signal `DATAGRAM`. -/
theorem twoLongPairsNeverBothDatagram : Obligations.TwoLongPairsNeverBothDatagram := by
  intro a b c d s hconn hab hcd
  obtain ⟨t, x, g, hfirst, htconn, htouts, htempty, -⟩ := exec_pulse_long hconn hab
  obtain ⟨u, y, h, hsecond, -, huouts, huempty, hheld⟩ := exec_pulse_long htconn hcd
  refine ⟨u, x, y, g, h, ?_, ?_, fun hboth => hheld hboth.2 htempty, huempty⟩
  · rw [performAll_cons hfirst, performAll_cons hsecond]
    rfl
  · rw [huouts, htouts]
    simp

end Sys2Proof.Machine
end

section
/-!
PROOF. The statements about the transmitter (spec/41_transmitter.md): the calibration, the pulse, the code string of a command, and the
frame that `SEND`, `SENDCMD` and `SENDLONG` put on the trace. The round trip (R146) reads the frame as the bits of its value, which
the decoder accumulates.
-/

namespace Sys2Proof.Machine

/-! ## The bits of a value -/

/-- The number of one bits among the `n` low bits of `v`. -/
def oneBits (n v : Nat) : Nat := (List.range n).countP fun k => v.testBit k

theorem oneBits_succ (n v : Nat) : oneBits (n + 1) v = oneBits n v + (v.testBit n).toNat := by
  rw [oneBits, List.range_succ, List.countP_append, List.countP_singleton]
  cases v.testBit n <;> rfl

/-- The one bits of a number are those of its high part and those of its low part. -/
theorem oneBits_two_pow_mul_add {n lo : Nat} (hlo : lo < 2 ^ n) (m hi : Nat) :
    oneBits (n + m) (2 ^ n * hi + lo) = oneBits n lo + oneBits m hi := by
  have hlow : ∀ k ∈ List.range n, (2 ^ n * hi + lo).testBit k = lo.testBit k := fun k hk => by
    rw [Nat.testBit_two_pow_mul_add hi hlo, if_pos (List.mem_range.mp hk)]
  have hhigh : ∀ k, (2 ^ n * hi + lo).testBit (n + k) = hi.testBit k := fun k => by
    rw [Nat.testBit_two_pow_mul_add hi hlo, if_neg (by omega), Nat.add_sub_cancel_left]
  rw [oneBits, List.range_add, List.countP_append, List.countP_map]
  congr 1
  · exact List.countP_congr fun k hk => by rw [hlow k hk]
  · exact List.countP_congr fun k _ => by rw [Function.comp_apply, hhigh k]

/-- The `n` low bits of `v`, the most significant first: the order in which a frame sends them (R135). -/
def bitsFromTop : Nat → Nat → List Bool
  | 0, _ => []
  | n + 1, v => v.testBit n :: bitsFromTop n v

theorem bitsFromTop_length (n v : Nat) : (bitsFromTop n v).length = n := by
  induction n with
  | zero => rfl
  | succ n ih => rw [bitsFromTop, List.length_cons, ih]

/-- The bit at place `k` from the top. -/
theorem bitsFromTop_eq_map (n v : Nat) : bitsFromTop n v = (List.range n).map fun k => v.testBit (n - 1 - k) := by
  induction n with
  | zero => rfl
  | succ n ih =>
    rw [bitsFromTop, ih, List.range_succ_eq_map, List.map_cons, List.map_map]
    refine congrArg (v.testBit n :: ·) (List.map_congr_left fun k _ => ?_)
    rw [Function.comp_apply]
    congr 1
    omega

theorem bitsFromTop_fold (n v acc : Nat) :
    (bitsFromTop n v).foldl (fun w b => 2 * w + b.toNat) acc = acc * 2 ^ n + v % 2 ^ n := by
  induction n generalizing acc with
  | zero => simp [bitsFromTop, Nat.mod_one]
  | succ n ih =>
    rw [bitsFromTop, List.foldl_cons, ih, Nat.toNat_testBit, Nat.mod_pow_succ, pow_succ]
    ring

/-- The bits of a number that has no more of them read as the number (R114 (L1)). -/
theorem bitsValue_bitsFromTop {n v : Nat} (hv : v < 2 ^ n) : bitsValue (bitsFromTop n v) = v := by
  rw [bitsValue, bitsFromTop_fold, Nat.zero_mul, Nat.zero_add, Nat.mod_eq_of_lt hv]

/-! ## The payload -/

theorem payloadValue_lt_two_pow (a c : U8) : payloadValue a c < 2 ^ 32 := payloadValue_lt a c

/-- A byte and its complement hold eight one bits together. -/
theorem oneBits_section (b : U8) : oneBits 16 (b.toNat * 256 + (255 - b.toNat)) = 8 := by
  revert b
  decide

/-- The payload's two halves are sections of 16 bits (R134). -/
theorem oneBits_payloadValue (a c : U8) : oneBits 32 (payloadValue a c) = 16 := by
  have hsplit : payloadValue a c =
      2 ^ 16 * (a.toNat * 256 + (255 - a.toNat)) + (c.toNat * 256 + (255 - c.toNat)) := by
    unfold payloadValue
    omega
  have hlow : c.toNat * 256 + (255 - c.toNat) < 2 ^ 16 := by
    have := c.isLt
    omega
  rw [hsplit, oneBits_two_pow_mul_add hlow 16, oneBits_section, oneBits_section]

/-- A byte of a payload held in 64 bits (R80). -/
theorem extractByte_toNat (v k : Nat) (hv : v < 2 ^ 32) :
    ((BitVec.ofNat 64 v).extractLsb' k 8).toNat = v / 2 ^ k % 256 := by
  rw [BitVec.extractLsb'_toNat, BitVec.toNat_ofNat, Nat.mod_eq_of_lt (by omega : v < 2 ^ 64), Nat.shiftRight_eq_div_pow]

/-- The bytes of a number of four bytes, the most significant first. -/
theorem fourBytes_div_mod {p q r s : Nat} (hp : p < 256) (hq : q < 256) (hr : r < 256) (hs : s < 256) :
    (((p * 256 + q) * 256 + r) * 256 + s) / 2 ^ 24 % 256 = p ∧
    (((p * 256 + q) * 256 + r) * 256 + s) / 2 ^ 16 % 256 = q ∧
    (((p * 256 + q) * 256 + r) * 256 + s) / 2 ^ 8 % 256 = r ∧
    (((p * 256 + q) * 256 + r) * 256 + s) / 2 ^ 0 % 256 = s := by
  omega

/-- The four byte fields of a payload: address, its complement, command, its complement (R80). -/
theorem payloadValue_bytes (a c : U8) :
    (BitVec.ofNat 64 (payloadValue a c)).extractLsb' 24 8 = a ∧
    (BitVec.ofNat 64 (payloadValue a c)).extractLsb' 16 8 = ~~~a ∧
    (BitVec.ofNat 64 (payloadValue a c)).extractLsb' 8 8 = c ∧
    (BitVec.ofNat 64 (payloadValue a c)).extractLsb' 0 8 = ~~~c := by
  have hbyte := fun k => extractByte_toNat (payloadValue a c) k (payloadValue_lt_two_pow a c)
  have hnot : ∀ b : U8, (~~~b).toNat = 255 - b.toNat := fun _ => BitVec.toNat_not
  obtain ⟨h3, h2, h1, h0⟩ := fourBytes_div_mod (q := 255 - a.toNat) (s := 255 - c.toNat) a.isLt (by omega) c.isLt (by omega)
  exact ⟨BitVec.eq_of_toNat_eq ((hbyte 24).trans h3),
    BitVec.eq_of_toNat_eq (((hbyte 16).trans h2).trans (hnot a).symm),
    BitVec.eq_of_toNat_eq ((hbyte 8).trans h1),
    BitVec.eq_of_toNat_eq (((hbyte 0).trans h0).trans (hnot c).symm)⟩

/-! ## The calibration -/

/-- `Cal` with its constants (R132). -/
theorem Cal_eq (start stop : Int) : Cal start stop = Int.tdiv (stop - start - 64) 64 := rfl

/-- Settles O18: a quotient that rounds toward zero is odd in its numerator. -/
theorem calibrationRoundsTowardZero : Obligations.CalibrationRoundsTowardZero := by
  intro start stop
  rw [Cal_eq]
  refine ⟨fun h => Int.tdiv_eq_ediv_of_nonneg (by omega), fun h => ?_⟩
  have hneg : stop - start - 64 = -(64 - (stop - start)) := by omega
  rw [hneg, Int.neg_tdiv, Int.tdiv_eq_ediv_of_nonneg (by omega)]

/-- The calibration pulses of a new record (R131). -/
theorem Tx.calibrating_emits (serial : Nat) (pin : Pin) :
    Tx.Emits (List.replicate 32 (pulseTrace 1 1)).flatten .space
      { (Tx.unconstructed serial).drive .zero with pin := pin, pwmPeriod := PWM_PERIOD } (Tx.calibrating serial pin) :=
  Tx.pulses_emits CAL_PULSE CAL_PULSE CAL_RUNS _ nofun

/-- Settles O17: between its two readings `TXINIT` emits the calibration pulses from a new record, and after them the settling
pause. -/
theorem txinitConstructsAndCalibrates : Obligations.TxinitConstructsAndCalibrates := by
  intro pin s
  have hcal := Tx.calibrating_emits s.olderTransmitters.length pin
  refine ⟨_, s.readMicros.1, s.readMicros.2.readMicros.1, s.le_readMicros, s.readMicros.2.le_readMicros, rfl, rfl, hcal.pin,
    hcal.pwmPeriod, hcal.level, Cal_eq _ _, ?_, rfl, rfl⟩
  exact congrArg (· ++ [TraceItem.wait 2000]) hcal.trace

/-! ## The pulse -/

/-- Settles O19: the pulse is two drives and two waits, each wait with a draw of its own. -/
theorem txbitAppendsFourItems : Obligations.TxbitAppendsFourItems := by
  intro high low s hready
  refine ⟨Config.overhead s.tx.serial s.tx.actual.length, Config.overhead s.tx.serial (s.tx.actual.length + 1), ?_⟩
  simp [exec, execTxbit, hready, State.onTx, Tx.pulse, Tx.drive, Tx.wait]

/-! ## The code string -/

/-- Settles O20: the string is `encText`. -/
theorem encGivesTheCodeString : Obligations.EncGivesTheCodeString := by
  intro a c s
  obtain ⟨hreads, hlength⟩ := encText_reads a c
  exact ⟨encText a c, rfl, hlength, hreads⟩

/-- Settles O21: the value is the payload. -/
theorem payloadHasSixteenOneBits : Obligations.PayloadHasSixteenOneBits := by
  intro a c s
  obtain ⟨hreads, -⟩ := encText_reads a c
  exact ⟨encText a c, payloadValue a c, rfl, hreads, payloadValue_lt_two_pow a c, oneBits_payloadValue a c⟩

/-! ## The frame operations on a constructed transmitter -/

theorem exec_send {s : State} (h : s.tx.ready = true) (code : Text) : exec (.send code) s = s.sendText code := by
  simp [exec, execSend, h]

theorem exec_sendcmd {s : State} (h : s.tx.ready = true) (a c : U8) :
    exec (.sendcmd a c) s = s.sendText (codeString a c) := by
  simp [exec, execSendcmd, h]

/-- `SENDLONG` of a hex string of `k` digits sends the `4k` bits of its value (R140). -/
theorem exec_sendlong_hex {s : State} (h : s.tx.ready = true) {hex : Text} {k v : Nat}
    (hr : readHexString hex = some (k, v)) : exec (.sendlong hex) s = .next (s.onTx (Tx.frame (4 * k) v)) := by
  simp [exec, execSendlong, h, hr]

theorem exec_sendlong_none {s : State} (h : s.tx.ready = true) {hex : Text} (hr : readHexString hex = none) :
    exec (.sendlong hex) s = .refused .longCodeNotHex := by
  simp [exec, execSendlong, h, hr]

/-- `0x` and hex digits read as their count and value (R77, R79). -/
theorem readHexString_of_digits {h : Text} (hne : h ≠ []) (hdigits : ∀ c ∈ h, isHexDigit c = true) :
    readHexString ('0' :: 'x' :: h) = some (h.length, hexValue h) :=
  (readHexString_iff _ _).2 ⟨h, rfl, hne, hdigits, rfl⟩

/-- A string that is not `0x` and hex digits does not read. -/
theorem readHexString_eq_none {t : Text}
    (h : ∀ h : Text, t = '0' :: 'x' :: h → ¬ (h ≠ [] ∧ ∀ c ∈ h, isHexDigit c = true)) : readHexString t = none := by
  rw [Option.eq_none_iff_forall_ne_some]
  intro p hp
  obtain ⟨digits, ht, hne, hdigits, -⟩ := (readHexString_iff t p).1 hp
  exact h digits ht ⟨hne, hdigits⟩

/-- `SEND` ignores a string that is not 10 characters long (R138). -/
theorem State.sendText_otherLength {code : Text} (s : State) (h : code.length ≠ 10) : s.sendText code = .next s :=
  if_neg h

/-- `SEND` refuses 10 characters that do not read (R138, U4). -/
theorem State.sendText_none {code : Text} (s : State) (hl : code.length = 10) (hr : readHexString code = none) :
    s.sendText code = .refused .codeNotHex := by
  simp [State.sendText, SEND_LEN, hl, hr]

/-- Settles O22: the length is tested first, then whether the string reads. -/
theorem sendSendsIgnoresOrRefuses : Obligations.SendSendsIgnoresOrRefuses := by
  intro code s hready
  rw [exec_send hready]
  refine ⟨s.sendText_otherLength, ?_, fun hlength hother => ?_⟩
  · rintro h rfl hlength hdigits
    have hne : h ≠ [] := by
      rintro rfl
      cases hlength
    have hreads := readHexString_of_digits hne hdigits
    rw [hlength] at hreads
    exact s.sendText_hex (by simp [hlength]) hreads
  · exact s.sendText_none hlength (readHexString_eq_none fun h hcode hhex => hother h hcode hhex.2)

/-- Settles O23: the digits that read give the number of bits. -/
theorem sendlongSendsAnyLength : Obligations.SendlongSendsAnyLength := by
  intro hex s hready
  refine ⟨?_, fun hother => exec_sendlong_none hready (readHexString_eq_none hother)⟩
  rintro h rfl hne hdigits
  obtain ⟨ds, hlength, hframe⟩ := Tx.frame_eq (4 * h.length) (hexValue h) s.tx
  refine ⟨ds, hlength, ?_⟩
  rw [exec_sendlong_hex hready (readHexString_of_digits hne hdigits), State.onTx, hframe]
  rfl

/-! ## A command's frame -/

/-- What `SENDCMD` does: it sends the frame of the payload (R139). -/
theorem exec_sendcmd_frame {s : State} (h : s.tx.ready = true) (a c : U8) :
    ∃ ds : List Int, ds.length = 68 ∧ exec (.sendcmd a c) s = .next { s with
      tx := { s.tx with
        level := .space
        trace := s.tx.trace ++ frameTrace s.tx.waitCorrection 32 (payloadValue a c)
        actual := s.tx.actual ++ ds } } := by
  obtain ⟨hreads, hlength⟩ := codeString_reads a c
  rw [exec_sendcmd h]
  exact s.sendText_hex hlength hreads

/-- What `SEND` does depends on the length of the string and on what it reads as, so not on the letter case (R79). -/
theorem State.sendText_congr {code code' : Text} (s : State) (hl : code.length = code'.length)
    (hr : readHexString code = readHexString code') : s.sendText code = s.sendText code' := by
  unfold State.sendText
  rw [hl, hr]

/-- The string that `ENC` gives (R134). -/
theorem eq_encText_of_exec_enc {a c : U8} {s : State} {txt : Text}
    (h : exec (.enc a c) s = .next { s with outputs := s.outputs ++ [.code txt] }) : txt = encText a c := by
  have houts : s.outputs ++ [.code (encText a c)] = s.outputs ++ [.code txt] :=
    congrArg State.outputs (Host.Outcome.next.inj h)
  simpa using houts.symm

/-- Settles O24: the string of `SENDCMD` and that of `ENC` read as the same payload. -/
theorem sendcmdIsSendOfEnc : Obligations.SendcmdIsSendOfEnc := by
  intro a c s hready
  refine ⟨exec_sendcmd_frame hready a c, fun txt henc => ?_⟩
  obtain ⟨hreads, hlength⟩ := codeString_reads a c
  obtain ⟨hreads', hlength'⟩ := encText_reads a c
  rw [eq_encText_of_exec_enc henc, exec_sendcmd hready, exec_send hready]
  exact s.sendText_congr (hlength.trans hlength'.symm) (hreads.trans hreads'.symm)

theorem requestedTotal_pulseTrace (high low : Int) : requestedTotal (pulseTrace high low) = high + low := by
  simp [pulseTrace, requestedTotal]

/-- A data bit requests `1120 − 2 wc`, and a one bit 1130 more (R73). -/
theorem requestedTotal_dataTrace (wc : Int) (n v : Nat) :
    requestedTotal (dataTrace wc n v) = n * (1120 - 2 * wc) + 1130 * oneBits n v := by
  induction n with
  | zero => simp [dataTrace, requestedTotal, oneBits]
  | succ n ih =>
    rw [dataTrace, requestedTotal_append, requestedTotal_pulseTrace, ih, oneBits_succ]
    cases v.testBit n <;> simp <;> ring

/-- A frame requests its header, its data bits and its terminator mark (R73, R141). -/
theorem requestedTotal_frameTrace (wc : Int) (n v : Nat) :
    requestedTotal (frameTrace wc n v) = 14060 - 2 * wc + n * (1120 - 2 * wc) + 1130 * oneBits n v := by
  rw [frameTrace, requestedTotal_append, requestedTotal_append, requestedTotal_pulseTrace, requestedTotal_pulseTrace,
    requestedTotal_dataTrace]
  ring

/-- Settles O26: 16 of the payload's 32 bits are one bits. -/
theorem commandFrameRequestedTotal : Obligations.CommandFrameRequestedTotal := by
  intro a c s hready
  obtain ⟨ds, -, hexec⟩ := exec_sendcmd_frame hready a c
  refine ⟨_, _, hexec, rfl, ?_⟩
  rw [requestedTotal_frameTrace, oneBits_payloadValue]
  push_cast
  ring

/-! ## The round trip -/

theorem pulsesOf_pulseTrace_append (high low : Int) (rest : List TraceItem) :
    pulsesOf (pulseTrace high low ++ rest) = (high, low) :: pulsesOf rest := rfl

/-- The requested durations of a data bit (R73). -/
def bitPulse (wc : Int) (b : Bool) : Int × Int := (610 - wc, if b then 1640 - wc else 510 - wc)

/-- The pulses of the data bits, in the order sent. -/
theorem pulsesOf_dataTrace_append (wc : Int) (n v : Nat) (rest : List TraceItem) :
    pulsesOf (dataTrace wc n v ++ rest) = (bitsFromTop n v).map (bitPulse wc) ++ pulsesOf rest := by
  induction n with
  | zero => rfl
  | succ n ih =>
    rw [dataTrace, List.append_assoc, pulsesOf_pulseTrace_append, ih]
    rfl

/-- A frame without its terminator: the header pulse, then the data pulses. -/
theorem dropLast_pulsesOf_frameTrace (wc : Int) (n v : Nat) :
    (pulsesOf (frameTrace wc n v)).dropLast = (9000 - wc, 4500 - wc) :: (bitsFromTop n v).map (bitPulse wc) := by
  have hpulses : pulsesOf (frameTrace wc n v) =
      ((9000 - wc, 4500 - wc) :: (bitsFromTop n v).map (bitPulse wc)) ++ [(560, 0)] := by
    rw [frameTrace, List.append_assoc, pulsesOf_pulseTrace_append, pulsesOf_dataTrace_append]
    rfl
  rw [hpulses, List.dropLast_concat]

/-- The pair of a data bit on a nominal run: the correction drops out (R145, R73). -/
def nominalBitPair (b : Bool) : Nat × Nat := (610, if b then 1640 else 510)

theorem nominalPair_bitPulse (wc : Int) (b : Bool) : nominalPair wc (bitPulse wc b) = nominalBitPair b := by
  cases b <;> simp [nominalPair, bitPulse, nominalBitPair]

theorem nominalPair_header (wc : Int) : nominalPair wc (9000 - wc, 4500 - wc) = (9000, 4500) := by
  simp [nominalPair]

/-- The pairs of a nominal run stand for the bits sent, and are short (R71). -/
theorem pairBit_nominalBitPair (b : Bool) : pairBit (nominalBitPair b) = b := by
  cases b <;> rfl

theorem nominalBitPair_short (b : Bool) : (nominalBitPair b).1 + (nominalBitPair b).2 < 2700 := by
  cases b <;> decide

/-- What a receiver gets of a frame on a nominal run, up to its terminator: the header pair, then a pair per bit. -/
theorem nominalRun_frameTrace (wc : Int) (n v : Nat) :
    ((pulsesOf (frameTrace wc n v)).dropLast.map fun p => pairInstr (nominalPair wc p)) =
      .pulse 9000 4500 :: ((bitsFromTop n v).map nominalBitPair).map pairInstr := by
  rw [dropLast_pulsesOf_frameTrace, List.map_cons, nominalPair_header, List.map_map, List.map_map]
  refine congrArg (Instr.pulse 9000 4500 :: ·) (List.map_congr_left fun b _ => ?_)
  rw [Function.comp_apply, Function.comp_apply, nominalPair_bitPulse]

/-- The state after a frame's header pair: the mark is latched, and no other register changes (R109). -/
def State.afterHeader (s : State) : State :=
  { s with dec := { s.dec with markLatch := 9000 }, outputs := s.outputs ++ [.pair .header .incomplete] }

theorem exec_header_pulse {s : State} (h : s.connected = true) (hbits : s.dec.bitsReceived = 0) :
    exec (.pulse 9000 4500) s = .next s.afterHeader := by
  have hr : RowSelects .header (9000 + 4500) s.dec.bitsReceived := ⟨by decide, by decide, hbits⟩
  have hempty : ({ s.dec with markLatch := 9000 } : Dec).bitsReceived = 0 := hbits
  rw [exec_pulse_of_row _ _ s _ h hr, State.completePair_incomplete rfl, Dec.perform, Dec.noteMax_of_empty hempty]
  rfl

/-- The header pair and the pairs of up to 63 bits, from an empty accumulator. -/
theorem performAll_nominal_bits {s : State} (hconn : s.connected = true) (hbits : s.dec.bitsReceived = 0)
    (hacc : s.dec.accumulator = 0) (bs : List Bool) (hlen : bs.length ≤ 63) :
    performAll (.pulse 9000 4500 :: (bs.map nominalBitPair).map pairInstr) s =
      .next (s.afterHeader.accumulated (bs.map nominalBitPair)) := by
  rw [performAll_cons (exec_header_pulse hconn hbits)]
  refine performAll_short (s := s.afterHeader) hconn hbits hacc _ (by simpa using hlen) fun p hp => ?_
  obtain ⟨b, -, rfl⟩ := List.mem_map.mp hp
  exact nominalBitPair_short b

/-- The bits that the pairs of a nominal run stand for. -/
theorem map_pairBit_nominalBitPair (bs : List Bool) : (bs.map nominalBitPair).map pairBit = bs := by
  rw [List.map_map]
  exact (List.map_congr_left fun b _ => pairBit_nominalBitPair b).trans bs.map_id

/-- A long pair where bits are held, as a pulse: the bits are flushed after the high-water mark has noted their count, and the
dispatcher handles the datagram (R107, R112, R170). -/
theorem exec_pulse_frameEnd {m x : Nat} {s : State} (h : s.connected = true) (hlong : 2700 ≤ m + x)
    (hheld : s.dec.bitsReceived ≠ 0) :
    ∃ u now, exec (.pulse m x) s = .next u ∧
      u.dec = handleDec .datagram now (Dec.flush (Dec.noteMax { s.dec with markLatch := m })) ∧
      u.outputs = s.outputs ++ [.pair .frameEnd .datagram] := by
  obtain ⟨now, -, hdec⟩ := State.completePair_dec .frameEnd { s with dec := { s.dec with markLatch := m } }
  exact ⟨_, now, exec_pulse_of_row m x s .frameEnd h ⟨hlong, hheld⟩, hdec, (State.completePair_outputs .frameEnd _).1⟩

/-- The header pair, the pairs of 1 to 63 bits and a terminator pair, from an empty accumulator: one datagram, the value of the
bits. -/
theorem performAll_nominal_frame {s : State} (hconn : s.connected = true) (hbits : s.dec.bitsReceived = 0)
    (hacc : s.dec.accumulator = 0) {bs : List Bool} (hne : bs.length ≠ 0) (hlen : bs.length ≤ 63) {m x : Nat}
    (hlong : 2700 ≤ m + x) :
    ∃ u, performAll ((.pulse 9000 4500 :: (bs.map nominalBitPair).map pairInstr) ++ [.pulse m x]) s = .next u ∧
      u.dec.lastDatagram = BitVec.ofNat 64 (bitsValue bs) ∧ u.dec.bitsReceived = 0 ∧ u.dec.accumulator = 0 ∧
      u.dec.maxBitsReceived = max s.dec.maxBitsReceived bs.length ∧
      u.outputs = s.outputs ++ [.pair .header .incomplete] ++ bs.map (fun b => .pair (bitClass b) .incomplete) ++
        [.pair .frameEnd .datagram] := by
  have hrun := performAll_nominal_bits hconn hbits hacc bs hlen
  have hheld : (s.afterHeader.accumulated (bs.map nominalBitPair)).dec.bitsReceived ≠ 0 := by
    simpa [State.accumulated] using hne
  obtain ⟨u, now, hlast, hdec, houts⟩ :=
    exec_pulse_frameEnd (s := s.afterHeader.accumulated (bs.map nominalBitPair)) hconn hlong hheld
  refine ⟨u, ?_, ?_, ?_, ?_, ?_, ?_⟩
  · rw [performAll_append _ _ _ _ hrun, performAll_cons hlast]
    rfl
  · rw [hdec]
    exact congrArg (fun l => BitVec.ofNat 64 (bitsValue l)) (map_pairBit_nominalBitPair bs)
  · rw [hdec]
    rfl
  · rw [hdec]
    rfl
  · rw [hdec]
    exact congrArg (max s.dec.maxBitsReceived) (List.length_map nominalBitPair)
  · have hclasses : (bs.map nominalBitPair).map (fun p => Output.pair (bitClass (pairBit p)) .incomplete) =
        bs.map fun b => .pair (bitClass b) .incomplete := by
      rw [List.map_map]
      exact List.map_congr_left fun b _ => by rw [Function.comp_apply, pairBit_nominalBitPair]
    rw [houts, State.accumulated, hclasses]
    rfl

/-- Settles O29: the frame on a nominal run is the header pair and the pairs of the payload's 32 bits, which the terminator pair
flushes. -/
theorem commandRoundTrip : Obligations.CommandRoundTrip := by
  intro a c wc g s r items hready hwc _ hconn hbits hacc hlong ⟨t, hexec, htrace⟩
  obtain ⟨ds, -, hframe⟩ := exec_sendcmd_frame hready a c
  have hitems : items = frameTrace wc 32 (payloadValue a c) := by
    rw [hframe] at hexec
    cases hexec
    rw [← hwc]
    exact (List.append_cancel_left htrace).symm
  have hlen := bitsFromTop_length 32 (payloadValue a c)
  obtain ⟨u, hrun, hlast, hubits, huacc, humax, houts⟩ := performAll_nominal_frame (s := r) hconn hbits hacc
    (bs := bitsFromTop 32 (payloadValue a c)) (by omega) (by omega) (m := 560 + wc) (x := g) hlong
  rw [bitsValue_bitsFromTop (payloadValue_lt_two_pow a c)] at hlast
  rw [hlen] at humax
  rw [bitsFromTop_eq_map, List.map_map] at houts
  obtain ⟨hbyte3, hbyte2, hbyte1, hbyte0⟩ := payloadValue_bytes a c
  rw [hitems, nominalRun_frameTrace]
  refine ⟨u, hrun, hlast, ?_, ?_, ?_, ?_, hubits, huacc, humax ▸ le_max_right _ _, houts⟩
  · rw [hlast, hbyte3]
  · rw [hlast, hbyte2]
  · rw [hlast, hbyte1]
  · rw [hlast, hbyte0]

end Sys2Proof.Machine
end

section
/-!
PROOF. The statements about the EventDispatcher (spec/42_dispatcher.md). `HANDLE` and `POLL` reach three parts of the state, which
`State.Dispatched` names: `dec`, the callbacks that join the UserCallback executor, and the clock. A press, its refreshes and its
release (R184) are then a run of such operations, whose callbacks are listed one after the other.
-/

namespace Sys2Proof.Machine

/-! ## The handler lists -/

/-- Which keys accept a code (R183). -/
theorem Key.accepts_iff (k : Key) (code : Int) : Key.accepts k code = true ↔ k = .code code ∨ k = .wildcard := by
  cases k <;> simp [Key.accepts]

theorem matchHandler_eq_none {handlers : List (Key × Callback)} {code : Int}
    (h : ∀ e ∈ handlers, e.1 ≠ .code code ∧ e.1 ≠ .wildcard) : matchHandler handlers code = none := by
  have hfind : (handlers.find? fun e => Key.accepts e.1 code) = none :=
    List.find?_eq_none.2 fun e he hacc => ((Key.accepts_iff e.1 code).1 hacc).elim (h e he).1 (h e he).2
  rw [matchHandler, hfind, Option.map_none]

theorem matchHandler_append (before after : List (Key × Callback)) (code : Int) :
    matchHandler (before ++ after) code = (matchHandler before code).or (matchHandler after code) := by
  simp only [matchHandler, List.find?_append, Option.map_or]

theorem matchHandler_cons_accepts {key : Key} {code : Int} (h : key = .code code ∨ key = .wildcard) (callback : Callback)
    (after : List (Key × Callback)) : matchHandler ((key, callback) :: after) code = some callback := by
  simp [matchHandler, (Key.accepts_iff key code).2 h]

/-- Settles O33: no entry before the match accepts the code. -/
theorem firstMatchingHandlerWins : Obligations.FirstMatchingHandlerWins := by
  intro code
  refine ⟨fun before after key callback hbefore hkey => ?_, fun handlers h => matchHandler_eq_none h⟩
  rw [matchHandler_append, matchHandler_eq_none hbefore, Option.none_or, matchHandler_cons_accepts hkey]

/-! ## The command code -/

/-- The masked formula takes bits 15 to 8 (R172). -/
theorem cmdxOf_false_toNat (v : U64) : (cmdxOf false v).toNat = v.toNat / 256 % 256 := by
  have hmask := Nat.and_two_pow_sub_one_eq_mod (v.toNat >>> 8) 8
  simp only [cmdxOf, Bool.false_eq_true, if_false, BitVec.toNat_and, BitVec.toNat_ushiftRight]
  simpa [Nat.shiftRight_eq_div_pow] using hmask

/-- The literal formula takes bits 63 to 8 (R172). -/
theorem cmdxOf_true_toNat (v : U64) : (cmdxOf true v).toNat = v.toNat / 256 := by
  simp [cmdxOf, Nat.shiftRight_eq_div_pow]

/-- Settles O32, by the constant that chooses the formula. -/
theorem commandCodeIsOneOfTwoFormulas : Obligations.CommandCodeIsOneOfTwoFormulas := by
  refine ⟨?_, CMDX_range⟩
  cases hconfig : Config.cmdxLiteral with
  | false => exact .inl fun v => by rw [CMDX, hconfig, cmdxOf_false_toNat]
  | true => exact .inr fun v => by rw [CMDX, hconfig, cmdxOf_true_toNat]

/-! ## The queries and the registrations -/

/-- Settles O35: the flag is read before it is cleared. -/
theorem wasrxReturnsAndClearsTheFlag : Obligations.WasrxReturnsAndClearsTheFlag :=
  fun _ => rfl

/-- Settles O37: `HELD` only gives an output. -/
theorem heldReturnsTheCommand : Obligations.HeldReturnsTheCommand :=
  fun _ => rfl

/-- Settles O38: each registration is written with the one field it changes. -/
theorem registrationsKeepInsertionOrder : Obligations.RegistrationsKeepInsertionOrder :=
  fun _ _ _ => ⟨rfl, rfl, rfl⟩

/-! ## The text of the datagram -/

/-- What stands before the digits does not run into them (R178, log 5). -/
theorem hexLead_getLast? {c : Char} (h : hexLead.getLast? = some c) : isHexDigit c = false := by
  unfold hexLead at h
  split at h
  · cases h
  · next hlead => simpa [h] using hlead

theorem inCase_eq_map (lower : Bool) (t : Text) : inCase lower t = t.map (caseOf lower) := by
  cases lower <;> rfl

/-- `Nat.digitChar` and `hexDigit` differ in the case of the letters only. -/
theorem caseOf_digitChar (lower : Bool) {n : Nat} (h : n < 16) :
    caseOf lower n.digitChar = caseOf lower (hexDigit n) := by
  revert n; revert lower; decide

/-- A string of digits in either letter case reads as the digits do. -/
theorem hexValue_map_caseOf (lower : Bool) {ds : List Nat} (h : ∀ d ∈ ds, d < 16) :
    hexValue (ds.map fun d => caseOf lower (hexDigit d)) = ds.foldl (fun v d => 16 * v + d) 0 := by
  rw [hexValue, List.foldl_map]
  refine List.foldl_ext _ _ _ fun v d hd => ?_
  rw [(caseOf_digit lower d (h d hd)).1]

/-- The digits of `LASTHEX` in either letter case: hex digits with the number's value, and no leading zero (R178). -/
theorem inCase_toDigits (lower : Bool) (n : Nat) :
    inCase lower (Nat.toDigits 16 n) ≠ [] ∧ (∀ c ∈ inCase lower (Nat.toDigits 16 n), isHexDigit c = true) ∧
      hexValue (inCase lower (Nat.toDigits 16 n)) = n ∧ (n ≠ 0 → (inCase lower (Nat.toDigits 16 n)).head? ≠ some '0') := by
  obtain ⟨ds, htext, hlt, hne, hvalue, hhead⟩ := toDigits_sixteen n
  have hcase : inCase lower (Nat.toDigits 16 n) = ds.map fun d => caseOf lower (hexDigit d) := by
    rw [inCase_eq_map, htext, List.map_map]
    exact List.map_congr_left fun d hd => caseOf_digitChar lower (hlt d hd)
  rw [hcase]
  refine ⟨by simpa using hne, fun c hc => ?_, (hexValue_map_caseOf lower hlt).trans hvalue, fun hn hzero => ?_⟩
  · obtain ⟨d, hd, rfl⟩ := List.mem_map.1 hc
    exact (caseOf_digit lower d (hlt d hd)).2
  · rw [List.head?_map, Option.map_eq_some_iff] at hzero
    obtain ⟨d, hd, hd0⟩ := hzero
    have hvalue0 := (caseOf_digit lower d (hlt d (List.mem_of_head? hd))).1
    rw [hd0] at hvalue0
    exact hhead hn (hd.trans (congrArg some hvalue0.symm))

theorem hexValue_replicate_zero (n : Nat) : hexValue (List.replicate n '0') = 0 := by
  induction n with
  | zero => rfl
  | succ n ih => exact ih

/-- Settles O36: zeros stand for the value 0, and the digits of `Nat.toDigits` for every other value. -/
theorem lasthexRendersTheDatagram : Obligations.LasthexRendersTheDatagram := by
  refine ⟨hexLead, fun _ => hexLead_getLast?, fun s => ⟨_, rfl, ?_⟩⟩
  split
  case isTrue hzero =>
    refine ⟨by simp, fun c hc => ?_, ?_, fun hne => absurd hzero hne⟩
    · rw [List.eq_of_mem_replicate hc]; decide
    · rw [hexValue_replicate_zero, hzero]; rfl
  case isFalse hne =>
    obtain ⟨hnil, hdigits, hvalue, hhead⟩ := inCase_toDigits Config.hexLower s.dec.lastDatagram.toNat
    exact ⟨hnil, hdigits, hvalue, fun _ => hhead fun h0 => hne (BitVec.eq_of_toNat_eq h0)⟩

/-! ## What `HANDLE` and `POLL` do -/

/-- From `s` to `t` the dispatcher made `dec` into `d` and enqueued `cs` (R171, R175). -/
structure State.Dispatched (cs : List Callback) (d : Dec) (s t : State) : Prop where
  keeps : State.KeepsButQueue s t
  dec : t.dec = d
  queued : Executor.Queued cs s.userCallback t.userCallback

/-- Nothing else changes but the draws and the last clock reading. -/
theorem State.Dispatched.eq {cs : List Callback} {d : Dec} {s t : State} (h : State.Dispatched cs d s t) :
    t = { s with dec := d, userCallback := t.userCallback, millis := t.millis, draws := t.draws } := by
  obtain ⟨⟨htx, hothers, hpriority, hmicros, houtputs, htimeline, hstuck, -⟩, hdec, -⟩ := h
  rw [← htx, ← hothers, ← hpriority, ← hmicros, ← houtputs, ← htimeline, ← hstuck, ← hdec]

theorem exec_handle (now : Nat) (s : State) {sig : Signal} (h : sig ≠ .incomplete) :
    exec (.handle sig now) s = .next ((s.observeMillis now).handle sig now) := by
  cases sig
  case incomplete => exact absurd rfl h
  case datagram => rfl
  case repeatCode => rfl

theorem exec_poll (now : Nat) (s : State) : exec (.poll now) s = .next ((s.observeMillis now).poll now) := rfl

theorem exec_handle_dispatched (now : Nat) {s : State} (hc : s.userCallback.Clean) {sig : Signal} (h : sig ≠ .incomplete) :
    ∃ t, exec (.handle sig now) s = .next t ∧
      State.Dispatched (handleCallbacks sig s.dec) (handleDec sig now s.dec) (s.observeMillis now) t := by
  obtain ⟨hkeeps, hdec, hqueued⟩ := State.handle_spec sig now (s.observeMillis now)
  exact ⟨_, exec_handle now s h, hkeeps, hdec, hqueued hc⟩

theorem exec_poll_dispatched {now : Nat} {s : State} (hc : s.userCallback.Clean) (h : pollActs now s.dec) :
    ∃ t, exec (.poll now) s = .next t ∧
      State.Dispatched (matchHandler s.dec.releaseHandlers s.dec.activeCommand).toList
        { s.dec with accumulator := 0, bitsReceived := 0, activeCommand := NO_BUTTON } (s.observeMillis now) t := by
  obtain ⟨hkeeps, hdec, hqueued⟩ := State.poll_acts now (s.observeMillis now) h
  exact ⟨_, exec_poll now s, hkeeps, hdec, hqueued hc⟩

/-- Settles O30: `HANDLE` tests for `INCOMPLETE` first. -/
theorem handleIncompleteDoesNothing : Obligations.HandleIncompleteDoesNothing :=
  fun _ _ => rfl

/-- Settles O31: a repeat code sets the deadline alone, and a datagram enqueues the callbacks that `handleCallbacks` lists. -/
theorem handleTurnsSignalsIntoEvents : Obligations.HandleTurnsSignalsIntoEvents := by
  intro now s hc
  refine ⟨rfl, ?_⟩
  obtain ⟨t, hexec, h⟩ := exec_handle_dispatched now hc (sig := .datagram) (by decide)
  obtain ⟨js, hadd, hcallbacks, honce⟩ := h.queued.pendingAdd
  exact ⟨t, js, hexec, h.eq, h.keeps.millis, hadd, hcallbacks, honce, h.queued.live, h.queued.pendingCancel,
    h.queued.interval, h.queued.iteration, h.queued.created⟩

/-- Settles O34, by the condition of a release. -/
theorem pollReleasesAfterTheDeadline : Obligations.PollReleasesAfterTheDeadline := by
  intro now s hc
  refine ⟨fun hidle => ?_, fun hheld hlate => ?_⟩
  · rw [exec_poll, State.poll_idle now (s.observeMillis now) hidle]; rfl
  · obtain ⟨t, hexec, h⟩ := exec_poll_dispatched hc ⟨hheld, hlate⟩
    obtain ⟨js, hadd, hcallbacks, honce⟩ := h.queued.pendingAdd
    exact ⟨t, js, hexec, h.eq, h.keeps.millis, hadd, hcallbacks, honce, h.queued.live, h.queued.pendingCancel,
      h.queued.interval, h.queued.iteration, h.queued.created⟩

/-! ## A press and its release -/

/-- A datagram that presses a button, with no datagram handler, enqueues the press alone (R171). -/
theorem handleCallbacks_press {d : Dec} {press : Callback} (hidle : d.activeCommand = -1) (hnone : d.datagramHandler = none)
    (hpress : matchHandler d.pressHandlers (CMDX d.lastDatagram) = some press) : handleCallbacks .datagram d = [press] := by
  have hnew : CMDX d.lastDatagram ≠ -1 := (CMDX_range _).2
  simp [handleCallbacks, switchCallbacks, hnone, hidle, hpress, hnew, NO_BUTTON]

/-- The button of the last datagram is held, and no datagram handler is registered: no signal enqueues anything (R171). -/
theorem handleCallbacks_refresh {d : Dec} (hheld : d.activeCommand = CMDX d.lastDatagram) (hnone : d.datagramHandler = none)
    (sig : Signal) : handleCallbacks sig d = [] := by
  cases sig <;> simp [handleCallbacks, switchCallbacks, hnone, hheld]

/-- A signal that refreshes the held button moves its deadline, and sets the flag at most (R171). -/
theorem handleDec_refresh {d : Dec} (hheld : d.activeCommand = CMDX d.lastDatagram) (now : Nat) {sig : Signal}
    (h : sig ≠ .incomplete) : handleDec sig now d =
      { d with repeatDeadline := now + 220, hasUnreadDatagram := (handleDec sig now d).hasUnreadDatagram } := by
  cases sig
  case incomplete => exact absurd rfl h
  case datagram => rw [handleDec, ← hheld]
  case repeatCode => rfl

/-- Refreshes of a held button enqueue nothing; the deadline is that of the last signal, `e` being the one before them (R184). -/
theorem performAll_refreshes {s : State} (hc : s.userCallback.Clean) (hheld : s.dec.activeCommand = CMDX s.dec.lastDatagram)
    (hnone : s.dec.datagramHandler = none) {e : Signal × Nat} (hdeadline : s.dec.repeatDeadline = e.2 + 220)
    {rest : List (Signal × Nat)} (hrest : ∀ r ∈ rest, r.1 ≠ .incomplete) :
    ∃ t, performAll (rest.map fun r => .handle r.1 r.2) s = .next t ∧
      Executor.Queued [] s.userCallback t.userCallback ∧
      t.dec = { s.dec with
        repeatDeadline := ((e :: rest).getLast (by simp)).2 + 220, hasUnreadDatagram := t.dec.hasUnreadDatagram } := by
  induction rest generalizing s e with
  | nil => exact ⟨s, rfl, .nil hc, by rw [List.getLast_singleton, ← hdeadline]⟩
  | cons r rest ih =>
    have hr : r.1 ≠ .incomplete := hrest r List.mem_cons_self
    obtain ⟨t, hexec, h⟩ := exec_handle_dispatched r.2 hc hr
    have hdec := h.dec.trans (handleDec_refresh hheld r.2 hr)
    have hqueued := h.queued
    rw [handleCallbacks_refresh hheld hnone] at hqueued
    obtain ⟨u, hrun, hqueued', hdec'⟩ := ih hqueued.clean (by rw [hdec]; exact hheld) (by rw [hdec]; exact hnone)
      (by rw [hdec]) fun r' hr' => hrest r' (List.mem_cons_of_mem r hr')
    refine ⟨u, by rw [List.map_cons, performAll_cons hexec, hrun], hqueued.trans hqueued', ?_⟩
    rw [hdec', hdec, List.getLast_cons_cons]

/-- Settles O39: the datagram enqueues the press, the refreshes nothing, and the poll the release. -/
theorem pressThenReleaseOnce : Obligations.PressThenReleaseOnce := by
  intro press release n0 n rest s hc hidle hnone hpress hrelease hrest hlate
  obtain ⟨t, hexec, h⟩ := exec_handle_dispatched n0 hc (sig := .datagram) (by decide)
  have hpressed := h.queued
  rw [handleCallbacks_press hidle hnone hpress] at hpressed
  obtain ⟨u, hrun, hrefreshed, hdec⟩ := performAll_refreshes hpressed.clean (e := (.datagram, n0)) (by rw [h.dec]; rfl)
    (by rw [h.dec]; exact hnone) (by rw [h.dec]; rfl) hrest
  rw [h.dec] at hdec
  have hactive : u.dec.activeCommand = CMDX s.dec.lastDatagram := by rw [hdec]; rfl
  have hhandlers : u.dec.releaseHandlers = s.dec.releaseHandlers := by rw [hdec]; rfl
  have hacts : pollActs n u.dec :=
    ⟨by rw [hactive]; exact (CMDX_range _).2, by rw [hdec]; exact hlate⟩
  obtain ⟨v, hpoll, hv⟩ := exec_poll_dispatched hrefreshed.clean hacts
  have hreleased := hv.queued
  rw [hhandlers, hactive, hrelease] at hreleased
  obtain ⟨js, hadd, hcallbacks, -⟩ := ((hpressed.trans hrefreshed).trans hreleased).pendingAdd
  refine ⟨v, js, ?_, hadd, hcallbacks, by rw [hv.dec]; rfl⟩
  have hbefore := (performAll_cons hexec _).trans hrun
  rw [performAll_append _ _ _ _ hbefore, performAll_cons hpoll]
  rfl

end Sys2Proof.Machine
end

section
/-!
PROOF. The statements about the scheduler (spec/43_scheduler.md): submissions and cancellations, the uninterrupted iteration, what it
does with a job that was cancelled before it, the polling interval, and the background loops. `State.Iterates` says once what an
uninterrupted iteration does; the statements about calls and live jobs read it off.
-/

namespace Sys2Proof.Machine

/-! ## Submissions -/

/-- An accepted submission (R204, U11): the job is enqueued, and its id given. -/
theorem execSchedule_accepted (q : Queue) (c : Callback) {m : Mode} {d : Decimal} (s : State) (hd : 0 ≤ d.mant)
    (hm : m = .recurring → ((10 ^ d.scale : Nat) : Int) ≤ d.mant) :
    execSchedule q (some c) m d s = .next ((s.enqueue q c m d).2.emit (.jobId (Config.jobId s.draws))) := by
  have hneg : Decimal.negative d = false := by simpa [Decimal.negative] using hd
  have hlow : ¬ (m = .recurring ∧ Decimal.belowOne d = true) := fun ⟨hr, hb⟩ =>
    absurd (hm hr) (by simpa [Decimal.belowOne] using hb)
  simp [execSchedule, hneg, hlow]

/-- What is given after an executor was replaced. -/
theorem State.emit_setExecutor (o : Output) (q : Queue) (e : Executor) (s : State) :
    (s.setExecutor q e).emit o = (s.emit o).setExecutor q e := by
  cases q <;> rfl

/-- Settles O40: the null callback and the two ranges of the delay are tested first; an accepted job joins an executor that exists
or is made. -/
theorem scheduleAcceptsOrDrops : Obligations.ScheduleAcceptsOrDrops := by
  intro q m d c s
  refine ⟨rfl, fun hneg => ?dropped, fun hd hr hlow => ?refused, fun hd hm => ?accepted⟩
  case dropped =>
    simp [exec, execSchedule, Decimal.negative, hneg, State.emit]
  case refused =>
    have hneg : ¬ d.mant < 0 := by omega
    simp only [exec, execSchedule, Decimal.negative, Decimal.belowOne, hneg, hr, hlow, decide_true, decide_false,
      and_self, if_true, Bool.false_eq_true, if_false]
  case accepted =>
    have hexec := execSchedule_accepted q c s hd hm
    cases hc : (s.executor q).created with
    | true =>
      rw [State.enqueue_created q c m d s hc, State.emit_setExecutor] at hexec
      exact ⟨_, Config.jobId s.draws, s.executor q, hexec, fun _ => ⟨rfl, by simp⟩, nofun, by cases q <;> rfl⟩
    | false =>
      rw [State.enqueue_absent hc, State.emit_setExecutor] at hexec
      exact ⟨_, Config.jobId s.draws, ⟨true, [], [], [], 100, _, none, _⟩, hexec, nofun, fun _ => ⟨by cases q <;> rfl, by simp⟩,
        by cases q <;> rfl⟩

/-! ## Cancellations -/

/-- An executor with one more cancellation buffered (R206). -/
def Executor.cancelling (id : Bits31) (e : Executor) : Executor := { e with pendingCancel := e.pendingCancel ++ [id] }

section
variable (id : Bits31) (e : Executor)

@[simp] theorem Executor.cancelling_created : (e.cancelling id).created = e.created := rfl
@[simp] theorem Executor.cancelling_live : (e.cancelling id).live = e.live := rfl
@[simp] theorem Executor.cancelling_pendingCancel : (e.cancelling id).pendingCancel = e.pendingCancel ++ [id] := rfl
@[simp] theorem Executor.cancelling_interval : (e.cancelling id).interval = e.interval := rfl
@[simp] theorem Executor.cancelling_lastIteration : (e.cancelling id).lastIteration = e.lastIteration := rfl
@[simp] theorem Executor.cancelling_iteration : (e.cancelling id).iteration = e.iteration := rfl
end

/-- `CANCEL` in an executor that exists (R206). -/
theorem exec_cancel_created {q : Queue} {s : State} (hc : (s.executor q).created = true) (id : Bits31) :
    exec (.cancel q id) s = .next (s.setExecutor q ((s.executor q).cancelling id)) := by
  simp [exec, execCancel, State.withExecutor_created q s hc, Executor.cancelling]

/-- `CANCEL` as the first use of its executor (R200, R206): the executor is new, from a clock reading drawn for it (log 15). -/
theorem exec_cancel_absent {q : Queue} {s : State} (hc : (s.executor q).created = false) (id : Bits31) :
    exec (.cancel q id) s = .next (s.readMillis.2.setExecutor q
      ⟨true, [], [], [id], 100, s.readMillis.1, none, s.readMillis.1⟩) := by
  simp [exec, execCancel, State.withExecutor, hc, Executor.reset, POLL_DEFAULT_MS]

/-- Settles O41, by whether the executor exists. -/
theorem cancelIsBuffered : Obligations.CancelIsBuffered := by
  intro q id s
  cases hc : (s.executor q).created with
  | true =>
    exact ⟨_, s.executor q, exec_cancel_created hc id, fun _ => ⟨rfl, by simp, by simp⟩, nofun, by cases q <;> rfl⟩
  | false =>
    exact ⟨_, ⟨true, [], [], [], 100, s.readMillis.1, none, s.readMillis.1⟩, exec_cancel_absent hc id, nofun,
      fun _ => ⟨by simp, by simpa using State.le_readMillis s⟩, by cases q <;> rfl⟩

/-- The jobs that stay where one more id is cancelled (R207). -/
theorem Executor.settledJobs_cancelling (id : Bits31) (e : Executor) :
    (e.cancelling id).settledJobs = e.settledJobs.filter fun j => j.id ≠ id := by
  simp only [Executor.settledJobs, Executor.cancelling, List.filter_filter]
  refine List.filter_congr fun j _ => ?_
  simp [Bool.and_comm]

/-- A job whose id is cancelled does not stay (R207). -/
theorem Executor.id_ne_of_mem_settledJobs {e : Executor} {id : Bits31} (h : id ∈ e.pendingCancel) {j : Job}
    (hj : j ∈ e.settledJobs) : j.id ≠ id := by
  rintro rfl
  simp [Executor.settledJobs, h] at hj

/-! ## The uninterrupted iteration -/

/-- Nothing runs at the Yields to come (log 10), and the callbacks return (log 25). -/
structure State.Uninterrupted (s : State) : Prop where
  yields : s.yieldTaken = false
  returns : ∀ c, s.hangs c = false

/-- Only the timeline decides it. -/
theorem State.Uninterrupted.of_timeline {s t : State} (h : s.Uninterrupted) (ht : t.timeline = s.timeline) :
    t.Uninterrupted where
  yields := by simpa [State.yieldTaken, ht] using h.yields
  returns c := by simpa [State.hangs, ht] using h.returns c

/-- Running jobs keeps the reading of the executor's last iteration. -/
theorem State.RunFrame.lastIteration {q : Queue} {s t : State} (h : State.RunFrame q s t)
    (hc : (s.executor q).created = true) : (t.executor q).lastIteration = (s.executor q).lastIteration := by
  cases q with
  | priority =>
    have hlast := congrArg Executor.lastIteration h.priority
    exact hlast
  | userCallback =>
    obtain ⟨cs, hq⟩ := h.user
    obtain ⟨-, hlast, -⟩ := hq.created hc
    exact hlast

theorem filterMap_order (q : Queue) (f : Job → Option Job) (jobs : List Job) :
    (order q jobs).filterMap f = order q (jobs.filterMap f) := by
  cases q <;> simp [order]

/-- The jobs an iteration calls, as outputs (R208): the due ones, in the queue's order. -/
def callsOf (q : Queue) (elapsed : Int) (jobs : List Job) : List Output :=
  ((order q jobs).filter (Job.dueAfter elapsed)).map fun j => .called q j.callback

/-- What an uninterrupted iteration does (R205, R207, R208): from its start on it runs the jobs of the queue, all of them. -/
structure State.Iterates (q : Queue) (now : Nat) (s t : State) : Prop where
  frame : State.RunFrame q (s.started q now) t
  iteration : (t.executor q).iteration = none
  live : (t.executor q).live = (s.executor q).settledJobs.filterMap (Job.afterIteration (s.elapsedAt q now))
  outputs : t.outputs = s.outputs ++ callsOf q (s.elapsedAt q now) (s.executor q).settledJobs ++
    [.slept q (s.executor q).interval]
  wake : (t.executor q).wake = t.millis + (s.executor q).interval
  stuck : t.stuck = s.stuck

section
variable {q : Queue} {now : Nat} {s t : State}

@[simp] theorem State.started_interval (q r : Queue) (now : Nat) (s : State) :
    ((s.started q now).executor r).interval = (s.executor r).interval := by
  cases q <;> cases r <;> rfl

/-- The frame of an iteration that none precedes: that of running jobs, from its start on. -/
theorem State.iterate_runFrame (now : Nat) (hs : s.Sound) (hi : (s.executor q).iteration = none) :
    State.RunFrame q (s.started q now) (s.iterate q now) := by
  rw [State.iterate_eq_started now hs hi]
  exact State.runJobs_frame q _ _ [] _ (State.started_created q now s) (State.started_clean q now s hs.clean)

/-- An iteration leaves the polling interval, whatever it calls and wherever it stops. -/
theorem exec_iterate_interval (hs : s.Sound) (hi : (s.executor q).iteration = none)
    (h : exec (.iterate q now) s = .next t) : (t.executor q).interval = (s.executor q).interval := by
  cases (exec_iterate_none now hi).symm.trans h
  rw [((State.iterate_runFrame now hs hi).kept q).1, State.started_interval]

/-- No job is marked where an iteration begins (R208). -/
theorem State.Sound.settledJobs_unmarked (hs : s.Sound) (hi : (s.executor q).iteration = none) {j : Job}
    (hj : j ∈ (s.executor q).settledJobs) : j.marked = false := by
  obtain ⟨-, -, -, hadd, hmark⟩ := hs.executor q
  rw [hi] at hmark
  rcases List.mem_append.mp (List.mem_filter.mp hj).1 with h | h
  · exact hmark j h
  · exact (hadd j h).2.1

/-- `ITERATE` where no iteration is suspended, with nothing at its Yields and callbacks that return. -/
theorem exec_iterate_whole (now : Nat) (hs : s.Sound) (hi : (s.executor q).iteration = none)
    (hu : s.Uninterrupted) : ∃ t, exec (.iterate q now) s = .next t ∧ State.Iterates q now s t := by
  refine ⟨_, exec_iterate_none now hi, ?_⟩
  have hrun : (s.started q now).Uninterrupted := hu.of_timeline (State.started_timeline q now s)
  have hframe := State.iterate_runFrame now hs hi
  have hint := exec_iterate_interval hs hi (exec_iterate_none now hi)
  obtain ⟨hnone, hlive, hout, hwake, hstuck⟩ := State.runJobs_whole q (s.elapsedAt q now)
    (order q (s.executor q).settledJobs) [] (s.started q now) (State.started_created q now s)
    (State.started_clean q now s hs.clean) hrun.yields hrun.returns
    fun j hj => hs.settledJobs_unmarked hi ((mem_order q _ j).1 hj)
  rw [State.iterate_eq_started now hs hi] at hframe hint ⊢
  rw [hint] at hout hwake
  refine ⟨hframe, hnone, ?_, by simpa [callsOf] using hout, hwake, by simpa using hstuck⟩
  rw [hlive, filterMap_order, List.filter_nil, List.nil_append, order_order]

/-- The executor afterwards, but for its pending additions, in which the poll may leave a release (R175). -/
theorem State.Iterates.executor (h : State.Iterates q now s t) :
    (t.executor q).created = true ∧ (t.executor q).lastIteration = now ∧ (t.executor q).pendingCancel = [] ∧
      (t.executor q).interval = (s.executor q).interval := by
  obtain ⟨hint, hcancel⟩ := h.frame.kept q
  have hlast := h.frame.lastIteration (State.started_created q now s)
  simp only [State.started, State.executor_setExecutor] at hint hcancel hlast
  exact ⟨h.frame.created, hlast, hcancel, hint⟩

/-- The sides that an iteration does not touch. -/
theorem State.Iterates.keeps (h : State.Iterates q now s t) :
    t.tx = s.tx ∧ t.txOthers = s.txOthers ∧ t.micros = s.micros ∧ t.timeline = s.timeline := by
  obtain ⟨htx, hothers, hmicros, htimeline, -⟩ := h.frame
  simp only [State.started, State.setExecutor_tx, State.setExecutor_txOthers, State.setExecutor_micros,
    State.setExecutor_timeline] at htx hothers hmicros htimeline
  exact ⟨htx, hothers, hmicros, htimeline⟩

/-- An iteration keeps a job's id. -/
theorem Job.afterIteration_id {elapsed : Int} {j k : Job} (h : j.afterIteration elapsed = some k) : k.id = j.id := by
  unfold Job.afterIteration at h
  split at h
  · split at h
    · cases h
    · cases h; rfl
  · cases h; rfl

/-- A job that is live after an iteration has the id of one it began with. -/
theorem State.Iterates.exists_of_live (h : State.Iterates q now s t) {k : Job} (hk : k ∈ (t.executor q).live) :
    ∃ j ∈ (s.executor q).settledJobs, k.id = j.id := by
  rw [h.live] at hk
  obtain ⟨j, hj, hjk⟩ := List.mem_filterMap.mp hk
  exact ⟨j, hj, Job.afterIteration_id hjk⟩
end

/-! ## The order of the queues -/

/-- An accepted Once job in an executor that exists: it is submitted, and its id given (R204). -/
theorem exec_schedule_once {q : Queue} {s : State} (hc : (s.executor q).created = true) (c : Callback) {d : Decimal}
    (hd : 0 ≤ d.mant) : ∃ t id, exec (.schedule q (some c) .once d) s = .next t ∧
      t.executor q = (s.executor q).submit (Job.new id c .once d) ∧ t.outputs = s.outputs ++ [.jobId id] ∧
      t.timeline = s.timeline := by
  refine ⟨_, Config.jobId s.draws, execSchedule_accepted q c s hd nofun, ?_, ?_, ?_⟩
  · rw [State.enqueue_created q c .once d s hc, State.executor_emit, State.executor_setExecutor]
  · rw [State.emit_outputs, State.enqueue_outputs]
  · rw [State.emit_timeline, State.enqueue_timeline]

@[simp] theorem Job.new_callback (id : Bits31) (c : Callback) (m : Mode) (d : Decimal) : (Job.new id c m d).callback = c := rfl
@[simp] theorem Job.new_mode (id : Bits31) (c : Callback) (m : Mode) (d : Decimal) : (Job.new id c m d).mode = m := rfl

/-- A new job is due once its delay is over (R208). -/
theorem Job.dueAfter_new {id : Bits31} {c : Callback} {m : Mode} {d : Decimal} {elapsed : Int}
    (h : d.mant ≤ elapsed * (10 ^ d.scale : Nat)) : (Job.new id c m d).dueAfter elapsed = true := by
  have hover : d.mant - elapsed * (10 ^ d.scale : Nat) ≤ 0 := by omega
  simpa [Job.dueAfter, Job.new, Decimal.positive, Decimal.minus] using hover

/-- Settles O43: the two jobs are all the iteration has to run, and both are due. -/
theorem queueOrderOfTwoJobs : Obligations.QueueOrderOfTwoJobs := by
  intro q a b d now s hs hy hh hc hlive hadd hcancel hi hd hdue
  obtain ⟨u, id1, hu, hue, huo, hut⟩ := exec_schedule_once hc (.user a) hd
  obtain ⟨v, id2, hv, hve, hvo, hvt⟩ := exec_schedule_once (s := u) (by rw [hue]; exact hc) (.user b) hd
  rw [hue] at hve
  have hvs : v.Sound := (exec_keeps (exec_keeps hs hu).1 hv).1
  obtain ⟨t, ht, hit⟩ := exec_iterate_whole (q := q) (s := v) now hvs (by rw [hve]; exact hi)
    (State.Uninterrupted.of_timeline ⟨hy, hh⟩ (hvt.trans hut))
  have hjobs : (v.executor q).settledJobs = [Job.new id1 (.user a) .once d, Job.new id2 (.user b) .once d] := by
    simp [hve, Executor.settledJobs, hlive, hadd, hcancel]
  have helapsed : v.elapsedAt q now = (now : Int) - (s.executor q).lastIteration := by
    simp [State.elapsedAt, hve, hc]
  have hinterval : (v.executor q).interval = (s.executor q).interval := by simp [hve]
  have hdue1 : ∀ id c, (Job.new id c .once d).dueAfter (v.elapsedAt q now) = true := fun id c =>
    Job.dueAfter_new (by rw [helapsed]; exact hdue)
  refine ⟨t, id1, id2, by rw [performAll_cons hu, performAll_cons hv, performAll_cons ht]; rfl, ?_, ?_⟩
  · rw [hit.outputs, hjobs, hvo, huo, hinterval]
    cases q <;> simp [callsOf, order, hdue1]
  · rw [hit.live, hjobs]
    simp [Job.afterIteration, hdue1]

/-! ## Cancelled jobs -/

/-- An `ITERATE` where the cancellation of `id` is buffered: only due jobs of another id are called, and none of that id is live
afterwards (R206, R207). -/
structure State.IteratesWithout (q : Queue) (id : Bits31) (now : Nat) (s t : State) : Prop where
  live : ∀ j ∈ (t.executor q).live, j.id ≠ id
  outputs : t.outputs = s.outputs ++ callsOf q ((now : Int) - (s.executor q).lastIteration)
    ((s.executor q).settledJobs.filter fun j => j.id ≠ id) ++ [.slept q (s.executor q).interval]

theorem State.Iterates.without {q : Queue} {id : Bits31} {now : Nat} {s t : State} (h : State.Iterates q now s t)
    (hc : (s.executor q).created = true) (hid : id ∈ (s.executor q).pendingCancel) : State.IteratesWithout q id now s t where
  live k hk := by
    obtain ⟨j, hj, hkj⟩ := h.exists_of_live hk
    rw [hkj]
    exact Executor.id_ne_of_mem_settledJobs hid hj
  outputs := by
    have hjobs : ((s.executor q).settledJobs.filter fun j => j.id ≠ id) = (s.executor q).settledJobs :=
      List.filter_eq_self.2 fun j hj => by simpa using Executor.id_ne_of_mem_settledJobs hid hj
    rw [hjobs, h.outputs, State.elapsedAt, if_pos hc]

/-- What a suspended iteration of `s` that goes on leaves (R208): the jobs not yet visited have run, and the executor sleeps. -/
structure State.Resumes (q : Queue) (it : Iteration) (s t : State) : Prop where
  iteration : (t.executor q).iteration = none
  live : (t.executor q).live = order q
    (((order q (s.executor q).live).take it.visited).filter (fun j => !j.marked) ++
      ((order q (s.executor q).live).drop it.visited).filterMap (Job.afterIteration it.elapsed))
  outputs : t.outputs = s.outputs ++
    ((((order q (s.executor q).live).drop it.visited).filter (Job.dueAfter it.elapsed)).map fun j => .called q j.callback) ++
    [.slept q (s.executor q).interval]

/-- A Yield ends, and the line that follows is an `ITERATE` of the same executor, in which a cancellation is buffered. Both
iterations run to their ends, with nothing at the Yields and callbacks that return. -/
theorem step_resume_step_iterate {q : Queue} {id : Bits31} {now : Nat} {line : Text} {rest : List Event} {s : State}
    {it : Iteration} (hs : s.Sound) (hstuck : s.stuck = false) (hi : (s.executor q).iteration = some it)
    (hid : id ∈ (s.executor q).pendingCancel) (ht : s.timeline = .resume q :: .op line :: rest)
    (hd : decode line = .ok (.iterate q now)) (hu : State.Uninterrupted { s with timeline := rest }) :
    ∃ u v, step s = .next u ∧ step u = .next v ∧ State.Resumes q it s u ∧ State.IteratesWithout q id now u v := by
  have hs' : State.Sound { s with timeline := .op line :: rest } := hs
  obtain ⟨hframe, hnone, hlive, hout, -, hfree⟩ := State.resumeIteration_whole q { s with timeline := .op line :: rest } it hs'
    (by simpa using hi) rfl fun c => by cases c <;> rfl
  have hus := hs'.resumeIteration q
  have hcancel := (hframe.kept q).2
  have htimeline := hframe.timeline
  have hcreated := hframe.created
  have hstep := step_resume ht hstuck
  generalize State.resumeIteration q { s with timeline := .op line :: rest } = u at *
  rw [State.executor_withTimeline] at hlive hout hcancel
  have hline : step u = exec (.iterate q now) { u with timeline := rest } :=
    stepRunsTheDecodedOperation u line rest _ (.inl htimeline) hd (.inl (hfree.trans hstuck))
  obtain ⟨v, hv, hit⟩ := exec_iterate_whole (q := q) (s := { u with timeline := rest }) now hus (by simpa using hnone)
    (hu.of_timeline rfl)
  have hwithout := hit.without (id := id) (by simpa using hcreated) (by simpa [hcancel] using hid)
  obtain ⟨hvlive, hvout⟩ := hwithout
  rw [State.executor_withTimeline] at hvout
  exact ⟨u, v, hstep, hline.trans hv, ⟨hnone, hlive, hout⟩, hvlive, hvout⟩

/-- `CANCEL` in a sound state whose executor exists. -/
theorem State.Sound.cancelling {s : State} (hs : s.Sound) {q : Queue} (hc : (s.executor q).created = true) (id : Bits31) :
    (s.setExecutor q ((s.executor q).cancelling id)).Sound :=
  (exec_keeps hs (exec_cancel_created hc id)).1

/-- Settles O44: the cancellation is buffered where the next iteration begins, and a suspended iteration does not touch it. -/
theorem cancelledJobNeverRuns : Obligations.CancelledJobNeverRuns := by
  refine ⟨?next, ?atYield⟩
  case next =>
    intro q id now s hs hc hi hy hh
    have hcancel := exec_cancel_created hc id
    obtain ⟨t, ht, hit⟩ := exec_iterate_whole (q := q) now (hs.cancelling hc id) (by simpa using hi)
      (State.Uninterrupted.of_timeline ⟨hy, hh⟩ (by simp))
    obtain ⟨hlive, hout⟩ := hit.without (id := id) (by simpa using hc) (by simp)
    refine ⟨t, by rw [performAll_cons hcancel, performAll_cons ht]; rfl, hlive, ?_⟩
    rw [hout, State.executor_setExecutor, Executor.settledJobs_cancelling, State.setExecutor_outputs]
    simp [callsOf]
  case atYield =>
    intro q id now line rest s hs hstuck hi ht hd hy hh
    obtain ⟨it, hi⟩ := Option.ne_none_iff_exists'.1 hi
    have hc := (hs.suspended hi).1
    obtain ⟨u, v, hu, hv, -, hlive, hout⟩ := step_resume_step_iterate (id := id) (hs.cancelling hc id) (by simpa using hstuck)
      (by simpa using hi) (by simp) (by simpa using ht) hd (State.Uninterrupted.of_timeline ⟨hy, hh⟩ rfl)
    exact ⟨_, u, v, exec_cancel_created hc id, hu, hv, hlive, hout⟩

/-- A Repeat job that was due starts over after its call (R208). -/
theorem Job.afterCall_tick_recurring {j : Job} (h : j.mode = .recurring) (elapsed : Int) :
    (j.tick elapsed).afterCall = { j with remaining := j.delay } := by
  simp [Job.afterCall, Job.tick, h]

/-- A `CANCEL` at a Yield (log 10): the id is buffered, and the timeline advances. -/
theorem step_cancel_atYield {q : Queue} {id : Bits31} {line : Text} {rest : List Event} {s : State} (hs : s.Sound)
    (hstuck : s.stuck = false) (hc : (s.executor q).created = true) (ht : s.timeline = .atYield line :: rest)
    (hd : decode line = .ok (.cancel q id)) :
    ∃ t, step s = .next t ∧ t.Sound ∧ t.stuck = false ∧ t.timeline = rest ∧ t.outputs = s.outputs ∧
      t.executor q = (s.executor q).cancelling id := by
  have hs' : State.Sound { s with timeline := rest } := hs
  have hc' : (State.executor q { s with timeline := rest }).created = true := by simpa using hc
  have hstep := (stepRunsTheDecodedOperation s line rest _ (.inr ht) hd (.inl hstuck)).trans (exec_cancel_created hc' id)
  exact ⟨_, hstep, hs'.cancelling hc' id, by simpa using hstuck, by simp, by simp, by simp⟩

/-- Settles O60: the iteration is suspended at the Yield of the job's call, where the job has its delay again; the cancellation that
falls there is buffered, so it reaches the job in the next iteration. -/
theorem selfCancelledJobNeverFiresAgain : Obligations.SelfCancelledJobNeverFiresAgain := by
  intro q now later cancel next name rest s elapsed before after j hs hstuck hi ht hcancel hnext hy hh helapsed ho hb hj hmode hcb
  have hyield : s.yieldTaken = true := by simp [State.yieldTaken, ht]
  obtain ⟨t, hx, htout, hit, htlive, htimeline, hfree⟩ :=
    suspendedIterationEndsAsUninterrupted.1 q now s elapsed before after j hs hi hyield helapsed ho hb hj
  have hts : t.Sound := (exec_keeps hs hx).1
  have hinterval := exec_iterate_interval hs hi hx
  obtain ⟨u, hu, hus, hustuck, hut, huout, hue⟩ := step_cancel_atYield hts (hfree.trans hstuck) (hts.suspended hit).1
    (htimeline.trans ht) hcancel
  obtain ⟨v, w, hv, hw, ⟨hvnone, hvlive, hvout⟩, hwlive, hwout⟩ := step_resume_step_iterate (id := j.id) hus hustuck
    (by rw [hue]; exact hit) (by simp [hue]) hut hnext (State.Uninterrupted.of_timeline ⟨hy, hh⟩ rfl)
  have hjobs : order q (u.executor q).live = visitedUpTo elapsed before j ++ after := by
    rw [hue]
    simp [htlive, visitedUpTo]
  have hlength : before.length + 1 = (visitedUpTo elapsed before j).length := by simp [visitedUpTo]
  rw [hjobs, hlength, List.take_left, List.drop_left] at hvlive
  rw [hjobs, hlength, List.drop_left] at hvout
  refine ⟨t, u, v, w, hx, hu, hv, hw, hcb ▸ htout, ?_, hvnone, ?_, hwlive, hwout⟩
  · have hmarked : j.marked = false := hs.settledJobs_unmarked hi ((mem_order q _ j).1 (by rw [ho]; simp))
    rw [hvlive, mem_order, visitedUpTo, Job.afterCall_tick_recurring hmode]
    simp [hmarked]
  · rw [hvout, huout, hue, ← hinterval]
    rfl

/-! ## The polling interval -/

/-- No executor's polling interval is longer in `t` than in `s`. -/
def State.TightensIntervals (s t : State) : Prop := ∀ q, (t.executor q).interval ≤ (s.executor q).interval

section
variable {q : Queue} {s t u : State}

theorem State.TightensIntervals.trans (h : State.TightensIntervals s t) (k : State.TightensIntervals t u) :
    State.TightensIntervals s u :=
  fun q => (k q).trans (h q)

theorem State.TightensIntervals.of_executors (h : ∀ q, t.executor q = s.executor q) : State.TightensIntervals s t :=
  fun q => (congrArg Executor.interval (h q)).le

theorem State.TightensIntervals.setExecutor {e : Executor} (h : e.interval ≤ (s.executor q).interval) :
    State.TightensIntervals s (s.setExecutor q e) := by
  intro r
  by_cases hr : r = q
  · rw [hr, State.executor_setExecutor]; exact h
  · rw [State.executor_setExecutor_ne _ _ hr]

theorem State.RunFrame.tightens (h : State.RunFrame q s t) : State.TightensIntervals s t := fun r => (h.kept r).1.le

/-- The dispatcher: no job it enqueues is a Repeat job (R171). -/
theorem State.TightensIntervals.queued {cs : List Callback} (hk : State.KeepsButQueue s t)
    (hq : Executor.Queued cs s.userCallback t.userCallback) : State.TightensIntervals s t := by
  intro q
  cases q with
  | priority => exact (congrArg Executor.interval hk.priority).le
  | userCallback => exact hq.interval.le

/-- A new executor starts from the interval of reset, which one not created has (R210). -/
theorem State.firstUse_interval (h : (s.executor q).Clean) : (s.firstUse q).interval = (s.executor q).interval := by
  unfold State.firstUse
  split
  case isTrue => rfl
  case isFalse hc => rw [h (by simpa using hc)]

theorem State.TightensIntervals.withExecutor (h : (s.executor q).Clean) : State.TightensIntervals s (s.withExecutor q) := by
  intro r
  by_cases hr : r = q
  · rw [hr, State.withExecutor_executor, State.firstUse_interval h]
  · rw [State.withExecutor_other _ hr]

/-- A submission leaves the interval or lowers it to its delay (R210). -/
theorem Executor.submit_interval_le (j : Job) (e : Executor) : (e.submit j).interval ≤ e.interval := by
  rw [Executor.submit_interval]
  split
  case isTrue => exact min_le_left _ _
  case isFalse => exact le_refl _

theorem State.TightensIntervals.enqueue (h : (s.executor q).Clean) (c : Callback) (m : Mode) (d : Decimal) :
    State.TightensIntervals s (s.enqueue q c m d).2 := by
  have hdraws : State.TightensIntervals s { s with draws := s.draws + 1 } := .of_executors fun r => by simp
  have hcreated : State.TightensIntervals { s with draws := s.draws + 1 } (State.withExecutor q { s with draws := s.draws + 1 }) :=
    .withExecutor (by simpa using h)
  exact (hdraws.trans hcreated).trans (.setExecutor (Executor.submit_interval_le _ _))

theorem State.TightensIntervals.handle (hc : s.userCallback.Clean) (sig : Signal) (now : Nat) :
    State.TightensIntervals s (s.handle sig now) := by
  obtain ⟨hk, -, hq⟩ := State.handle_spec sig now s
  exact .queued hk (hq hc)

theorem State.TightensIntervals.poll (hc : s.userCallback.Clean) (now : Nat) : State.TightensIntervals s (s.poll now) := by
  by_cases h : pollActs now s.dec
  · obtain ⟨hk, -, hq⟩ := State.poll_acts now s h
    exact .queued hk (hq hc)
  · rw [State.poll_idle now s h]
    exact .of_executors fun _ => rfl

theorem State.TightensIntervals.completePair (hc : s.userCallback.Clean) (c : PairClass) :
    State.TightensIntervals s (s.completePair c) := by
  rw [State.completePair_spec]
  split
  case isTrue => exact .of_executors fun r => by cases r <;> rfl
  case isFalse =>
    refine State.TightensIntervals.trans (.of_executors fun r => ?_) (State.TightensIntervals.handle ?_ _ _)
    · cases r <;> rfl
    · exact hc

theorem State.TightensIntervals.iterate (hs : s.Sound) (now : Nat) (hi : (s.executor q).iteration = none) :
    State.TightensIntervals s (s.iterate q now) :=
  fun r => (State.started_interval q r now s) ▸ (State.iterate_runFrame now hs hi).tightens r

theorem State.TightensIntervals.endIteration (hs : s.Sound) (q : Queue) : State.TightensIntervals s (s.endIteration q) := by
  rcases hs.endIteration_cases q with h | h
  · rw [h]; exact .of_executors fun _ => rfl
  · exact h.tightens

theorem State.Sound.executor_clean (hs : s.Sound) (q : Queue) : (s.executor q).Clean := (hs.executor q).1
end

/-- `CONNECT` enqueues the poll, or no job (R101). -/
theorem execConnect_tightens {p : Proto} {n : Pin} {s t : State} (hs : s.Sound) (h : execConnect p n s = .next t) :
    State.TightensIntervals s t := by
  have hdec : ∀ d, State.TightensIntervals s { s with dec := d } := fun d => .of_executors fun r => by simp
  cases hp : s.dec.protocol with
  | some p' =>
    cases (execConnect_again p n (by rw [hp]; rfl)).symm.trans h
    exact .of_executors fun _ => rfl
  | none =>
    cases hr : s.dec.pollRegistered with
    | true =>
      cases (execConnect_registered p n hp hr).symm.trans h
      exact hdec _
    | false =>
      cases (execConnect_first p n s hp hr).symm.trans h
      have hc : (State.executor .priority { s with dec := s.dec.connected p n }).Clean := hs.executor_clean .priority
      exact (hdec _).trans (.enqueue hc _ _ _)

/-- `SCHEDULE` enqueues the job, or drops it (R204). -/
theorem execSchedule_tightens {q : Queue} {c : Option Callback} {m : Mode} {d : Decimal} {s t : State} (hs : s.Sound)
    (h : execSchedule q c m d s = .next t) : State.TightensIntervals s t := by
  have hemit : ∀ (u : State) (o : Output), State.TightensIntervals u (u.emit o) := fun u o =>
    .of_executors fun r => by simp
  cases c with
  | none => cases h; exact hemit s _
  | some c =>
    simp only [execSchedule] at h
    split_ifs at h
    · cases h; exact hemit s _
    · cases h; exact (State.TightensIntervals.enqueue (hs.executor_clean q) c m d).trans (hemit _ _)

/-- An operation that leaves the executors, but for the dispatcher's or the scheduler's part in it. -/
theorem exec_rest_tightens {i : Instr} {s t : State} (hs : s.Sound) (hi : i.opcode ∈ Opcode.ofRest)
    (h : exec i s = .next t) : State.TightensIntervals s t := by
  have hkept : (∀ q, t.executor q = s.executor q) → State.TightensIntervals s t := .of_executors
  cases i <;> simp [Instr.opcode, Opcode.ofRest] at hi
  case connect p n => exact execConnect_tightens hs h
  case markedge m => rw [exec_markedge_next h]; exact .of_executors fun r => by simp
  case clracc => cases h; exact hkept fun r => by simp
  case poll now =>
    cases h
    have hkept : State.TightensIntervals s (s.observeMillis now) := .of_executors fun r => by simp
    exact hkept.trans (.poll (by exact hs.clean) now)
  case lasthex => cases h; exact hkept fun r => by simp
  case held => cases h; exact hkept fun r => by simp
  case onpress k c => cases h; exact hkept fun r => by simp
  case onrelease k c => cases h; exact hkept fun r => by simp
  case ondatagram c => cases h; exact hkept fun r => by simp
  case schedule q c m d => exact execSchedule_tightens hs h
  case cancel q id =>
    cases h
    exact (State.TightensIntervals.withExecutor (hs.executor_clean q)).trans (.setExecutor le_rfl)
  case iterate q now =>
    cases h
    obtain ⟨he, hn⟩ := hs.endIteration q
    exact (State.TightensIntervals.endIteration hs q).trans (.iterate he now hn)

/-- Settles O46: only a submission changes an interval, and the creation of an executor, which had that of reset. -/
theorem pollingIntervalNeverGrows : Obligations.PollingIntervalNeverGrows := by
  intro i q s t hs h
  suffices ht : State.TightensIntervals s t from ht q
  rcases Opcode.groups i.opcode with hg | hg | hg | hg | hg
  · have hk := (exec_tx_keeps hg h).1
    exact .of_executors fun r => by cases r <;> [exact hk.priority; exact hk.userCallback]
  · obtain ⟨c, m, rfl⟩ := exec_pair_next hg h
    have hlatch : State.TightensIntervals s { s with dec := { s.dec with markLatch := m } } :=
      .of_executors fun r => State.executor_withDec s r _
    exact hlatch.trans (.completePair (by exact hs.clean) c)
  · cases i <;> simp [Instr.opcode] at hg
    case handle sig now =>
      have hkept : State.TightensIntervals s (s.observeMillis now) := .of_executors fun r => by simp
      cases sig <;> cases h
      · exact .of_executors fun _ => rfl
      · exact hkept.trans (.handle (by exact hs.clean) _ _)
      · exact hkept.trans (.handle (by exact hs.clean) _ _)
  · cases i <;> simp [Instr.opcode] at hg
    cases h
    exact .of_executors fun r => by simp
  · exact exec_rest_tightens hs hg h

/-! ## The background loops -/

/-- A turn of a loop, at a Yield or not (log 29). -/
theorem step_loop {q : Queue} {rest : List Event} {s : State}
    (ht : s.timeline = .loop q :: rest ∨ s.timeline = .loopAtYield q :: rest) (hs : s.stuck = false) :
    step s = .next (State.loopTurn q { s with timeline := rest }) := by
  have hfree := State.cooperative_free (s := { s with timeline := rest }) (fun s => .next (s.loopTurn q)) hs
  rcases ht with ht | ht
  · exact (step_event ht).trans hfree
  · exact (step_event ht).trans hfree

/-- Settles O57: the three cases of a turn, and the turn that the background has. -/
theorem loopsIterateAndSleepForever : Obligations.LoopsIterateAndSleepForever := by
  intro s hstuck
  refine ⟨fun q rest ht => ⟨fun hc => ?absent, fun hc hi => ?suspended, fun hc hi => ?awake⟩, fun ht ⟨q, hc⟩ => ?background⟩
  case absent =>
    rw [step_loop ht hstuck, State.loopTurn_absent (by simpa using hc)]
  case suspended =>
    rw [step_loop ht hstuck, State.loopTurn_suspended (by simpa using hc) (by simpa using hi),
      step_resume (s := { s with timeline := .resume q :: rest }) rfl hstuck]
  case awake =>
    obtain ⟨hmillis, hwake, -⟩ := State.le_readAwake q { s with timeline := rest }
    have hexec := exec_iterate_none (q := q) (s := { s with timeline := rest, draws := s.draws + 1 })
      (State.readAwake q { s with timeline := rest }).1 (by cases q <;> exact hi)
    refine ⟨_, s.draws + 1, hmillis, by simpa using hwake, ?_⟩
    rw [step_loop ht hstuck, State.loopTurn_awake (by simpa using hc) (by simpa using hi), hexec]
  case background =>
    refine ⟨s.nextLoop, s.draws + 1, State.nextLoop_created hc, ?_⟩
    rw [step_loop (s := { s with timeline := [.loop s.nextLoop], draws := s.draws + 1 }) (.inl rfl) hstuck, step_idle ht]
    rcases State.background_cases s with ⟨-, hnone⟩ | ⟨-, -, hbackground⟩
    · rcases hnone with h | h
      · rw [h] at hstuck; cases hstuck
      · rw [h] at hc; cases hc
    · rw [hbackground, ← ht]

/-! ## Everything an uninterrupted iteration changes -/

/-- An iteration none of whose due jobs is the poll: their calls are outputs and nothing else (log 12). -/
theorem State.iterate_user {q : Queue} {now : Nat} {s : State} (hs : s.Sound) (hi : (s.executor q).iteration = none)
    (hrun : s.Uninterrupted)
    (hu : ∀ j ∈ (s.executor q).settledJobs, j.dueAfter (s.elapsedAt q now) = true → j.callback ≠ .poll) :
    ∃ live outs, s.iterate q now = State.setExecutor q
      ⟨true, live, [], [], (s.executor q).interval, now, none, max s.millis now + (s.executor q).interval⟩
      { s with outputs := outs, millis := max s.millis now } := by
  have hstart : (s.started q now).Uninterrupted := hrun.of_timeline (State.started_timeline q now s)
  obtain ⟨outs, live, he⟩ := State.runJobs_user q (s.elapsedAt q now) (order q (s.executor q).settledJobs) []
    (s.started q now) hstart.yields hstart.returns fun j hj => hu j ((mem_order q _ j).1 hj)
  refine ⟨live, outs, ?_⟩
  rw [State.iterate_eq_started now hs hi, he]
  cases q <;> rfl

/-- The poll as an iteration calls it (R174): with a clock reading of its own. -/
def State.pollNow (s : State) : State := s.readMillis.2.poll s.readMillis.1

/-- The call of the poll, whatever was given before it. -/
theorem State.callJob_poll (q : Queue) {j : Job} (hj : j.callback = .poll) (outs : List Output) (s : State) :
    State.callJob q j { s with outputs := outs } = { s.pollNow with outputs := outs ++ [.called q .poll] } := by
  rw [State.callJob, hj]
  exact State.poll_withOutputs s.readMillis.1 (outs ++ [.called q .poll]) s.readMillis.2

theorem State.pollNow_runFrame {q : Queue} {s : State} (hc : (s.executor q).created = true) (hcl : s.userCallback.Clean) :
    State.RunFrame q s s.pollNow := by
  have hread := State.RunFrame.readMillis hc hcl
  exact hread.trans (State.poll_runFrame q _ _ hread.created hread.after)

/-- The poll touches no iteration in progress (R175). -/
theorem State.poll_iteration (q : Queue) (now : Nat) {s : State} (hcl : s.userCallback.Clean) :
    ((s.poll now).executor q).iteration = (s.executor q).iteration := by
  by_cases h : pollActs now s.dec
  · obtain ⟨hk, -, hq⟩ := State.poll_acts now s h
    cases q with
    | priority => exact congrArg Executor.iteration hk.priority
    | userCallback => exact (hq hcl).iteration
  · rw [State.poll_idle now s h]

theorem State.le_started_readMillis (q : Queue) (now : Nat) (s : State) :
    max s.millis now ≤ (s.started q now).readMillis.1 := by
  simpa [State.started] using State.le_readMillis (s.started q now)

/-- `POLL` at the reading that an iteration's call of the poll takes, once the jobs are merged, does what that call does. -/
theorem exec_poll_started (q : Queue) (now : Nat) (s : State) :
    exec (.poll (s.started q now).readMillis.1) (State.setExecutor q
      ⟨true, (s.executor q).settledJobs, [], [], (s.executor q).interval, now, none,
        if (s.executor q).created then (s.executor q).wake else now⟩ { s with draws := s.draws + 1 }) =
      .next (s.started q now).pollNow := by
  have hle : s.millis ≤ (s.started q now).readMillis.1 :=
    (le_max_left s.millis now).trans (State.le_started_readMillis q now s)
  rw [exec_poll, State.pollNow]
  congr 2
  cases q <;> simp only [State.observeMillis, State.setExecutor, Nat.max_eq_right hle] <;> rfl

/-- The call of the poll in an iteration (R174, R208): the jobs after it run, from where the poll leaves the state. -/
theorem State.runJobs_cons_poll {q : Queue} {elapsed : Int} {j : Job} {s : State} (hj : j.callback = .poll)
    (hdue : j.dueAfter elapsed = true) (hy : s.yieldTaken = false) (outs : List Output) (visited todo : List Job) :
    State.runJobs q elapsed visited (j :: todo) { s with outputs := outs } =
      State.runJobs q elapsed (visited ++ [(j.tick elapsed).afterCall]) todo
        { s.pollNow with outputs := outs ++ [.called q .poll] } := by
  have hover : ¬ Decimal.positive (j.tick elapsed).remaining = true := by simpa [Job.dueAfter, Job.tick] using hdue
  have hcall := State.callJob_poll q (j := j.tick elapsed) hj outs s
  have hreturns : State.hangs j.callback { s with outputs := outs } = false := by rw [hj]; rfl
  have hyield : State.yieldTaken { s.pollNow with outputs := outs ++ [.called q .poll] } = false := by
    have htimeline : s.pollNow.timeline = s.timeline := (State.poll_keeps _ _).timeline
    simpa [State.yieldTaken, htimeline] using hy
  rw [State.runJobs, if_neg hover, hreturns, if_neg (by decide), hcall, hyield, if_neg (by decide)]

/-- Running jobs of which one that is due is the poll, the other due ones being the application's: all but the executor's live jobs
and sleep and the outputs is as the poll leaves it. -/
theorem State.runJobs_poll {q : Queue} {elapsed : Int} {before after : List Job} {j : Job} {s : State}
    (hc : (s.executor q).created = true) (hcl : s.userCallback.Clean) (hi : (s.executor q).iteration = none)
    (hrun : s.Uninterrupted) (hj : j.callback = .poll) (hdue : j.dueAfter elapsed = true)
    (hu : ∀ k ∈ before ++ after, k.dueAfter elapsed = true → k.callback ≠ .poll) :
    ∃ live outs, s.runJobs q elapsed [] (before ++ j :: after) = State.setExecutor q
      { s.pollNow.executor q with live := live, wake := s.pollNow.millis + (s.executor q).interval }
      { s.pollNow with outputs := outs } := by
  have hframe := State.pollNow_runFrame hc hcl
  have hiteration : (s.pollNow.executor q).iteration = none := by
    rw [State.pollNow, State.poll_iteration q _ (by simpa using hcl), State.executor_readMillis, hi]
  obtain ⟨seen, hbefore⟩ := State.runJobs_userFirst q elapsed before (j :: after) [] s hrun.yields hrun.returns
    fun k hk => hu k (List.mem_append_left _ hk)
  rw [hbefore, State.runJobs_cons_poll hj hdue hrun.yields, ← (hframe.kept q).1]
  generalize s.outputs ++ _ ++ [.called q .poll] = outs
  obtain ⟨outs', live, hafter⟩ := State.runJobs_user q elapsed after (seen ++ [(j.tick elapsed).afterCall])
    { s.pollNow with outputs := outs } (hframe.yieldTaken.trans hrun.yields) (fun c => (hframe.hangs c).trans (hrun.returns c))
    fun k hk => hu k (List.mem_append_right _ hk)
  refine ⟨live, outs', ?_⟩
  rw [hafter, ← hiteration]
  cases q <;> rfl

/-- Settles O42: the calls, the live jobs and the sleep are those of `State.Iterates`; what else changes is said for the running of
the jobs, by whether one that is due is the poll. -/
theorem iterationRunsEveryDueJobOnce : Obligations.IterationRunsEveryDueJobOnce := by
  intro q now s hs hi hy hh
  have hrun : s.Uninterrupted := ⟨hy, hh⟩
  obtain ⟨t, ht, hit⟩ := exec_iterate_whole now hs hi hrun
  have hiterate : t = s.iterate q now := Host.Outcome.next.inj (ht.symm.trans (exec_iterate_none now hi))
  obtain ⟨hcreated, hlast, hcancel, hinterval⟩ := hit.executor
  obtain ⟨htx, hothers, hmicros, htimeline⟩ := hit.keeps
  refine ⟨t, s.elapsedAt q now, rfl, ht, hcreated, hit.iteration, hlast, hit.wake, hit.stuck, hcancel, hinterval, hit.live,
    hit.outputs, htx, hothers, hmicros, htimeline, fun huser => ?application, fun before after j ho hj hdue huser => ?poll⟩
  case application =>
    obtain ⟨live, outs, he⟩ := State.iterate_user hs hi hrun huser
    rw [hiterate, he]
    cases q <;> rfl
  case poll =>
    obtain ⟨live, outs, he⟩ := State.runJobs_poll (s := s.started q now) (State.started_created q now s)
      (State.started_clean q now s hs.clean) (by simp [State.started]) (hrun.of_timeline (State.started_timeline q now s))
      hj hdue huser
    refine ⟨_, _, State.le_started_readMillis q now s, exec_poll_started q now s, ?_⟩
    rw [hiterate, State.iterate_eq_started now hs hi, ho, he, State.started_interval]
    cases q <;> rfl

end Sys2Proof.Machine
end

section
/-!
PROOF. The statements about a callback that never returns (spec/60_exceptions.md R240, R247): how it stops its iteration, and what a
stuck cooperative context keeps. Such a state takes no step but those of the interrupt context (`step_cases`), so that what it keeps
is what the operations of that context leave unchanged.
-/

namespace Sys2Proof.Machine

/-! ## A callback that never returns -/

/-- The event of log 25 says it of the application's callbacks. -/
theorem State.hangs_user {s : State} {rest : List Event} (h : s.timeline = .neverReturns :: rest) (name : Text) :
    s.hangs (.user name) = true := by
  simp [State.hangs, h]

section
variable {q : Queue} {elapsed : Int} {j : Job}

/-- A job that is not due has less time remaining, and the jobs after it run (R208). -/
theorem State.runJobs_cons_notDue (h : j.dueAfter elapsed = false) (visited todo : List Job) (s : State) :
    s.runJobs q elapsed visited (j :: todo) = s.runJobs q elapsed (visited ++ [j.tick elapsed]) todo := by
  have hpositive : Decimal.positive (j.tick elapsed).remaining = true := by simpa [Job.dueAfter, Job.tick] using h
  rw [State.runJobs, if_pos hpositive]

/-- A job that is due and whose callback returns, with nothing at its Yield (R208). -/
theorem State.runJobs_cons_returns {s : State} (hc : (s.executor q).created = true) (hcl : s.userCallback.Clean)
    (h : j.dueAfter elapsed = true) (hreturns : s.hangs j.callback = false) (hy : s.yieldTaken = false)
    (visited todo : List Job) : s.runJobs q elapsed visited (j :: todo) =
      (s.callJob q (j.tick elapsed)).runJobs q elapsed (visited ++ [(j.tick elapsed).afterCall]) todo := by
  have hyield : (s.callJob q (j.tick elapsed)).yieldTaken = false :=
    (State.callJob_spec q (j.tick elapsed) s hc hcl).1.yieldTaken.trans hy
  simpa [hreturns, hyield] using State.runJobs_firstDue q elapsed [] todo j visited s nofun h

/-- A job that is due and whose callback never returns: the jobs after it do not run (U19). -/
theorem State.runJobs_cons_hangs {s : State} (h : j.dueAfter elapsed = true) (hhangs : s.hangs j.callback = true)
    (visited todo : List Job) : s.runJobs q elapsed visited (j :: todo) =
      (s.callJob q (j.tick elapsed)).blockIteration q elapsed visited (j.tick elapsed :: todo) := by
  simpa [hhangs] using State.runJobs_firstDue q elapsed [] todo j visited s nofun h
end

/-- Jobs in front of the others whose callbacks return, with nothing at their Yields: the due ones are called, in order, and the
others run next (R208). -/
theorem State.runJobs_returning (q : Queue) (elapsed : Int) (before rest : List Job) :
    ∀ (visited : List Job) (s : State), (s.executor q).created = true → s.userCallback.Clean → s.yieldTaken = false →
    (∀ k ∈ before, k.dueAfter elapsed = true → s.hangs k.callback = false) →
    ∃ seen u, s.runJobs q elapsed visited (before ++ rest) = u.runJobs q elapsed seen rest ∧ State.RunFrame q s u ∧
      u.outputs = s.outputs ++ (before.filter (Job.dueAfter elapsed)).map fun k => .called q k.callback := by
  induction before with
  | nil => exact fun visited s hc hcl _ _ => ⟨visited, s, rfl, .refl hc hcl, by simp⟩
  | cons k before ih =>
    intro visited s hc hcl hy hreturns
    have hlater : ∀ x ∈ before, x.dueAfter elapsed = true → s.hangs x.callback = false :=
      fun x hx => hreturns x (List.mem_cons_of_mem k hx)
    rw [List.cons_append]
    cases hk : k.dueAfter elapsed with
    | false =>
      obtain ⟨seen, u, hrun, hframe, hout⟩ := ih (visited ++ [k.tick elapsed]) s hc hcl hy hlater
      exact ⟨seen, u, by rw [State.runJobs_cons_notDue hk, hrun], hframe, by rw [hout]; simp [hk]⟩
    | true =>
      obtain ⟨hcall, hcalled⟩ := State.callJob_spec q (k.tick elapsed) s hc hcl
      obtain ⟨seen, u, hrun, hframe, hout⟩ := ih (visited ++ [(k.tick elapsed).afterCall]) _ hcall.created hcall.after
        (hcall.yieldTaken.trans hy) fun x hx hd => (hcall.hangs _).trans (hlater x hx hd)
      refine ⟨seen, u, ?_, hcall.trans hframe, ?_⟩
      · rw [State.runJobs_cons_returns hc hcl hk (hreturns k List.mem_cons_self hk) hy, hrun]
      · rw [hout, hcalled]; simp [hk, Job.tick]

/-- Settles O58: the polls in front return, the application's callback after them does not, and the iteration is suspended in its
call. -/
theorem callbackThatNeverReturnsIsStuck : Obligations.CallbackThatNeverReturnsIsStuck := by
  intro q now rest s elapsed before after j name hs hi ht helapsed ho hpolls hdue hj
  obtain rfl : elapsed = s.elapsedAt q now := helapsed
  have htimeline : (s.started q now).timeline = .neverReturns :: rest := (State.started_timeline q now s).trans ht
  have hyields : (s.started q now).yieldTaken = false := by
    rw [State.yieldTaken, htimeline]
  have hreturns : ∀ k ∈ before, k.dueAfter (s.elapsedAt q now) = true → (s.started q now).hangs k.callback = false := by
    intro k hk hd
    rw [hpolls k hk hd]
    rfl
  obtain ⟨seen, u, hrun, hu, hout⟩ := State.runJobs_returning q (s.elapsedAt q now) before (j :: after) [] (s.started q now)
    (State.started_created q now s) (State.started_clean q now s hs.clean) hyields hreturns
  have hhangs : u.hangs j.callback = true := by
    rw [hj]
    exact State.hangs_user (hu.timeline.trans htimeline) name
  have hiterate : s.iterate q now = (u.callJob q (j.tick (s.elapsedAt q now))).blockIteration q (s.elapsedAt q now) seen
      (j.tick (s.elapsedAt q now) :: after) := by
    rw [State.iterate_eq_started now hs hi, ho, hrun, State.runJobs_cons_hangs hdue hhangs]
  have hcalled := (State.callJob_spec q (j.tick (s.elapsedAt q now)) u hu.created hu.after).2
  have hframe := State.iterate_runFrame now hs hi
  refine ⟨_, exec_iterate_none now hi, ?_, ?_, ?_, ?_, ?_, ?_⟩
  · rw [hiterate]; rfl
  · rw [hiterate]; simp
  · rw [hiterate]
    simpa [State.blockIteration, State.suspendIteration, Job.tick, hj, hout] using hcalled
  · simpa [State.started] using hframe.tx
  · simpa [State.started] using hframe.txOthers
  · simpa using hframe.timeline

/-! ## What the interrupt context leaves unchanged -/

/-- The protocol and the handlers, which only operations of the cooperative context set (R101, R180 to R182), are the same. -/
structure Dec.SameSetUp (d d' : Dec) : Prop where
  protocol : d'.protocol = d.protocol
  pressHandlers : d'.pressHandlers = d.pressHandlers
  releaseHandlers : d'.releaseHandlers = d.releaseHandlers
  datagramHandler : d'.datagramHandler = d.datagramHandler

theorem Dec.SameSetUp.refl (d : Dec) : Dec.SameSetUp d d := ⟨rfl, rfl, rfl, rfl⟩

theorem Dec.SameSetUp.trans {d e f : Dec} (h : Dec.SameSetUp d e) (k : Dec.SameSetUp e f) : Dec.SameSetUp d f :=
  ⟨k.protocol.trans h.protocol, k.pressHandlers.trans h.pressHandlers, k.releaseHandlers.trans h.releaseHandlers,
    k.datagramHandler.trans h.datagramHandler⟩

theorem Dec.SameSetUp.perform (c : PairClass) (d : Dec) : Dec.SameSetUp d (d.perform c).1 := by
  rw [Dec.perform_frame]
  exact ⟨rfl, rfl, rfl, rfl⟩

theorem Dec.SameSetUp.handle (sig : Signal) (now : Nat) (d : Dec) : Dec.SameSetUp d (handleDec sig now d) := by
  cases sig <;> exact ⟨rfl, rfl, rfl, rfl⟩

/-- The frame of the interrupt context (R240): TX, the Priority executor and whether the cooperative context is stuck are kept, and
of the UserCallback executor all but the callbacks that newly wait. -/
structure State.InterruptFrame (s t : State) : Prop extends State.KeepsTx s t where
  priority : t.priority = s.priority
  stuck : t.stuck = s.stuck
  timeline : t.timeline = s.timeline
  setUp : Dec.SameSetUp s.dec t.dec
  queued : ∃ cs, Executor.Queued cs s.userCallback t.userCallback

section
variable {s t u : State}

theorem State.InterruptFrame.trans (h : State.InterruptFrame s t) (k : State.InterruptFrame t u) :
    State.InterruptFrame s u where
  tx := k.tx.trans h.tx
  txOthers := k.txOthers.trans h.txOthers
  micros := k.micros.trans h.micros
  priority := k.priority.trans h.priority
  stuck := k.stuck.trans h.stuck
  timeline := k.timeline.trans h.timeline
  setUp := h.setUp.trans k.setUp
  queued := by
    obtain ⟨cs, hq⟩ := h.queued
    obtain ⟨ds, kq⟩ := k.queued
    exact ⟨cs ++ ds, hq.trans kq⟩

/-- The UserCallback executor is created where anything newly waits in it (R200). -/
theorem State.InterruptFrame.clean (h : State.InterruptFrame s t) : t.userCallback.Clean := by
  obtain ⟨cs, hq⟩ := h.queued
  exact hq.clean

/-- A change of the decoder's record, the outputs, the millisecond clock and the draws. -/
theorem State.InterruptFrame.update (hc : s.userCallback.Clean) {d : Dec} (hd : Dec.SameSetUp s.dec d) (outs : List Output)
    (millis draws : Nat) :
    State.InterruptFrame s { s with dec := d, outputs := outs, millis := millis, draws := draws } :=
  ⟨⟨rfl, rfl, rfl⟩, rfl, rfl, rfl, hd, [], .nil hc⟩

theorem State.InterruptFrame.refl (hc : s.userCallback.Clean) : State.InterruptFrame s s :=
  .update hc (.refl s.dec) s.outputs s.millis s.draws

theorem State.InterruptFrame.handle (hc : s.userCallback.Clean) (sig : Signal) (now : Nat) :
    State.InterruptFrame s (s.handle sig now) := by
  obtain ⟨hk, hdec, hq⟩ := State.handle_spec sig now s
  exact ⟨⟨hk.tx, hk.txOthers, hk.micros⟩, hk.priority, hk.stuck, hk.timeline, hdec ▸ .handle sig now s.dec, _, hq hc⟩

theorem State.InterruptFrame.completePair (hc : s.userCallback.Clean) (c : PairClass) :
    State.InterruptFrame s (s.completePair c) := by
  have hperform := Dec.SameSetUp.perform c s.dec
  by_cases h : rowSignal c s.dec.bitsReceived = .incomplete
  · rw [State.completePair_incomplete h]
    exact .update hc hperform _ s.millis s.draws
  · rw [State.completePair_signals h]
    have hacts := State.InterruptFrame.update hc hperform (s.outputs ++ [.pair c (rowSignal c s.dec.bitsReceived)])
      (s.millis + Config.millisStep s.draws) (s.draws + 1)
    exact hacts.trans (.handle hacts.clean _ _)

theorem State.InterruptFrame.latch (hc : s.userCallback.Clean) (m : Nat) :
    State.InterruptFrame s { s with dec := { s.dec with markLatch := m } } :=
  .update hc (d := { s.dec with markLatch := m }) ⟨rfl, rfl, rfl, rfl⟩ s.outputs s.millis s.draws

theorem execHandle_interruptFrame (hc : s.userCallback.Clean) {sig : Signal} {now : Nat}
    (h : execHandle sig now s = .next t) : State.InterruptFrame s t := by
  have hread : State.InterruptFrame s (s.observeMillis now) := .update hc (.refl s.dec) s.outputs _ s.draws
  cases sig with
  | incomplete => cases h; exact .refl hc
  | datagram => cases h; exact hread.trans (.handle hread.clean .datagram now)
  | repeatCode => cases h; exact hread.trans (.handle hread.clean .repeatCode now)

/-- The operations of the interrupt context latch a mark, complete a pair, or handle a signal (R240). -/
theorem Opcode.inInterrupt_cases {o : Opcode} (h : Opcode.inInterrupt o = true) :
    o = .markedge ∨ o ∈ Opcode.ofPairs ∨ o = .handle := by
  cases o <;> revert h <;> decide

/-- Every operation of the interrupt context. -/
theorem exec_interruptFrame {i : Instr} (hc : s.userCallback.Clean) (hi : Opcode.inInterrupt i.opcode = true)
    (h : exec i s = .next t) : State.InterruptFrame s t := by
  rcases Opcode.inInterrupt_cases hi with ho | ho | ho
  · cases i <;> simp [Instr.opcode] at ho
    case markedge m => rw [exec_markedge_next h]; exact .latch hc m
  · obtain ⟨c, m, rfl⟩ := exec_pair_next ho h
    have hlatch := State.InterruptFrame.latch hc m
    exact hlatch.trans (.completePair hlatch.clean c)
  · cases i <;> simp [Instr.opcode] at ho
    case handle sig now => exact execHandle_interruptFrame hc h

/-! ## The stuck cooperative context -/

/-- A line of the cooperative context, while that is stuck, never happens (log 25). -/
theorem State.runLine_stuck {line : Text} {i : Instr} (hd : decode line = .ok i) (hi : ¬ Opcode.inInterrupt i.opcode = true)
    (hs : s.stuck = true) : s.runLine line = .next s := by
  simp only [State.runLine, hd, if_neg hi]
  exact State.cooperative_stuck (exec i) hs

/-- A step of a state whose cooperative context is stuck: the next event is taken off, and no more than the interrupt context
runs. -/
theorem step_interruptFrame (hc : s.userCallback.Clean) (hstuck : s.stuck = true) (h : step s = .next t) :
    State.InterruptFrame { s with timeline := s.timeline.tail } t := by
  have hbusy : s.stuck ≠ false := by simp [hstuck]
  rcases step_cases h with rfl | ⟨line, rest, i, -, ht, hctx, hx⟩ | ⟨hfree, -⟩ | ⟨hfree, -⟩
  · exact .refl hc
  · have htail : s.timeline.tail = rest := by rcases ht with ht | ht <;> rw [ht, List.tail_cons]
    rw [htail]
    exact exec_interruptFrame hc (hctx.resolve_left hbusy) hx
  · exact absurd hfree hbusy
  · exact absurd hfree hbusy
end

/-- Settles O59: a line is performed where its context is that of the interrupts, and every step has the frame of that context. -/
theorem stuckContextDoesNotAdvance : Obligations.StuckContextDoesNotAdvance := by
  intro s hs hstuck
  refine ⟨fun line rest i ht hd => ⟨fun hi => ?performed, fun hi => ?dropped⟩, fun t h => ?kept⟩
  case performed => exact stepRunsTheDecodedOperation s line rest i ht hd (.inr hi)
  case dropped =>
    have hline : State.runLine line { s with timeline := rest } = .next { s with timeline := rest } :=
      State.runLine_stuck hd (mt (Opcode.inInterrupt_iff i.opcode).1 hi) hstuck
    rcases ht with ht | ht
    · exact (step_event ht).trans hline
    · exact (step_event ht).trans hline
  case kept =>
    have hframe := step_interruptFrame hs.clean hstuck h
    obtain ⟨cs, hq⟩ := hframe.queued
    obtain ⟨hprotocol, hpress, hrelease, hdatagram⟩ := hframe.setUp
    exact ⟨hframe.stuck.trans hstuck, hframe.tx, hframe.txOthers, hframe.priority, hframe.micros, hq.live, hq.iteration,
      hq.pendingCancel, hq.interval, hprotocol, hpress, hrelease, hdatagram, hframe.timeline⟩

end Sys2Proof.Machine
end
